-- ==== Sys2Proof/Word.lean ====
section
/-! DEFINITION. The word types of the CHIP-8 CORE: only widths, no arithmetic of the machine's own (R8: every value is unsigned). -/

namespace Sys2Proof

/-- An 8-bit value: a general register, a timer, a memory byte, an immediate kk (R20, R91). -/
abbrev Byte := BitVec 8

/-- A 16-bit instruction word (R90). -/
abbrev Opcode := BitVec 16

/-- A 12-bit memory address: PC, a stack entry, the field nnn (R24, R28, R91). -/
abbrev Addr := BitVec 12

/-- A 4-bit register index, the fields x and y (R91); WAIT_X holds one too (R41). -/
abbrev RegIdx := BitVec 4

/-- VF, register index 15, is the flag register (R22). -/
abbrev vf : RegIdx := 15#4

end Sys2Proof
end

