-- ==== Sys2Proof/Config.lean ====
section
/-! DEFINITION. What an implementation fixes: the open parameters of R6, and the free RND_IN byte. The values this hardware
takes are `Config.hardware`, in Sys2Proof/Machine/Params.lean. I_WIDTH is no field: only 16 is specified (spec/93, section 2). -/

namespace Sys2Proof

/-- ODD_PC_POLICY (R6, R63): an odd PC is fetched like an even one, or raises AddressOutOfRange. -/
inductive OddPcPolicy where
  | fetch | fault
  deriving DecidableEq, Repr

/-- KEY_INDEX_POLICY (R6, R270): a key index above 15 raises InvalidKeyIndex, or is taken mod 16. -/
inductive KeyIndexPolicy where
  | fault | mask
  deriving DecidableEq, Repr

/-- LDS_CHECK (R6, R242): a digit above 15 raises InvalidSpriteIndex, or is not checked. -/
inductive LdsCheck where
  | fault | unchecked
  deriving DecidableEq, Repr

/-- FONT_WRITE (R6, R70): the font bytes are ordinary memory, or stores to them are dropped. -/
inductive FontWrite where
  | write | ignore
  deriving DecidableEq, Repr

/-- The parameters of R6 that the source leaves open. -/
structure Config where
  /-- FONT: the 80 bytes that reset and load put at 0x000 to 0x04F (R33). -/
  font           : Vector Byte 80
  /-- STRICT_DECODE (R101). -/
  strictDecode   : Bool
  /-- ODD_PC_POLICY (R63). -/
  oddPc          : OddPcPolicy
  /-- KEY_INDEX_POLICY (R270, R271). -/
  keyIndex       : KeyIndexPolicy
  /-- LDS_CHECK (R242). -/
  ldsCheck       : LdsCheck
  /-- FONT_WRITE (R70). -/
  fontWrite      : FontWrite
  deriving DecidableEq, Repr

/-- RND_IN (R129): the k-th byte drawn from outside the CORE. A FREE VALUE with no body: any byte is allowed and nothing can be
proved of it (spec/93 U1; log entry 4). -/
opaque Config.rndIn : Nat → Byte

end Sys2Proof
end

