-- ==== Sys2Proof/Machine/Params.lean ====
section
/-! DEFINITION. The parameter values of this hardware: the defaults of R6 (log entry 1) and the font table of R33 (log entry 2). -/

namespace Sys2Proof

/-- The 80 font bytes of R33, glyph by glyph: glyph d stands at 5d, top row first (R32). UNVERIFIED: the table is the spec's
own supply, not its source's (spec/93 G1; log entry 2). -/
def fontTable : Vector Byte 80 :=
  #v[0xF0, 0x90, 0x90, 0x90, 0xF0,  0x20, 0x60, 0x20, 0x20, 0x70,
     0xF0, 0x10, 0xF0, 0x80, 0xF0,  0xF0, 0x10, 0xF0, 0x10, 0xF0,
     0x90, 0x90, 0xF0, 0x10, 0x10,  0xF0, 0x80, 0xF0, 0x10, 0xF0,
     0xF0, 0x80, 0xF0, 0x90, 0xF0,  0xF0, 0x10, 0x20, 0x40, 0x40,
     0xF0, 0x90, 0xF0, 0x90, 0xF0,  0xF0, 0x90, 0xF0, 0x10, 0xF0,
     0xF0, 0x90, 0xF0, 0x90, 0x90,  0xE0, 0x90, 0xE0, 0x90, 0xE0,
     0xF0, 0x80, 0x80, 0x80, 0xF0,  0xE0, 0x90, 0x90, 0x90, 0xE0,
     0xF0, 0x80, 0xF0, 0x80, 0xF0,  0xF0, 0x80, 0xF0, 0x80, 0x80]

/-- This hardware: every parameter at the default of R6. UNVERIFIED (log entry 1). -/
def Config.hardware : Config where
  font         := fontTable
  strictDecode := false
  oddPc        := .fetch
  keyIndex     := .fault
  ldsCheck     := .fault
  fontWrite    := .write

end Sys2Proof
end

