-- ==== Sys2Proof/Machine/State.lean ====
section
/-! DEFINITION. The state of the CORE (R20), its error names (R301), the reasons the model stops, and the reset state (R46, R350). -/

namespace Sys2Proof.Machine

/-- The fatal errors and ERR = none, in the order of their codes 0 to 7 (R301); `Err.code` gives the 3-bit code. -/
inductive Err where
  /-- ERR = 0: no error. -/
  | none
  /-- ERR = 1: a load of more than 3584 bytes. -/
  | loadTooLarge
  /-- ERR = 2: a word no row of the opcode map matches. -/
  | decodeFailure
  /-- ERR = 3: CALL with SP = 16. -/
  | stackOverflow
  /-- ERR = 4: RET with SP = 0. -/
  | stackUnderflow
  /-- ERR = 5: an address or next PC that is not below 4096, or I past 0xFFFF. -/
  | addressOutOfRange
  /-- ERR = 6: LDS with Vx > 15. -/
  | invalidSpriteIndex
  /-- ERR = 7: SKP or SKNP with Vx > 15. -/
  | invalidKeyIndex
  deriving DecidableEq, Repr

/-- The four run states (R40); `RunState.code` gives the 2-bit code. -/
inductive RunState where
  | running | paused | awaitingKeypress | halted
  deriving DecidableEq, Repr

/-- Why the model stops. The machine's own errors are no stop: they are next states with HALTED = 1 (R300). -/
inductive Fault where
  /-- Raised by CALL and RET when SP holds 17 to 31, which R29 says SP never does; the spec gives no effect there.
  SAFE: the machine never reaches such a state, and the model stops instead of inventing one (log entry 6). -/
  | stackPointerIllegal
  deriving DecidableEq, Repr

/-- Why the model has no meaning for an instruction. -/
inductive Refusal where
  /-- Raised by no arm: every instruction of the opcode map has its meaning. SAFE. -/
  | notModelled (mnemonic : String)
  deriving DecidableEq, Repr

/-- Memory: (address, byte) pairs in one canonical form, `Memory.wf` (log entry 7). -/
abbrev Memory := List Host.Cell

/-- The state of the CORE: every element of R20, and `draws`. -/
structure State where
  /-- V[0..15] (R21). -/
  v       : Vector Byte 16
  /-- I, the address register: I_WIDTH = 16 bits (R26). -/
  i       : BitVec 16
  /-- PC (R24). -/
  pc      : Addr
  /-- SP, 5 bits, legal values 0 to 16: the number of occupied entries (R29). -/
  sp      : BitVec 5
  /-- STACK[0..15] (R28). -/
  stack   : Vector Addr 16
  /-- DT, the delay timer (R30). -/
  dt      : Byte
  /-- ST, the sound timer (R30). -/
  st      : Byte
  /-- MEM (R31). -/
  mem     : Memory
  /-- FB (R34): row y, whose bit x is pixel FB[y][x] (log entry 11). -/
  fb      : Vector (BitVec 64) 32
  /-- KEYS[0..15], true for pressed (R35). -/
  keys    : Vector Bool 16
  /-- HALTED (R38). -/
  halted  : Bool
  /-- PAUSED (R39). -/
  paused  : Bool
  /-- WAITING (R41). -/
  waiting : Bool
  /-- LOADED (R42). -/
  loaded  : Bool
  /-- BEEP (R44). -/
  beep    : Bool
  /-- WAIT_X (R41). -/
  waitX   : RegIdx
  /-- ERR (R43). -/
  err     : Err
  /-- The model's own: how many RND_IN bytes have been drawn (R129; log entry 4). -/
  draws   : Nat
  deriving DecidableEq, Repr

/-- The state right after reset (R46, R350): the power-on state too (R351). Memory lists nothing: an unlisted byte reads as its
reset value, FONT or 0 (log entry 7). No program is loaded, so `step` does nothing until a load (log entry 8). -/
def State.reset : State where
  v       := Vector.replicate 16 0#8
  i       := 0#16
  pc      := 0x200#12
  sp      := 0#5
  stack   := Vector.replicate 16 0#12
  dt      := 0#8
  st      := 0#8
  mem     := []
  fb      := Vector.replicate 32 0#64
  keys    := Vector.replicate 16 false
  halted  := false
  paused  := false
  waiting := false
  loaded  := false
  beep    := false
  waitX   := 0#4
  err     := .none
  draws   := 0

end Sys2Proof.Machine
end

