-- ==== Sys2Proof/Machine/Ops.lean ====
section
/-! DEFINITION. The named operations every instruction is written with: memory (R10, R66 to R71), registers, the call stack, the
framebuffer, raising an error (R300), staged writes and their commit (R126), and the end of an instruction (R123 to R125). -/

namespace Sys2Proof.Machine

/-- The result of one step. -/
abbrev Result := Host.Outcome State Fault Refusal

/-! ## Codes the host reads -/

/-- The 3-bit ERR code (R301). -/
def Err.code : Err → BitVec 3
  | .none => 0#3
  | .loadTooLarge => 1#3
  | .decodeFailure => 2#3
  | .stackOverflow => 3#3
  | .stackUnderflow => 4#3
  | .addressOutOfRange => 5#3
  | .invalidSpriteIndex => 6#3
  | .invalidKeyIndex => 7#3

/-- The 2-bit run-state code (R40). -/
def RunState.code : RunState → BitVec 2
  | .running => 0#2
  | .paused => 1#2
  | .awaitingKeypress => 2#2
  | .halted => 3#2

/-- The run state, derived from the control bits (R40). -/
def State.runState (s : State) : RunState :=
  if s.halted then .halted
  else if s.paused then .paused
  else if s.waiting then .awaitingKeypress
  else .running

/-! ## Memory -/

/-- MEM_SIZE (R5, R60). -/
def memSize : Nat := 4096

/-- FONT_LEN: the font stands in [0, 80) (R5, R32). -/
def fontLen : Nat := 80

/-- What an unlisted address reads as: its contents at reset, FONT below 80 and 0 above (R46, R71; log entry 7). -/
def resetByte (c : Config) (a : Nat) : Byte :=
  match c.font[a]? with
  | some b => b
  | none => 0#8

/-- The byte listed at an address, if one is. -/
def Memory.lookup (a : Nat) : Memory → Option Byte
  | [] => none
  | (b, u) :: m => if b = a then some u else Memory.lookup a m

/-- MEM[a]: the listed byte, else the reset contents. -/
def Memory.read (c : Config) (m : Memory) (a : Nat) : Byte :=
  match m.lookup a with
  | some u => u
  | none => resetByte c a

/-- The list with a cell put in its place, in rising order of address. -/
def Memory.insert (a : Nat) (u : Byte) : Memory → Memory
  | [] => [(a, u)]
  | (b, w) :: m =>
    if a < b then (a, u) :: (b, w) :: m
    else if a = b then (a, u) :: m
    else (b, w) :: Memory.insert a u m

/-- The list without the cells at an address. -/
def Memory.erase (a : Nat) : Memory → Memory
  | [] => []
  | (b, w) :: m => if b = a then Memory.erase a m else (b, w) :: Memory.erase a m

/-- MEM[a] <- u, in canonical form: writing the reset contents unlists the address. An address outside [0, 4096) does not exist
and nothing is listed for it; every instruction has raised AddressOutOfRange before it gets here (R66; log entry 7). -/
def Memory.write (c : Config) (m : Memory) (a : Nat) (u : Byte) : Memory :=
  if memSize ≤ a then m
  else if u = resetByte c a then m.erase a
  else m.insert a u

/-- Addresses are strictly rising from `lo` on. -/
def Memory.risingFrom (lo : Nat) : Memory → Bool
  | [] => true
  | (a, _) :: m => decide (lo ≤ a) && Memory.risingFrom (a + 1) m

/-- The canonical form (log entry 7): addresses strictly rising, every one below 4096, and no listed byte equal to what its
address would read as unlisted. -/
def Memory.wf (c : Config) (m : Memory) : Bool :=
  Memory.risingFrom 0 m && m.all (fun p => decide (p.1 < memSize) && p.2 != resetByte c p.1)

/-- Consecutive bytes written from `a` on. -/
def Memory.writeList (c : Config) (m : Memory) (a : Nat) : List Byte → Memory
  | [] => m
  | u :: us => Memory.writeList c (m.write c a u) (a + 1) us

/-- MEM[a] in a state. -/
def State.readByte (c : Config) (s : State) (a : Nat) : Byte := s.mem.read c a

/-- A store by an instruction: under FONT_WRITE = ignore a store to the font bytes is dropped (R70). -/
def State.writeByte (c : Config) (s : State) (a : Nat) (u : Byte) : State :=
  if c.fontWrite = .ignore ∧ a < fontLen then s else { s with mem := s.mem.write c a u }

/-- Every one of the `len` addresses from `a` on exists (R66): `a` is at full width, with no wrap (R67). -/
def inRange (a len : Nat) : Bool := len = 0 || a + len ≤ memSize

/-! ## Registers, call stack, framebuffer, keypad -/

/-- V[x] (R9, R21). -/
def State.getV (s : State) (x : RegIdx) : Byte := s.v[x.toNat]'x.isLt

/-- V[x] <- b (R9, R21): none is hardwired. -/
def State.setV (s : State) (x : RegIdx) (b : Byte) : State := { s with v := s.v.set x.toNat b x.isLt }

/-- STACK[j], where there is such an entry (R28). -/
def State.stackAt (s : State) (j : Nat) : Option Addr := s.stack[j]?

/-- STACK[j] <- a (R28). -/
def State.setStack (s : State) (j : Nat) (a : Addr) : State := { s with stack := s.stack.setIfInBounds j a }

/-- FB[y][x] (R34). -/
def State.pixel (s : State) (x : Fin 64) (y : Fin 32) : Bool := s.fb[y][x]

/-- A row with the pixel of one column set or cleared. -/
def setColumn (row : BitVec 64) (x : Fin 64) (on : Bool) : BitVec 64 :=
  if on then row ||| BitVec.twoPow 64 x else row &&& ~~~BitVec.twoPow 64 x

/-- FB[y][x] <- on (R34). -/
def State.setPixel (s : State) (x : Fin 64) (y : Fin 32) (on : Bool) : State :=
  { s with fb := s.fb.set y (setColumn s.fb[y] x on) }

/-- Every pixel off (R150). -/
def State.clearScreen (s : State) : State := { s with fb := Vector.replicate 32 0#64 }

/-- KEYS[k] (R35). -/
def State.keyDown (s : State) (k : RegIdx) : Bool := s.keys[k.toNat]'k.isLt

/-- The key numbers in rising order. -/
def keyNumbers : List RegIdx := [0, 1, 2, 3, 4, 5, 6, 7, 8, 9, 10, 11, 12, 13, 14, 15]

/-- The lowest-numbered pressed key, if one is pressed (R122, R272). -/
def State.lowestKey (s : State) : Option RegIdx := keyNumbers.find? s.keyDown

/-! ## Taking an error (R300 to R304)

The one entry there is: no state is saved elsewhere, no mode changes and control goes nowhere. There is no return from it but
reset and load (R306; Sys2Proof/Machine/HostInterface.lean). -/

/-- The machine halted by an error: HALTED and ERR change and nothing else (R300, R302). -/
def State.raise (s : State) (e : Err) : State := { s with halted := true, err := e }

/-! ## Staged writes and commit (R123, R126, R127) -/

/-- One staged write (R123's list, and the model's own `draw`). -/
inductive Write where
  /-- V[x] <- b. -/
  | v (x : RegIdx) (b : Byte)
  /-- I <- a. -/
  | i (a : BitVec 16)
  /-- MEM[a] <- u. -/
  | mem (a : Nat) (u : Byte)
  /-- FB[y][x] <- on. -/
  | pixel (x : Fin 64) (y : Fin 32) (on : Bool)
  /-- FB[y][x] <- 0 for every x and y (R150). -/
  | clear
  /-- SP <- k. -/
  | sp (k : BitVec 5)
  /-- STACK[j] <- a. -/
  | stack (j : Nat) (a : Addr)
  /-- DT <- b. -/
  | dt (b : Byte)
  /-- ST <- b. -/
  | st (b : Byte)
  /-- WAITING <- on. -/
  | waiting (on : Bool)
  /-- WAIT_X <- x. -/
  | waitX (x : RegIdx)
  /-- One RND_IN byte has been drawn (R129). -/
  | draw
  deriving DecidableEq, Repr

/-- One staged write, applied. -/
def applyWrite (c : Config) (s : State) : Write → State
  | .v x b => s.setV x b
  | .i a => { s with i := a }
  | .mem a u => s.writeByte c a u
  | .pixel x y on => s.setPixel x y on
  | .clear => s.clearScreen
  | .sp k => { s with sp := k }
  | .stack j a => s.setStack j a
  | .dt b => { s with dt := b }
  | .st b => { s with st := b }
  | .waiting on => { s with waiting := on }
  | .waitX x => { s with waitX := x }
  | .draw => { s with draws := s.draws + 1 }

/-- commit(W): the staged writes in the order they were staged, so that the later of two to one location wins (R126). -/
def commit (c : Config) (s : State) : List Write → State
  | [] => s
  | w :: ws => commit c (applyWrite c s w) ws

/-- What an instruction's rule comes to, before anything is committed (R123). -/
inductive Effect where
  /-- It staged these writes and this next PC, at full width (R125). -/
  | done (writes : List Write) (npc : Nat)
  /-- It raised an error (R11). -/
  | raise (e : Err)
  /-- The spec gives it no effect in this state. -/
  | stuck (f : Fault)
  deriving DecidableEq, Repr

/-- The end of a step (R123 to R126): a raise discards the staged writes and halts; a next PC above 0xFFF raises
AddressOutOfRange (R125); otherwise the writes are committed, and PC last. -/
def complete (c : Config) (s : State) : Effect → Result
  | .done ws npc =>
    if 0xFFF < npc then .next (s.raise .addressOutOfRange)
    else .next { commit c s ws with pc := BitVec.ofNat 12 npc }
  | .raise e => .next (s.raise e)
  | .stuck f => .fault f

/-- The default next PC, PC + 2 at full width (R124). -/
def State.nextPc (s : State) : Nat := s.pc.toNat + 2

/-- The next PC of a skip: PC + 4 if its condition holds, else PC + 2 (R124). -/
def State.skipPc (s : State) (taken : Bool) : Nat := if taken then s.pc.toNat + 4 else s.pc.toNat + 2

end Sys2Proof.Machine
end

