-- ==== Sys2Proof/Machine/Flags.lean ====
section
/-! DEFINITION. The flag computations: VF is the only flag and holds 0 or 1 (R22, R36). Each is a function of operands read before
the step (R127). -/

namespace Sys2Proof.Machine

/-- A flag as VF holds it: 0 or 1 (R36). -/
def flagByte (on : Bool) : Byte := if on then 1#8 else 0#8

/-- Carry of ADD: the 9-bit sum is above 255 (R207). -/
def carryFlag (a b : Byte) : Byte := flagByte (decide (a.toNat + b.toNat > 255))

/-- Not-borrow of a - b: 1 if a ≥ b (R208, R210). -/
def notBorrowFlag (a b : Byte) : Byte := flagByte (decide (a.toNat ≥ b.toNat))

/-- The bit SHR shifts out: bit 0 before the shift (R209). -/
def shiftedOutLow (a : Byte) : Byte := flagByte (a.getLsbD 0)

/-- The bit SHL shifts out: bit 7 before the shift (R211). -/
def shiftedOutHigh (a : Byte) : Byte := flagByte (a.getLsbD 7)

/-- Collision of DRW: some pixel of the blit is on before it, so it goes off (R151). -/
def State.collisionFlag (s : State) (ps : List (Fin 64 × Fin 32)) : Byte :=
  flagByte (ps.any (fun p => s.pixel p.1 p.2))

end Sys2Proof.Machine
end

