-- ==== Sys2Proof/Machine/Operands.lean ====
section
/-! DEFINITION. The operand forms: register ranges V0..Vx, byte runs at I (R64, R66, R67), decimal digits (R243), key indices
(R270), font digits (R242), and the pixels a sprite lights (R151, R152). -/

namespace Sys2Proof.Machine

/-- The register indices 0 to x (R92, R244, R245). -/
def regsUpTo (x : RegIdx) : List RegIdx := (List.range (x.toNat + 1)).map (BitVec.ofNat 4)

/-- The bytes at `a`, `a + 1`, ...: `len` of them, in rising order (R65). -/
def State.bytesAt (c : Config) (s : State) (a : Nat) : Nat → List Byte
  | 0 => []
  | len + 1 => s.readByte c a :: State.bytesAt c s (a + 1) len

/-- MemRead of `len` consecutive bytes: AddressOutOfRange if any of the addresses does not exist (R10, R66). -/
def State.loadBytes (c : Config) (s : State) (a len : Nat) : Except Err (List Byte) :=
  if inRange a len then .ok (s.bytesAt c a len) else .error .addressOutOfRange

/-- The staged stores of consecutive bytes from `a` on, in rising order (R65). -/
def stores (a : Nat) : List Byte → List Write
  | [] => []
  | u :: us => .mem a u :: stores (a + 1) us

/-- MemWrite of consecutive bytes: AddressOutOfRange if any of the addresses does not exist (R10, R66). -/
def storeBytes (a : Nat) (us : List Byte) : Except Err (List Write) :=
  if inRange a us.length then .ok (stores a us) else .error .addressOutOfRange

/-- The staged writes of bytes to consecutive registers, from the given indices in order (R245). -/
def regWrites : List RegIdx → List Byte → List Write
  | x :: xs, u :: us => .v x u :: regWrites xs us
  | _, _ => []

/-- Hundreds, tens and ones of a byte (R243). -/
def decimalDigits (b : Byte) : List Byte :=
  [BitVec.ofNat 8 (b.toNat / 100), BitVec.ofNat 8 (b.toNat / 10 % 10), BitVec.ofNat 8 (b.toNat % 10)]

/-- The key a register names: an index above 15 raises InvalidKeyIndex, or is taken mod 16 (R270, R271). -/
def keyIndex (p : KeyIndexPolicy) (b : Byte) : Except Err RegIdx :=
  if b.toNat > 15 then
    match p with
    | .fault => .error .invalidKeyIndex
    | .mask => .ok (BitVec.ofNat 4 (b.toNat % 16))
  else .ok (BitVec.ofNat 4 b.toNat)

/-- GLYPH_BYTES: the bytes of one font glyph (R5, R32). -/
def glyphBytes : Nat := 5

/-- The address of a font glyph: a digit above 15 raises InvalidSpriteIndex where it is checked (R242). -/
def glyphAddress (p : LdsCheck) (b : Byte) : Except Err (BitVec 16) :=
  if b.toNat > 15 ∧ p = .fault then .error .invalidSpriteIndex
  else .ok (BitVec.ofNat 16 (b.toNat * glyphBytes))

/-- The framebuffer position a sprite's column c and row r fall on: mod 64 and mod 32, never clipped (R151). -/
def spritePixel (xs ys : Byte) (c r : Nat) : Fin 64 × Fin 32 :=
  (Fin.ofNat 64 (xs.toNat + c), Fin.ofNat 32 (ys.toNat + r))

/-- The positions one sprite row's 1 bits fall on: bit 7 is the leftmost pixel, column 0 (R152). -/
def rowPixels (xs ys : Byte) (row : Byte) (r : Nat) : List (Fin 64 × Fin 32) :=
  ((List.range 8).filter (fun c => row.getLsbD (7 - c))).map (fun c => spritePixel xs ys c r)

/-- The positions of all 1 bits of a sprite, whose first row is row number `r` (R151). -/
def spritePixels (xs ys : Byte) (r : Nat) : List Byte → List (Fin 64 × Fin 32)
  | [] => []
  | row :: rows => rowPixels xs ys row r ++ spritePixels xs ys (r + 1) rows

/-- The staged pixel writes of a sprite: FB[py][px] <- FB[py][px] XOR 1 at each of its 1 bits, every read from before the step
(R127, R151). -/
def State.xorWrites (s : State) (ps : List (Fin 64 × Fin 32)) : List Write :=
  ps.map (fun p => .pixel p.1 p.2 (!s.pixel p.1 p.2))

end Sys2Proof.Machine
end

