-- ==== Sys2Proof/Machine/Alu.lean ====
section
/-! DEFINITION. The register and arithmetic instructions LBR, ABR, LRR, OR, AND, XOR, ADD, SUB, SHR, SUBN, SHL and RND (R200 to R212).
Each instruction has its rule as an Effect (its pseudocode, read from the state before the step) and its meaning, the rule run to
the end of the step on this hardware. The engine's next-PC check is in `complete` (R125, R130). -/

namespace Sys2Proof.Machine

/-- LBR(x, kk): Vx <- kk (R201). -/
def lbrEffect (x : RegIdx) (kk : Byte) (s : State) : Effect :=
  .done [.v x kk] s.nextPc

/-- The meaning of LBR (R201). -/
def execLbr (x : RegIdx) (kk : Byte) (s : State) : Result := complete Config.hardware s (lbrEffect x kk s)

/-- ABR(x, kk): Vx <- Vx + kk mod 256, no flag (R202). -/
def abrEffect (x : RegIdx) (kk : Byte) (s : State) : Effect :=
  .done [.v x (s.getV x + kk)] s.nextPc

/-- The meaning of ABR (R202). -/
def execAbr (x : RegIdx) (kk : Byte) (s : State) : Result := complete Config.hardware s (abrEffect x kk s)

/-- LRR(x, y): Vx <- Vy (R203). -/
def lrrEffect (x y : RegIdx) (s : State) : Effect :=
  .done [.v x (s.getV y)] s.nextPc

/-- The meaning of LRR (R203). -/
def execLrr (x y : RegIdx) (s : State) : Result := complete Config.hardware s (lrrEffect x y s)

/-- OR(x, y): bitwise or (R204). -/
def orEffect (x y : RegIdx) (s : State) : Effect :=
  .done [.v x (s.getV x ||| s.getV y)] s.nextPc

/-- The meaning of OR (R204). -/
def execOr (x y : RegIdx) (s : State) : Result := complete Config.hardware s (orEffect x y s)

/-- AND(x, y): bitwise and (R205). -/
def andEffect (x y : RegIdx) (s : State) : Effect :=
  .done [.v x (s.getV x &&& s.getV y)] s.nextPc

/-- The meaning of AND (R205). -/
def execAnd (x y : RegIdx) (s : State) : Result := complete Config.hardware s (andEffect x y s)

/-- XOR(x, y): bitwise exclusive or (R206). -/
def xorEffect (x y : RegIdx) (s : State) : Effect :=
  .done [.v x (s.getV x ^^^ s.getV y)] s.nextPc

/-- The meaning of XOR (R206). -/
def execXor (x y : RegIdx) (s : State) : Result := complete Config.hardware s (xorEffect x y s)

/-- ADD(x, y): the sum mod 256, then VF <- carry (R207). -/
def addEffect (x y : RegIdx) (s : State) : Effect :=
  .done [.v x (s.getV x + s.getV y), .v vf (carryFlag (s.getV x) (s.getV y))] s.nextPc

/-- The meaning of ADD (R207). -/
def execAdd (x y : RegIdx) (s : State) : Result := complete Config.hardware s (addEffect x y s)

/-- SUB(x, y): Vx - Vy mod 256, then VF <- not-borrow (R208). -/
def subEffect (x y : RegIdx) (s : State) : Effect :=
  .done [.v x (s.getV x - s.getV y), .v vf (notBorrowFlag (s.getV x) (s.getV y))] s.nextPc

/-- The meaning of SUB (R208). -/
def execSub (x y : RegIdx) (s : State) : Result := complete Config.hardware s (subEffect x y s)

/-- SHR(x): logical shift right, then VF <- the bit shifted out (R209). -/
def shrEffect (x : RegIdx) (s : State) : Effect :=
  .done [.v x (s.getV x >>> 1), .v vf (shiftedOutLow (s.getV x))] s.nextPc

/-- The meaning of SHR (R209). -/
def execShr (x : RegIdx) (s : State) : Result := complete Config.hardware s (shrEffect x s)

/-- SUBN(x, y): Vy - Vx mod 256 written to Vy, then VF <- not-borrow (R210). -/
def subnEffect (x y : RegIdx) (s : State) : Effect :=
  .done [.v y (s.getV y - s.getV x), .v vf (notBorrowFlag (s.getV y) (s.getV x))] s.nextPc

/-- The meaning of SUBN (R210). -/
def execSubn (x y : RegIdx) (s : State) : Result := complete Config.hardware s (subnEffect x y s)

/-- SHL(x): shift left, then VF <- the bit shifted out (R211). -/
def shlEffect (x : RegIdx) (s : State) : Effect :=
  .done [.v x (s.getV x <<< 1), .v vf (shiftedOutHigh (s.getV x))] s.nextPc

/-- The meaning of SHL (R211). -/
def execShl (x : RegIdx) (s : State) : Result := complete Config.hardware s (shlEffect x s)

/-- RND(x, kk): one RND_IN byte masked by kk (R212, R129). DESIGN CHOICE: the draw is one of the staged writes, so an RND that
draws and then fails the next-PC check (at 0xFFE) leaves the draw count as it was, and the next RND draws under the same
index; R129 says only that such a draw "has no effect" (log entry 17). -/
def rndEffect (x : RegIdx) (kk : Byte) (s : State) : Effect :=
  .done [.v x (Config.rndIn s.draws &&& kk), .draw] s.nextPc

/-- The meaning of RND (R212, R129). -/
def execRnd (x : RegIdx) (kk : Byte) (s : State) : Result := complete Config.hardware s (rndEffect x kk s)

end Sys2Proof.Machine
end

