-- ==== Sys2Proof/Machine/Control.lean ====
section
/-! DEFINITION. The control-flow instructions RET, JMP, CALL, SEQB, SNEQB, SRER, SNE and JPV0 (R170 to R178).
Each instruction has its rule as an Effect (its pseudocode, read from the state before the step) and its meaning, the rule run to
the end of the step on this hardware. The engine's next-PC check is in `complete` (R125, R130). -/

namespace Sys2Proof.Machine

/-- RET: resume after the CALL whose address is on top of the stack; the entry keeps its value (R29, R171). -/
def retEffect (s : State) : Effect :=
  if s.sp = 0#5 then .raise .stackUnderflow
  else
    match s.stackAt (s.sp.toNat - 1) with
    | some a => .done [.sp (s.sp - 1#5)] (a.toNat + 2)
    | none => .stuck .stackPointerIllegal

/-- The meaning of RET (R171). -/
def execRet (s : State) : Result := complete Config.hardware s (retEffect s)

/-- JMP(nnn) (R172). -/
def jmpEffect (nnn : Addr) : Effect := .done [] nnn.toNat

/-- The meaning of JMP (R172). -/
def execJmp (nnn : Addr) (s : State) : Result := complete Config.hardware s (jmpEffect nnn)

/-- CALL(nnn): push the CALL's own address (R173). -/
def callEffect (nnn : Addr) (s : State) : Effect :=
  if s.sp = 16#5 then .raise .stackOverflow
  else
    match s.stackAt s.sp.toNat with
    | some _ => .done [.stack s.sp.toNat s.pc, .sp (s.sp + 1#5)] nnn.toNat
    | none => .stuck .stackPointerIllegal

/-- The meaning of CALL (R173). -/
def execCall (nnn : Addr) (s : State) : Result := complete Config.hardware s (callEffect nnn s)

/-- SEQB(x, kk): skip if Vx = kk (R174). -/
def seqbEffect (x : RegIdx) (kk : Byte) (s : State) : Effect := .done [] (s.skipPc (decide (s.getV x = kk)))

/-- The meaning of SEQB (R174). -/
def execSeqb (x : RegIdx) (kk : Byte) (s : State) : Result := complete Config.hardware s (seqbEffect x kk s)

/-- SNEQB(x, kk): skip if Vx ≠ kk (R175). -/
def sneqbEffect (x : RegIdx) (kk : Byte) (s : State) : Effect := .done [] (s.skipPc (decide (s.getV x ≠ kk)))

/-- The meaning of SNEQB (R175). -/
def execSneqb (x : RegIdx) (kk : Byte) (s : State) : Result := complete Config.hardware s (sneqbEffect x kk s)

/-- SRER(x, y): skip if Vx = Vy (R176). -/
def srerEffect (x y : RegIdx) (s : State) : Effect := .done [] (s.skipPc (decide (s.getV x = s.getV y)))

/-- The meaning of SRER (R176). -/
def execSrer (x y : RegIdx) (s : State) : Result := complete Config.hardware s (srerEffect x y s)

/-- SNE(x, y): skip if Vx ≠ Vy (R177). -/
def sneEffect (x y : RegIdx) (s : State) : Effect := .done [] (s.skipPc (decide (s.getV x ≠ s.getV y)))

/-- The meaning of SNE (R177). -/
def execSne (x y : RegIdx) (s : State) : Result := complete Config.hardware s (sneEffect x y s)

/-- JPV0(nnn): nnn + V0 at full width, no wrap (R178). -/
def jpv0Effect (nnn : Addr) (s : State) : Effect := .done [] (nnn.toNat + (s.getV 0#4).toNat)

/-- The meaning of JPV0 (R178). -/
def execJpv0 (nnn : Addr) (s : State) : Result := complete Config.hardware s (jpv0Effect nnn s)

end Sys2Proof.Machine
end

