-- ==== Sys2Proof/Machine/Display.lean ====
section
/-! DEFINITION. The display instructions CLS and DRW (R150 to R153).
Each instruction has its rule as an Effect (its pseudocode, read from the state before the step) and its meaning, the rule run to
the end of the step on this hardware. The engine's next-PC check is in `complete` (R125, R130). -/

namespace Sys2Proof.Machine

/-- CLS: every pixel off; VF unchanged (R150). -/
def clsEffect (s : State) : Effect := .done [.clear] s.nextPc

/-- The meaning of CLS (R150). -/
def execCls (s : State) : Result := complete Config.hardware s (clsEffect s)

/-- DRW(x, y, n): XOR n rows of 8 pixels from MEM[I] on at column Vx, row Vy, with wrap; VF is the collision flag, staged last.
With n = 0 nothing is read or drawn and VF <- 0 (R151, R152; C5). -/
def drwEffect (c : Config) (x y : RegIdx) (n : BitVec 4) (s : State) : Effect :=
  match s.loadBytes c s.i.toNat n.toNat with
  | .error e => .raise e
  | .ok rows =>
    let ps := spritePixels (s.getV x) (s.getV y) 0 rows
    .done (s.xorWrites ps ++ [.v vf (s.collisionFlag ps)]) s.nextPc

/-- The meaning of DRW (R151). -/
def execDrw (x y : RegIdx) (n : BitVec 4) (s : State) : Result := complete Config.hardware s (drwEffect Config.hardware x y n s)

end Sys2Proof.Machine
end

