-- ==== Sys2Proof/Machine/Index.lean ====
section
/-! DEFINITION. The address-register and memory instructions LDI, ADDI, LDS, BCD, SR and LR (R240 to R245).
Each instruction has its rule as an Effect (its pseudocode, read from the state before the step) and its meaning, the rule run to
the end of the step on this hardware. The engine's next-PC check is in `complete` (R125, R130). -/

namespace Sys2Proof.Machine

/-- LDI(nnn): I <- nnn zero-extended (R240). -/
def ldiEffect (nnn : Addr) (s : State) : Effect := .done [.i (nnn.setWidth 16)] s.nextPc

/-- The meaning of LDI (R240). -/
def execLdi (nnn : Addr) (s : State) : Result := complete Config.hardware s (ldiEffect nnn s)

/-- ADDI(x): I <- I + Vx; only a sum that does not fit the 16 bits of I raises (R241). -/
def addiEffect (x : RegIdx) (s : State) : Effect :=
  if s.i.toNat + (s.getV x).toNat > 0xFFFF then .raise .addressOutOfRange
  else .done [.i (BitVec.ofNat 16 (s.i.toNat + (s.getV x).toNat))] s.nextPc

/-- The meaning of ADDI (R241). -/
def execAddi (x : RegIdx) (s : State) : Result := complete Config.hardware s (addiEffect x s)

/-- LDS(x): I <- Vx × 5 (R242). -/
def ldsEffect (c : Config) (x : RegIdx) (s : State) : Effect :=
  match glyphAddress c.ldsCheck (s.getV x) with
  | .error e => .raise e
  | .ok a => .done [.i a] s.nextPc

/-- The meaning of LDS (R242). -/
def execLds (x : RegIdx) (s : State) : Result := complete Config.hardware s (ldsEffect Config.hardware x s)

/-- BCD(x): the three decimal digits of Vx to MEM[I], MEM[I+1], MEM[I+2]; I is not changed (R243). -/
def bcdEffect (x : RegIdx) (s : State) : Effect :=
  match storeBytes s.i.toNat (decimalDigits (s.getV x)) with
  | .error e => .raise e
  | .ok ws => .done ws s.nextPc

/-- The meaning of BCD (R243). -/
def execBcd (x : RegIdx) (s : State) : Result := complete Config.hardware s (bcdEffect x s)

/-- SR(x): V0 to Vx to MEM[I] on, then I <- I + x + 1 (R244). -/
def srEffect (x : RegIdx) (s : State) : Effect :=
  match storeBytes s.i.toNat ((regsUpTo x).map s.getV) with
  | .error e => .raise e
  | .ok ws => .done (ws ++ [.i (BitVec.ofNat 16 (s.i.toNat + x.toNat + 1))]) s.nextPc

/-- The meaning of SR (R244). -/
def execSr (x : RegIdx) (s : State) : Result := complete Config.hardware s (srEffect x s)

/-- LR(x): V0 to Vx from MEM[I] on, then I <- I + x + 1 (R245). -/
def lrEffect (c : Config) (x : RegIdx) (s : State) : Effect :=
  match s.loadBytes c s.i.toNat (x.toNat + 1) with
  | .error e => .raise e
  | .ok us => .done (regWrites (regsUpTo x) us ++ [.i (BitVec.ofNat 16 (s.i.toNat + x.toNat + 1))]) s.nextPc

/-- The meaning of LR (R245). -/
def execLr (x : RegIdx) (s : State) : Result := complete Config.hardware s (lrEffect Config.hardware x s)

end Sys2Proof.Machine
end

