-- ==== Sys2Proof/Machine/Keys.lean ====
section
/-! DEFINITION. The keypad and timer instructions SKP, SKNP, LDK, LDDV, LDVD and LDST (R270 to R275).
Each instruction has its rule as an Effect (its pseudocode, read from the state before the step) and its meaning, the rule run to
the end of the step on this hardware. The engine's next-PC check is in `complete` (R125, R130). -/

namespace Sys2Proof.Machine

/-- SKP(x): skip if the key Vx names is pressed (R270). -/
def skpEffect (c : Config) (x : RegIdx) (s : State) : Effect :=
  match keyIndex c.keyIndex (s.getV x) with
  | .error e => .raise e
  | .ok k => .done [] (s.skipPc (s.keyDown k))

/-- The meaning of SKP (R270). -/
def execSkp (x : RegIdx) (s : State) : Result := complete Config.hardware s (skpEffect Config.hardware x s)

/-- SKNP(x): skip if the key Vx names is not pressed (R271). -/
def sknpEffect (c : Config) (x : RegIdx) (s : State) : Effect :=
  match keyIndex c.keyIndex (s.getV x) with
  | .error e => .raise e
  | .ok k => .done [] (s.skipPc (!s.keyDown k))

/-- The meaning of SKNP (R271). -/
def execSknp (x : RegIdx) (s : State) : Result := complete Config.hardware s (sknpEffect Config.hardware x s)

/-- LDK(x): the lowest pressed key to Vx, or, with none pressed, enter AwaitingKeypress with the PC unmoved (R272). -/
def ldkEffect (x : RegIdx) (s : State) : Effect :=
  match s.lowestKey with
  | some k => .done [.v x (k.setWidth 8)] s.nextPc
  | none => .done [.waiting true, .waitX x] s.pc.toNat

/-- The meaning of LDK (R272). -/
def execLdk (x : RegIdx) (s : State) : Result := complete Config.hardware s (ldkEffect x s)

/-- LDDV(x): Vx <- DT (R273). -/
def lddvEffect (x : RegIdx) (s : State) : Effect := .done [.v x s.dt] s.nextPc

/-- The meaning of LDDV (R273). -/
def execLddv (x : RegIdx) (s : State) : Result := complete Config.hardware s (lddvEffect x s)

/-- LDVD(x): DT <- Vx (R274). -/
def ldvdEffect (x : RegIdx) (s : State) : Effect := .done [.dt (s.getV x)] s.nextPc

/-- The meaning of LDVD (R274). -/
def execLdvd (x : RegIdx) (s : State) : Result := complete Config.hardware s (ldvdEffect x s)

/-- LDST(x): ST <- Vx; BEEP is not written (R44, R275). -/
def ldstEffect (x : RegIdx) (s : State) : Effect := .done [.st (s.getV x)] s.nextPc

/-- The meaning of LDST (R275). -/
def execLdst (x : RegIdx) (s : State) : Result := complete Config.hardware s (ldstEffect x s)

end Sys2Proof.Machine
end

