-- ==== Sys2Proof/Syntax.lean ====
section
/-! DEFINITION. The instruction set: one constructor for each of the 34 rows of spec/opcode_table.json (R2, R12, R95).
Each operand has the width of the field it comes from (R91), so that a term can hold no operand that no word encodes. -/

namespace Sys2Proof

/-- The 34 instructions, in the order of the opcode map (R95). A field that a row marks `?` is no operand (R95, R97, R100). -/
inductive Instr where
  /-- CLS: clear the screen (R150). -/
  | cls
  /-- RET: return from subroutine (R171). -/
  | ret
  /-- JMP(nnn): jump (R172). -/
  | jmp (nnn : Addr)
  /-- CALL(nnn): call subroutine (R173). -/
  | call (nnn : Addr)
  /-- SEQB(x, kk): skip if Vx = kk (R174). -/
  | seqb (x : RegIdx) (kk : Byte)
  /-- SNEQB(x, kk): skip if Vx ≠ kk (R175). -/
  | sneqb (x : RegIdx) (kk : Byte)
  /-- SRER(x, y): skip if Vx = Vy (R176). -/
  | srer (x y : RegIdx)
  /-- LBR(x, kk): load byte into register (R201). -/
  | lbr (x : RegIdx) (kk : Byte)
  /-- ABR(x, kk): add byte to register (R202). -/
  | abr (x : RegIdx) (kk : Byte)
  /-- LRR(x, y): copy register (R203). -/
  | lrr (x y : RegIdx)
  /-- OR(x, y): bitwise or (R204). -/
  | or (x y : RegIdx)
  /-- AND(x, y): bitwise and (R205). -/
  | and (x y : RegIdx)
  /-- XOR(x, y): bitwise exclusive or (R206). -/
  | xor (x y : RegIdx)
  /-- ADD(x, y): add registers with carry (R207). -/
  | add (x y : RegIdx)
  /-- SUB(x, y): subtract Vy from Vx (R208). -/
  | sub (x y : RegIdx)
  /-- SHR(x): shift right by one; the y nibble is ignored (R209). -/
  | shr (x : RegIdx)
  /-- SUBN(x, y): subtract Vx from Vy, writing Vy (R210). -/
  | subn (x y : RegIdx)
  /-- SHL(x): shift left by one; the y nibble is ignored (R211). -/
  | shl (x : RegIdx)
  /-- SNE(x, y): skip if Vx ≠ Vy (R177). -/
  | sne (x y : RegIdx)
  /-- LDI(nnn): load the address register (R240). -/
  | ldi (nnn : Addr)
  /-- JPV0(nnn): jump to nnn plus V0 (R178). -/
  | jpv0 (nnn : Addr)
  /-- RND(x, kk): random byte masked (R212). -/
  | rnd (x : RegIdx) (kk : Byte)
  /-- DRW(x, y, n): draw n sprite rows at column Vx, row Vy (R151). -/
  | drw (x y : RegIdx) (n : BitVec 4)
  /-- SKP(x): skip if key Vx is pressed (R270). -/
  | skp (x : RegIdx)
  /-- SKNP(x): skip if key Vx is not pressed (R271). -/
  | sknp (x : RegIdx)
  /-- LDDV(x): read the delay timer (R273). -/
  | lddv (x : RegIdx)
  /-- LDK(x): wait for a key press and store its index (R272). -/
  | ldk (x : RegIdx)
  /-- LDVD(x): set the delay timer (R274). -/
  | ldvd (x : RegIdx)
  /-- LDST(x): set the sound timer (R275). -/
  | ldst (x : RegIdx)
  /-- ADDI(x): add register to the address register (R241). -/
  | addi (x : RegIdx)
  /-- LDS(x): point I at a font glyph (R242). -/
  | lds (x : RegIdx)
  /-- BCD(x): store decimal digits (R243). -/
  | bcd (x : RegIdx)
  /-- SR(x): store registers V0 to Vx (R244). -/
  | sr (x : RegIdx)
  /-- LR(x): load registers V0 to Vx (R245). -/
  | lr (x : RegIdx)
  deriving DecidableEq, Repr

end Sys2Proof
end

