-- ==== Sys2Proof/Machine/Dispatch.lean ====
section
/-! DEFINITION. One instruction, executed: one arm for each constructor of Instr, in the order of the opcode map (R95). -/

namespace Sys2Proof.Machine

def exec (i : Instr) (s : State) : Host.Outcome State Fault Refusal :=
  match i with
  | .cls => Sys2Proof.Machine.execCls s
  | .ret => Sys2Proof.Machine.execRet s
  | .jmp nnn => Sys2Proof.Machine.execJmp nnn s
  | .call nnn => Sys2Proof.Machine.execCall nnn s
  | .seqb x kk => Sys2Proof.Machine.execSeqb x kk s
  | .sneqb x kk => Sys2Proof.Machine.execSneqb x kk s
  | .srer x y => Sys2Proof.Machine.execSrer x y s
  | .lbr x kk => Sys2Proof.Machine.execLbr x kk s
  | .abr x kk => Sys2Proof.Machine.execAbr x kk s
  | .lrr x y => Sys2Proof.Machine.execLrr x y s
  | .or x y => Sys2Proof.Machine.execOr x y s
  | .and x y => Sys2Proof.Machine.execAnd x y s
  | .xor x y => Sys2Proof.Machine.execXor x y s
  | .add x y => Sys2Proof.Machine.execAdd x y s
  | .sub x y => Sys2Proof.Machine.execSub x y s
  | .shr x => Sys2Proof.Machine.execShr x s
  | .subn x y => Sys2Proof.Machine.execSubn x y s
  | .shl x => Sys2Proof.Machine.execShl x s
  | .sne x y => Sys2Proof.Machine.execSne x y s
  | .ldi nnn => Sys2Proof.Machine.execLdi nnn s
  | .jpv0 nnn => Sys2Proof.Machine.execJpv0 nnn s
  | .rnd x kk => Sys2Proof.Machine.execRnd x kk s
  | .drw x y n => Sys2Proof.Machine.execDrw x y n s
  | .skp x => Sys2Proof.Machine.execSkp x s
  | .sknp x => Sys2Proof.Machine.execSknp x s
  | .lddv x => Sys2Proof.Machine.execLddv x s
  | .ldk x => Sys2Proof.Machine.execLdk x s
  | .ldvd x => Sys2Proof.Machine.execLdvd x s
  | .ldst x => Sys2Proof.Machine.execLdst x s
  | .addi x => Sys2Proof.Machine.execAddi x s
  | .lds x => Sys2Proof.Machine.execLds x s
  | .bcd x => Sys2Proof.Machine.execBcd x s
  | .sr x => Sys2Proof.Machine.execSr x s
  | .lr x => Sys2Proof.Machine.execLr x s

end Sys2Proof.Machine
end

