-- ==== Sys2Proof/WellFormed.lean ====
section
/-! DEFINITION. Operand ranges of R92, as checks on the numbers a listing writes (R105). Instr's operand types already have the
fields' widths, so every Instr passes (Sys2Proof/Laws/WellFormed.lean); the checks are what a number must meet to BE an operand. -/

namespace Sys2Proof

/-- A register index is in [0, 15] (R92). -/
def regInRange (k : Nat) : Bool := k < 16

/-- An immediate kk is an 8-bit number (R92). -/
def byteInRange (k : Nat) : Bool := k < 256

/-- A row count n is in [0, 15] (R92). -/
def countInRange (k : Nat) : Bool := k < 16

/-- An address nnn is in [0x000, 0xFFF] (R92). -/
def addrInRange (k : Nat) : Bool := k < 4096

/-- Every operand of an instruction is in its field's range (R92). -/
def wellFormed : Instr → Bool
  | .cls | .ret => true
  | .jmp nnn | .call nnn | .ldi nnn | .jpv0 nnn => addrInRange nnn.toNat
  | .seqb x kk | .sneqb x kk | .lbr x kk | .abr x kk | .rnd x kk =>
    regInRange x.toNat && byteInRange kk.toNat
  | .srer x y | .lrr x y | .or x y | .and x y | .xor x y | .add x y | .sub x y | .subn x y
  | .sne x y => regInRange x.toNat && regInRange y.toNat
  | .drw x y n => regInRange x.toNat && regInRange y.toNat && countInRange n.toNat
  | .shr x | .shl x | .skp x | .sknp x | .lddv x | .ldk x | .ldvd x | .ldst x | .addi x | .lds x
  | .bcd x | .sr x | .lr x => regInRange x.toNat

end Sys2Proof
end

