-- ==== Sys2Proof/Decode.lean ====
section
/-! DEFINITION. The decoder of R93 to R102 (total, rejecting by name), the opcode map of R95 as rows, and the encoder of R107. -/

namespace Sys2Proof

/-- Why the decoder rejects: every one is the machine's DecodeFailure (R102), except `truncated`, which only `decodeBytes`
answers, on fewer than the two bytes every instruction has (R90). -/
inductive DecodeReject where
  /-- Family 0x0 with a kk that is neither 0xE0 nor 0xEE (R96). -/
  | family0 (kk : Byte)
  /-- Family 0x8 with n in 8 to D, or F (R97). -/
  | family8 (n : BitVec 4)
  /-- Family 0xE with a kk that is neither 0x9E nor 0xA1 (R98). -/
  | familyE (kk : Byte)
  /-- Family 0xF with a kk outside R99's nine. -/
  | familyF (kk : Byte)
  /-- Under STRICT_DECODE only: a nibble that must be 0 is not (R101). -/
  | strictNibble (k : BitVec 4)
  /-- Fewer than two bytes (R90). -/
  | truncated
  deriving DecidableEq, Repr

/-! ## Fields (R91) -/

/-- op[15:12]. -/
def family (op : Opcode) : BitVec 4 := op.extractLsb' 12 4
/-- op[11:8]. -/
def fieldX (op : Opcode) : RegIdx := op.extractLsb' 8 4
/-- op[7:4]. -/
def fieldY (op : Opcode) : RegIdx := op.extractLsb' 4 4
/-- op[3:0]. -/
def fieldN (op : Opcode) : BitVec 4 := op.extractLsb' 0 4
/-- op[7:0]. -/
def fieldKK (op : Opcode) : Byte := op.extractLsb' 0 8
/-- op[11:0]. -/
def fieldNNN (op : Opcode) : Addr := op.extractLsb' 0 12

/-! ## Decoding (R93) -/

/-- An instruction of a row that STRICT_DECODE narrows: under it the nibble `k` must be 0 (R101). -/
def zeroNibble (strict : Bool) (k : BitVec 4) (i : Instr) : Except DecodeReject Instr :=
  if strict && k != 0#4 then .error (.strictNibble k) else .ok i

/-- Family 0x0 dispatches on kk alone; the x nibble is examined only under STRICT_DECODE (R94, R96, R101). -/
def decode0 (strict : Bool) (op : Opcode) : Except DecodeReject Instr :=
  match fieldKK op with
  | 0xE0#8 => zeroNibble strict (fieldX op) .cls
  | 0xEE#8 => zeroNibble strict (fieldX op) .ret
  | kk => .error (.family0 kk)

/-- Family 0x8 dispatches on n (R97). -/
def decode8 (op : Opcode) : Except DecodeReject Instr :=
  match fieldN op with
  | 0x0#4 => .ok (.lrr (fieldX op) (fieldY op))
  | 0x1#4 => .ok (.or (fieldX op) (fieldY op))
  | 0x2#4 => .ok (.and (fieldX op) (fieldY op))
  | 0x3#4 => .ok (.xor (fieldX op) (fieldY op))
  | 0x4#4 => .ok (.add (fieldX op) (fieldY op))
  | 0x5#4 => .ok (.sub (fieldX op) (fieldY op))
  | 0x6#4 => .ok (.shr (fieldX op))
  | 0x7#4 => .ok (.subn (fieldX op) (fieldY op))
  | 0xE#4 => .ok (.shl (fieldX op))
  | n => .error (.family8 n)

/-- Family 0xE dispatches on kk (R98). -/
def decodeE (op : Opcode) : Except DecodeReject Instr :=
  match fieldKK op with
  | 0x9E#8 => .ok (.skp (fieldX op))
  | 0xA1#8 => .ok (.sknp (fieldX op))
  | kk => .error (.familyE kk)

/-- Family 0xF dispatches on kk (R99). -/
def decodeF (op : Opcode) : Except DecodeReject Instr :=
  match fieldKK op with
  | 0x07#8 => .ok (.lddv (fieldX op))
  | 0x0A#8 => .ok (.ldk (fieldX op))
  | 0x15#8 => .ok (.ldvd (fieldX op))
  | 0x18#8 => .ok (.ldst (fieldX op))
  | 0x1E#8 => .ok (.addi (fieldX op))
  | 0x29#8 => .ok (.lds (fieldX op))
  | 0x33#8 => .ok (.bcd (fieldX op))
  | 0x55#8 => .ok (.sr (fieldX op))
  | 0x65#8 => .ok (.lr (fieldX op))
  | kk => .error (.familyF kk)

/-- The decoder of R93, with STRICT_DECODE as its argument (R101): the family first, then the one subcode field of families
0x0, 0x8, 0xE and 0xF (R94); the other twelve families decode on the family alone (R100). -/
def decodeUnder (strict : Bool) (op : Opcode) : Except DecodeReject Instr :=
  match family op with
  | 0x0#4 => decode0 strict op
  | 0x1#4 => .ok (.jmp (fieldNNN op))
  | 0x2#4 => .ok (.call (fieldNNN op))
  | 0x3#4 => .ok (.seqb (fieldX op) (fieldKK op))
  | 0x4#4 => .ok (.sneqb (fieldX op) (fieldKK op))
  | 0x5#4 => zeroNibble strict (fieldN op) (.srer (fieldX op) (fieldY op))
  | 0x6#4 => .ok (.lbr (fieldX op) (fieldKK op))
  | 0x7#4 => .ok (.abr (fieldX op) (fieldKK op))
  | 0x8#4 => decode8 op
  | 0x9#4 => zeroNibble strict (fieldN op) (.sne (fieldX op) (fieldY op))
  | 0xA#4 => .ok (.ldi (fieldNNN op))
  | 0xB#4 => .ok (.jpv0 (fieldNNN op))
  | 0xC#4 => .ok (.rnd (fieldX op) (fieldKK op))
  | 0xD#4 => .ok (.drw (fieldX op) (fieldY op) (fieldN op))
  | 0xE#4 => decodeE op
  | _ => decodeF op    -- 0xF, the one family left

/-- The decoder of this hardware. -/
def decode (op : Opcode) : Except DecodeReject Instr := decodeUnder Config.hardware.strictDecode op

/-- The 16-bit word of two bytes, the byte at the lower address in the high half (R10, R61). -/
def wordOfBytes (hi lo : Byte) : Opcode := hi ++ lo

/-- The high byte of a word, stored at the lower address (R61). -/
def highByte (op : Opcode) : Byte := op.extractLsb' 8 8
/-- The low byte of a word, stored at the higher address (R61). -/
def lowByte (op : Opcode) : Byte := op.extractLsb' 0 8

/-- The decoder on a stream of bytes: the first instruction and the rest (R61, R90). -/
def decodeBytes : List Byte → Except DecodeReject (Instr × List Byte)
  | hi :: lo :: rest =>
    match decode (wordOfBytes hi lo) with
    | .ok i => .ok (i, rest)
    | .error r => .error r
  | _ => .error .truncated

/-- The instruction of the `nbits` bits `w`, numbered as spec/opcode_table.json numbers them (bit 0 the least significant of
the one word, R7), the bits above `nbits` zero. -/
def tableWord (nbits w : Nat) : Opcode := BitVec.ofNat 16 (w % 2 ^ nbits)

/-- The host's question: what the decoder reads from a table row's word, laid out in memory order (R61; log entry 15). -/
def decodeTableWord (nbits w : Nat) : Option Instr :=
  match decodeBytes [highByte (tableWord nbits w), lowByte (tableWord nbits w)] with
  | .ok (i, _) => some i
  | .error _ => none

/-! ## The opcode map (R95) -/

/-- A row of R95: a word `op` decodes to the row when `op &&& mask = pattern`; the strict pair is R101's. -/
structure OpcodeRow where
  mnemonic      : String
  pattern       : Opcode
  mask          : Opcode
  strictMask    : Opcode := mask
  deriving DecidableEq, Repr

/-- A row's mask under STRICT_DECODE (R101): `true` takes the narrower one. -/
def OpcodeRow.maskUnder (r : OpcodeRow) (strict : Bool) : Opcode := if strict then r.strictMask else r.mask

/-- A word matches a row (R95). -/
def OpcodeRow.hits (r : OpcodeRow) (strict : Bool) (op : Opcode) : Bool := op &&& r.maskUnder strict == r.pattern

/-- The row of R95 an instruction belongs to. -/
def rowOf : Instr → OpcodeRow
  | .cls => ⟨"CLS", 0x00E0, 0xF0FF, 0xFFFF⟩
  | .ret => ⟨"RET", 0x00EE, 0xF0FF, 0xFFFF⟩
  | .jmp _ => ⟨"JMP", 0x1000, 0xF000, 0xF000⟩
  | .call _ => ⟨"CALL", 0x2000, 0xF000, 0xF000⟩
  | .seqb _ _ => ⟨"SEQB", 0x3000, 0xF000, 0xF000⟩
  | .sneqb _ _ => ⟨"SNEQB", 0x4000, 0xF000, 0xF000⟩
  | .srer _ _ => ⟨"SRER", 0x5000, 0xF000, 0xF00F⟩
  | .lbr _ _ => ⟨"LBR", 0x6000, 0xF000, 0xF000⟩
  | .abr _ _ => ⟨"ABR", 0x7000, 0xF000, 0xF000⟩
  | .lrr _ _ => ⟨"LRR", 0x8000, 0xF00F, 0xF00F⟩
  | .or _ _ => ⟨"OR", 0x8001, 0xF00F, 0xF00F⟩
  | .and _ _ => ⟨"AND", 0x8002, 0xF00F, 0xF00F⟩
  | .xor _ _ => ⟨"XOR", 0x8003, 0xF00F, 0xF00F⟩
  | .add _ _ => ⟨"ADD", 0x8004, 0xF00F, 0xF00F⟩
  | .sub _ _ => ⟨"SUB", 0x8005, 0xF00F, 0xF00F⟩
  | .shr _ => ⟨"SHR", 0x8006, 0xF00F, 0xF00F⟩
  | .subn _ _ => ⟨"SUBN", 0x8007, 0xF00F, 0xF00F⟩
  | .shl _ => ⟨"SHL", 0x800E, 0xF00F, 0xF00F⟩
  | .sne _ _ => ⟨"SNE", 0x9000, 0xF000, 0xF00F⟩
  | .ldi _ => ⟨"LDI", 0xA000, 0xF000, 0xF000⟩
  | .jpv0 _ => ⟨"JPV0", 0xB000, 0xF000, 0xF000⟩
  | .rnd _ _ => ⟨"RND", 0xC000, 0xF000, 0xF000⟩
  | .drw _ _ _ => ⟨"DRW", 0xD000, 0xF000, 0xF000⟩
  | .skp _ => ⟨"SKP", 0xE09E, 0xF0FF, 0xF0FF⟩
  | .sknp _ => ⟨"SKNP", 0xE0A1, 0xF0FF, 0xF0FF⟩
  | .lddv _ => ⟨"LDDV", 0xF007, 0xF0FF, 0xF0FF⟩
  | .ldk _ => ⟨"LDK", 0xF00A, 0xF0FF, 0xF0FF⟩
  | .ldvd _ => ⟨"LDVD", 0xF015, 0xF0FF, 0xF0FF⟩
  | .ldst _ => ⟨"LDST", 0xF018, 0xF0FF, 0xF0FF⟩
  | .addi _ => ⟨"ADDI", 0xF01E, 0xF0FF, 0xF0FF⟩
  | .lds _ => ⟨"LDS", 0xF029, 0xF0FF, 0xF0FF⟩
  | .bcd _ => ⟨"BCD", 0xF033, 0xF0FF, 0xF0FF⟩
  | .sr _ => ⟨"SR", 0xF055, 0xF0FF, 0xF0FF⟩
  | .lr _ => ⟨"LR", 0xF065, 0xF0FF, 0xF0FF⟩

/-- The instruction's row marks a nibble `?` in R95's pattern: 0?E0, 0?EE, 5xy?, 8x?6, 8x?E and 9xy?. -/
def ignoresNibble : Instr → Bool
  | .cls | .ret | .srer _ _ | .shr _ | .shl _ | .sne _ _ => true
  | .jmp _ | .call _ | .seqb _ _ | .sneqb _ _ | .lbr _ _ | .abr _ _ | .lrr _ _ | .or _ _ | .and _ _ | .xor _ _ | .add _ _
  | .sub _ _ | .subn _ _ | .ldi _ | .jpv0 _ | .rnd _ _ | .drw _ _ _ | .skp _ | .sknp _ | .lddv _ | .ldk _ | .ldvd _ | .ldst _
  | .addi _ | .lds _ | .bcd _ | .sr _ | .lr _ => false

/-- One instruction of each row, its operands 0, in the order of R95. -/
def rowRepresentatives : List Instr :=
  [.cls, .ret, .jmp 0#12, .call 0#12, .seqb 0#4 0#8, .sneqb 0#4 0#8, .srer 0#4 0#4, .lbr 0#4 0#8, .abr 0#4 0#8,
   .lrr 0#4 0#4, .or 0#4 0#4, .and 0#4 0#4, .xor 0#4 0#4, .add 0#4 0#4, .sub 0#4 0#4, .shr 0#4, .subn 0#4 0#4,
   .shl 0#4, .sne 0#4 0#4, .ldi 0#12, .jpv0 0#12, .rnd 0#4 0#8, .drw 0#4 0#4 0#4, .skp 0#4, .sknp 0#4,
   .lddv 0#4, .ldk 0#4, .ldvd 0#4, .ldst 0#4, .addi 0#4, .lds 0#4, .bcd 0#4, .sr 0#4, .lr 0#4]

/-- The 34 rows of R95. -/
def opcodeTable : List OpcodeRow := rowRepresentatives.map rowOf

/-! ## Encoding (R107) -/

/-- family, x, y, n laid side by side (R91). -/
def wordXYN (f : BitVec 4) (x y : RegIdx) (n : BitVec 4) : Opcode := f ++ x ++ y ++ n
/-- family, x, kk laid side by side (R91). -/
def wordXKK (f : BitVec 4) (x : RegIdx) (kk : Byte) : Opcode := f ++ x ++ kk
/-- family, nnn laid side by side (R91). -/
def wordNNN (f : BitVec 4) (nnn : Addr) : Opcode := f ++ nnn

/-- The word of an instruction: its row's pattern with the fields placed, and 0 in every nibble the row marks `?` (R107). -/
def encode : Instr → Opcode
  | .cls => wordXKK 0x0#4 0#4 0xE0#8
  | .ret => wordXKK 0x0#4 0#4 0xEE#8
  | .jmp nnn => wordNNN 0x1#4 nnn
  | .call nnn => wordNNN 0x2#4 nnn
  | .seqb x kk => wordXKK 0x3#4 x kk
  | .sneqb x kk => wordXKK 0x4#4 x kk
  | .srer x y => wordXYN 0x5#4 x y 0x0#4
  | .lbr x kk => wordXKK 0x6#4 x kk
  | .abr x kk => wordXKK 0x7#4 x kk
  | .lrr x y => wordXYN 0x8#4 x y 0x0#4
  | .or x y => wordXYN 0x8#4 x y 0x1#4
  | .and x y => wordXYN 0x8#4 x y 0x2#4
  | .xor x y => wordXYN 0x8#4 x y 0x3#4
  | .add x y => wordXYN 0x8#4 x y 0x4#4
  | .sub x y => wordXYN 0x8#4 x y 0x5#4
  | .shr x => wordXYN 0x8#4 x 0#4 0x6#4
  | .subn x y => wordXYN 0x8#4 x y 0x7#4
  | .shl x => wordXYN 0x8#4 x 0#4 0xE#4
  | .sne x y => wordXYN 0x9#4 x y 0x0#4
  | .ldi nnn => wordNNN 0xA#4 nnn
  | .jpv0 nnn => wordNNN 0xB#4 nnn
  | .rnd x kk => wordXKK 0xC#4 x kk
  | .drw x y n => wordXYN 0xD#4 x y n
  | .skp x => wordXKK 0xE#4 x 0x9E#8
  | .sknp x => wordXKK 0xE#4 x 0xA1#8
  | .lddv x => wordXKK 0xF#4 x 0x07#8
  | .ldk x => wordXKK 0xF#4 x 0x0A#8
  | .ldvd x => wordXKK 0xF#4 x 0x15#8
  | .ldst x => wordXKK 0xF#4 x 0x18#8
  | .addi x => wordXKK 0xF#4 x 0x1E#8
  | .lds x => wordXKK 0xF#4 x 0x29#8
  | .bcd x => wordXKK 0xF#4 x 0x33#8
  | .sr x => wordXKK 0xF#4 x 0x55#8
  | .lr x => wordXKK 0xF#4 x 0x65#8

/-- The two bytes of an instruction in memory order (R61). -/
def encodeBytes (i : Instr) : List Byte := [highByte (encode i), lowByte (encode i)]

end Sys2Proof
end

