-- ==== Sys2Proof/Machine/Engine.lean ====
section
/-! DEFINITION. The fetch-decode-execute engine: the gate, the fetch, the key re-check and one step (R120 to R123). -/

namespace Sys2Proof.Machine

/-- `step()` changes nothing while HALTED, PAUSED, or with no program LOADED (R120). -/
def State.gated (s : State) : Bool := s.halted || s.paused || !s.loaded

/-- MemRead(a, 2): the big-endian word at `a`, AddressOutOfRange unless both bytes exist (R10, R61, R66). -/
def State.loadWord (c : Config) (s : State) (a : Nat) : Except Err Opcode :=
  if inRange a 2 then .ok (wordOfBytes (s.readByte c a) (s.readByte c (a + 1))) else .error .addressOutOfRange

/-- The fetch: the alignment check of ODD_PC_POLICY first, then the range check (R63, R123, R303). -/
def State.fetch (c : Config) (s : State) : Except Err Opcode :=
  if c.oddPc = .fault ∧ s.pc.getLsbD 0 = true then .error .addressOutOfRange
  else s.loadWord c s.pc.toNat

/-- The key re-check of a step taken while WAITING: with no key pressed nothing changes; else the lowest pressed key goes to
V[WAIT_X], the wait ends and PC advances by 2 (R122). -/
def keyRecheckEffect (s : State) : Effect :=
  match s.lowestKey with
  | some k => .done [.v s.waitX (k.setWidth 8), .waiting false] s.nextPc
  | none => .done [] s.pc.toNat

/-- Fetch, decode and execute one instruction (R123). -/
def fetchDecodeExecute (c : Config) (ex : Instr → State → Result) (s : State) : Result :=
  match s.fetch c with
  | .error e => complete c s (.raise e)
  | .ok op =>
    match decodeUnder c.strictDecode op with
    | .error _ => complete c s (.raise .decodeFailure)
    | .ok i => ex i s

/-- One `step()`: gated, or the key re-check, or one instruction (R120, R121). -/
def stepWith (c : Config) (ex : Instr → State → Result) (s : State) : Result :=
  if s.gated then .next s
  else if s.waiting then complete c s (keyRecheckEffect s)
  else fetchDecodeExecute c ex s

/-- The two bytes of a word stored at `a` and `a + 1`, high byte first (R61): what a load does with one word of an image. -/
def State.storeWord (c : Config) (s : State) (a : Nat) (op : Opcode) : State :=
  { s with mem := s.mem.writeList c a [highByte op, lowByte op] }

end Sys2Proof.Machine
end

