-- ==== Sys2Proof/Machine/Step.lean ====
section
/-! DEFINITION. One step of this hardware, and the host's way of placing an instruction where the step fetches it. -/

namespace Sys2Proof.Machine

/-- One `step()` (R120 to R123) of this hardware. -/
def step (s : State) : Host.Outcome State Fault Refusal := stepWith Config.hardware exec s

/-- `s` with one instruction word stored where `step` fetches (at PC), and everything that fetching takes: a program is LOADED,
and the machine is neither HALTED (so ERR is none, R43), PAUSED nor WAITING. It stands for the host's `load` (log entry 8). -/
def State.withFetchWord (s : State) (nbits w : Nat) : State :=
  { s.storeWord Config.hardware s.pc.toNat (tableWord nbits w) with
    loaded := true, halted := false, err := .none, paused := false, waiting := false }

end Sys2Proof.Machine
end

