-- ==== Sys2Proof/Machine/Variants.lean ====
section
/-! DEFINITION. The CORE under ANY setting of the open parameters of R6: every rule as an Effect of its Config, and the step built
from them. Under `Config.hardware` it is the machine of Dispatch.lean and Step.lean (Sys2Proof/Laws/Variants.lean proves it). -/

namespace Sys2Proof.Machine

/-- The rule of an instruction, under a setting of the parameters (R6, R130). -/
def effectUnder (c : Config) (i : Instr) (s : State) : Effect :=
  match i with
  | .cls => clsEffect s
  | .ret => retEffect s
  | .jmp nnn => jmpEffect nnn
  | .call nnn => callEffect nnn s
  | .seqb x kk => seqbEffect x kk s
  | .sneqb x kk => sneqbEffect x kk s
  | .srer x y => srerEffect x y s
  | .lbr x kk => lbrEffect x kk s
  | .abr x kk => abrEffect x kk s
  | .lrr x y => lrrEffect x y s
  | .or x y => orEffect x y s
  | .and x y => andEffect x y s
  | .xor x y => xorEffect x y s
  | .add x y => addEffect x y s
  | .sub x y => subEffect x y s
  | .shr x => shrEffect x s
  | .subn x y => subnEffect x y s
  | .shl x => shlEffect x s
  | .sne x y => sneEffect x y s
  | .ldi nnn => ldiEffect nnn s
  | .jpv0 nnn => jpv0Effect nnn s
  | .rnd x kk => rndEffect x kk s
  | .drw x y n => drwEffect c x y n s
  | .skp x => skpEffect c x s
  | .sknp x => sknpEffect c x s
  | .lddv x => lddvEffect x s
  | .ldk x => ldkEffect x s
  | .ldvd x => ldvdEffect x s
  | .ldst x => ldstEffect x s
  | .addi x => addiEffect x s
  | .lds x => ldsEffect c x s
  | .bcd x => bcdEffect x s
  | .sr x => srEffect x s
  | .lr x => lrEffect c x s

/-- One instruction executed, under a setting of the parameters. -/
def execUnder (c : Config) (i : Instr) (s : State) : Result := complete c s (effectUnder c i s)

/-- One step of the CORE, under a setting of the parameters (R120 to R123). -/
def stepUnder (c : Config) (s : State) : Result := stepWith c (execUnder c) s

end Sys2Proof.Machine
end

