-- ==== Sys2Proof/Machine/HostInterface.lean ====
section
/-! DEFINITION. The host interface: every transaction of R320 as a function on State, and runs of transactions (R131). Each is
atomic (R68); the host may issue them in any order (R321; log entry 10). -/

namespace Sys2Proof.Machine

/-- PROG_BASE: where an image is loaded, and the first PC (R5, R71). -/
def progBase : Nat := 0x200

/-- MAX_IMAGE: 4096 - 0x200 = 3584 bytes (R5, R352). -/
def maxImage : Nat := memSize - progBase

/-- `reset()`: every element of R20 at its reset value, in every run state (R350). The count of RND_IN bytes drawn is no element
of the CORE, so it goes on: a reset replays no input (log entry 4). -/
def State.resetNow (s : State) : State := { State.reset with draws := s.draws }

/-- What `load` returns (R352). -/
inductive LoadReply where
  | success | loadTooLarge
  deriving DecidableEq, Repr

/-- Whether an image is accepted: any length from 0 to MAX_IMAGE, odd ones included (R72, R352). -/
def loadReply (image : List Byte) : LoadReply :=
  if maxImage < image.length then .loadTooLarge else .success

/-- `load(image)`: too long an image halts with LoadTooLarge and changes nothing else; otherwise reset, copy the image to 0x200 on,
LOADED <- 1 (R352). -/
def State.load (c : Config) (s : State) (image : List Byte) : State :=
  match loadReply image with
  | .loadTooLarge => s.raise .loadTooLarge
  | .success => { s.resetNow with mem := Memory.writeList c [] progBase image, loaded := true }

/-- A counter of one tick: down by 1, never below 0 (R30, R311). -/
def countDown (b : Byte) : Byte := if b.toNat > 0 then b - 1#8 else b

/-- `advance_timers()`, one tick, in every run state (R311, R313): BEEP records whether ST was non-zero before it. -/
def State.tick (s : State) : State :=
  { s with dt := countDown s.dt, st := countDown s.st, beep := decide (s.st.toNat > 0) }

/-- `set_keys(snapshot)`: all of KEYS at once, in every run state (R314). -/
def State.setKeys (s : State) (snapshot : Vector Bool 16) : State := { s with keys := snapshot }

/-- `pause()`: nothing while HALTED (R316). -/
def State.pause (s : State) : State := if s.halted then s else { s with paused := true }

/-- `resume()`: nothing while HALTED (R316). -/
def State.resume (s : State) : State := if s.halted then s else { s with paused := false }

/-- `framebuffer()`: the grid, row-major, pixel (x, y) at index y × 64 + x (R34). -/
def State.framebuffer (s : State) : List Bool :=
  (List.finRange 32).flatMap (fun y => (List.finRange 64).map (fun x => s.pixel x y))

/-- `sound_active()`: BEEP (R315). -/
def State.soundActive (s : State) : Bool := s.beep

/-- `status()`: the run state's code and the ERR code (R320). -/
def State.status (s : State) : BitVec 2 × BitVec 3 := (s.runState.code, s.err.code)

/-- The transactions of R320. -/
inductive Transaction where
  | load (image : List Byte)
  | reset
  | step
  | advanceTimers
  | setKeys (snapshot : Vector Bool 16)
  | pause
  | resume
  | framebuffer
  | soundActive
  | status
  deriving DecidableEq, Repr

/-- What a transaction does to the state; the three reads change nothing (R320). -/
def applyTransaction (s : State) : Transaction → Result
  | .load image => .next (s.load Config.hardware image)
  | .reset => .next s.resetNow
  | .step => step s
  | .advanceTimers => .next s.tick
  | .setKeys snapshot => .next (s.setKeys snapshot)
  | .pause => .next s.pause
  | .resume => .next s.resume
  | .framebuffer | .soundActive | .status => .next s

/-- A run: the transactions in order, from a start state (R131). -/
def runTransactions (s : State) : List Transaction → Result
  | [] => .next s
  | t :: ts =>
    match applyTransaction s t with
    | .next s' => runTransactions s' ts
    | .fault f => .fault f
    | .refused r => .refused r

end Sys2Proof.Machine
end

