-- ==== Sys2Proof/Safety.lean ====
section
/-! DEFINITION. The terms claims are stated in: the machine's invariant, safe steps and runs, which parts of the state each
instruction may change (R23, R27, R64), the pixels a sprite covers (R151), and the hidden state (R45). -/

namespace Sys2Proof.Machine

/-- SP is one of its legal values 0 to 16 (R29). -/
def State.spLegal (s : State) : Prop := s.sp.toNat ≤ 16

/-- ERR is none exactly while HALTED = 0 (R43, R301). -/
def State.errMatchesHalted (s : State) : Prop := s.err = .none ↔ s.halted = false

/-- While WAITING, a program is loaded and PC still points at the LDK whose register WAIT_X latched (R41). -/
def State.waitsAtLdk (s : State) : Prop :=
  s.waiting = true →
    s.loaded = true ∧ ∃ op, s.fetch Config.hardware = .ok op ∧ decode op = .ok (.ldk s.waitX)

/-- The machine's invariant: it holds at reset and every transaction keeps it. -/
def State.Inv (s : State) : Prop :=
  s.mem.wf Config.hardware = true ∧ s.spLegal ∧ s.errMatchesHalted ∧ s.waitsAtLdk

/-- A step that answers a next state in which no error has halted the machine (R131: a claim is about states with HALTED = 0). -/
def safeStep (s : State) : Prop := ∃ t, step s = .next t ∧ t.halted = false

/-- What a whole run of transactions is claimed for: it answers a state, and HALTED = 0 there (R131). -/
def safeRun (s : State) (ts : List Transaction) : Prop := ∃ t, runTransactions s ts = .next t ∧ t.halted = false

/-! ## What each instruction may change -/

/-- One observable part of the state (R20), down to one register, byte, pixel, stack entry or key. HALTED, ERR and PC are not
among them: errors and the PC have statements of their own. -/
inductive Part where
  | reg (x : RegIdx)
  | addressReg
  | byte (a : Nat)
  | pixel (x : Fin 64) (y : Fin 32)
  | stackPointer
  | stackEntry (j : Nat)
  | delayTimer
  | soundTimer
  | key (k : RegIdx)
  | paused
  | waiting
  | waitX
  | loaded
  | beep
  | draws
  deriving DecidableEq, Repr

/-- A part has the same value in two states. -/
def keeps (s t : State) : Part → Prop
  | .reg x => t.getV x = s.getV x
  | .addressReg => t.i = s.i
  | .byte a => t.readByte Config.hardware a = s.readByte Config.hardware a
  | .pixel x y => t.pixel x y = s.pixel x y
  | .stackPointer => t.sp = s.sp
  | .stackEntry j => t.stackAt j = s.stackAt j
  | .delayTimer => t.dt = s.dt
  | .soundTimer => t.st = s.st
  | .key k => t.keyDown k = s.keyDown k
  | .paused => t.paused = s.paused
  | .waiting => t.waiting = s.waiting
  | .waitX => t.waitX = s.waitX
  | .loaded => t.loaded = s.loaded
  | .beep => t.beep = s.beep
  | .draws => t.draws = s.draws

/-- The six instructions that set a flag (R22). -/
def setsFlag : Instr → Bool
  | .add _ _ | .sub _ _ | .shr _ | .subn _ _ | .shl _ | .drw _ _ _ => true
  | .cls | .ret | .jmp _ | .call _ | .seqb _ _ | .sneqb _ _ | .srer _ _ | .lbr _ _ | .abr _ _ | .lrr _ _ | .or _ _
  | .and _ _ | .xor _ _ | .sne _ _ | .ldi _ | .jpv0 _ | .rnd _ _ | .skp _ | .sknp _ | .lddv _ | .ldk _ | .ldvd _
  | .ldst _ | .addi _ | .lds _ | .bcd _ | .sr _ | .lr _ => false

/-- Register z is a named destination of the instruction, the flag aside (R23's last column). -/
def namesDest (z : RegIdx) : Instr → Prop
  | .lbr x _ | .abr x _ | .rnd x _ | .lrr x _ | .or x _ | .and x _ | .xor x _ | .add x _ | .sub x _ | .shr x
  | .shl x | .lddv x | .ldk x => z = x
  | .subn _ y => z = y
  | .lr x => z.toNat ≤ x.toNat
  | .cls | .ret | .jmp _ | .call _ | .seqb _ _ | .sneqb _ _ | .srer _ _ | .sne _ _ | .ldi _ | .jpv0 _ | .drw _ _ _
  | .skp _ | .sknp _ | .ldvd _ | .ldst _ | .addi _ | .lds _ | .bcd _ | .sr _ => False

/-- The five instructions that write I (R27). -/
def writesI : Instr → Bool
  | .ldi _ | .addi _ | .lds _ | .sr _ | .lr _ => true
  | .cls | .ret | .jmp _ | .call _ | .seqb _ _ | .sneqb _ _ | .srer _ _ | .lbr _ _ | .abr _ _ | .lrr _ _ | .or _ _
  | .and _ _ | .xor _ _ | .add _ _ | .sub _ _ | .shr _ | .subn _ _ | .shl _ | .sne _ _ | .jpv0 _ | .rnd _ _
  | .drw _ _ _ | .skp _ | .sknp _ | .lddv _ | .ldk _ | .ldvd _ | .ldst _ | .bcd _ => false

/-- The number of bytes an instruction stores, from MEM[I] on (R64): 3 for BCD, x + 1 for SR, none for the others. -/
def storedLength : Instr → Nat
  | .bcd _ => 3
  | .sr x => x.toNat + 1
  | .cls | .ret | .jmp _ | .call _ | .seqb _ _ | .sneqb _ _ | .srer _ _ | .lbr _ _ | .abr _ _ | .lrr _ _ | .or _ _
  | .and _ _ | .xor _ _ | .add _ _ | .sub _ _ | .shr _ | .subn _ _ | .shl _ | .sne _ _ | .ldi _ | .jpv0 _ | .rnd _ _
  | .drw _ _ _ | .skp _ | .sknp _ | .lddv _ | .ldk _ | .ldvd _ | .ldst _ | .addi _ | .lds _ | .lr _ => 0

/-- A sprite of n rows at MEM[I], drawn at column Vx and row Vy, has a 1 bit on pixel (px, py) (R151, R152). -/
def spriteCovers (s : State) (x y : RegIdx) (n : BitVec 4) (px : Fin 64) (py : Fin 32) : Prop :=
  ∃ r c, r < n.toNat ∧ c < 8 ∧ (s.readByte Config.hardware (s.i.toNat + r)).getLsbD (7 - c) = true ∧
    px.val = ((s.getV x).toNat + c) % 64 ∧ py.val = ((s.getV y).toNat + r) % 32

/-- What an instruction may change, from the state it runs in: everything its rule writes and nothing else. -/
def mayChange (i : Instr) (s : State) : Part → Prop
  | .reg z => namesDest z i ∨ (setsFlag i = true ∧ z = vf)
  | .addressReg => writesI i = true
  | .byte a => s.i.toNat ≤ a ∧ a < s.i.toNat + storedLength i
  | .pixel px py => i = .cls ∨ ∃ x y n, i = .drw x y n ∧ spriteCovers s x y n px py
  | .stackPointer => i = .ret ∨ ∃ nnn, i = .call nnn
  | .stackEntry j => (∃ nnn, i = .call nnn) ∧ j = s.sp.toNat
  | .delayTimer => ∃ x, i = .ldvd x
  | .soundTimer => ∃ x, i = .ldst x
  | .waiting => (∃ x, i = .ldk x) ∧ ∀ k, s.keyDown k = false
  | .waitX => (∃ x, i = .ldk x) ∧ ∀ k, s.keyDown k = false
  | .draws => ∃ x kk, i = .rnd x kk
  | .key _ => False
  | .paused => False
  | .loaded => False
  | .beep => False

/-- The frame of an instruction: whatever next state it answers, what its rule does not write is as it was, and HALTED and ERR
change only by an error, which changes nothing else (R126, R302). -/
def frameHolds (i : Instr) : Prop :=
  ∀ s t, exec i s = .next t →
    (∀ p, ¬ mayChange i s p → keeps s t p) ∧
    ((t.halted = s.halted ∧ t.err = s.err) ∨ ∃ e, t = s.raise e)

/-! ## Hidden state (R45) -/

/-- Two states agree but for what no instruction reads (R45): ST, BEEP, the popped stack entries, and WAIT_X outside a wait. -/
def agreeButHidden (s t : State) : Prop :=
  t = { s with st := t.st, beep := t.beep, stack := t.stack, waitX := t.waitX } ∧
  (∀ j, j < s.sp.toNat → t.stackAt j = s.stackAt j) ∧
  (s.waiting = true → t.waitX = s.waitX)

/-- Two results agree but for hidden state, or are the same stop. -/
def resultsAgree : Result → Result → Prop
  | .next s, .next t => agreeButHidden s t
  | .fault f, .fault g => f = g
  | .refused f, .refused g => f = g
  | _, _ => False

end Sys2Proof.Machine
end

