-- ==== Sys2Proof/Certificates/Slice0/Obligations.lean ====
section
/-! DEFINITION. The statements for the provers, each from a numbered rule of spec/. An instruction's statement has three clauses:
every word of its row decodes to it, where it completes and with what effect, and where it raises an error. -/

open Sys2Proof Sys2Proof.Machine

/-! ## Encoding (30_encoding.md) -/

/-- R107: under both values of STRICT_DECODE, decode(encode(i)) = i for every instruction. -/
def Obligations.DecodeOfEncodeIsIdentity : Prop :=
  ∀ (strict : Bool) (i : Instr), decodeUnder strict (encode i) = .ok i

/-- R95, R101: a word decodes exactly if it matches a row, the instruction it decodes to belongs to a row it matches, and no word
matches two rows. -/
def Obligations.WordsMatchExactlyTheRowTheyDecodeTo : Prop :=
  ∀ (strict : Bool) (op : Opcode),
    (∀ i, decodeUnder strict op = .ok i → (rowOf i).hits strict op = true) ∧
    (∀ r, r ∈ opcodeTable → r.hits strict op = true → ∃ i, decodeUnder strict op = .ok i ∧ rowOf i = r) ∧
    (∀ r r', r ∈ opcodeTable → r' ∈ opcodeTable → r.hits strict op = true → r'.hits strict op = true → r = r')

/-- The other direction of R107: a word whose row of R95 has no `?` nibble is the word of the instruction it decodes to, and the
word of one whose row has one (0?E0, 0?EE, 5xy?, 9xy?, 8x?6, 8x?E) agrees with it on every bit of the other three nibbles; under
STRICT_DECODE only SHR and SHL leave a nibble free (R101). -/
def Obligations.EncodeOfDecodeKeepsOperandsAndPattern : Prop :=
  ∀ (strict : Bool) (op : Opcode) (i : Instr), decodeUnder strict op = .ok i →
    decodeUnder strict (encode i) = .ok i ∧
    (ignoresNibble i = false → encode i = op) ∧
    (i = .cls ∨ i = .ret → encode i &&& 0xF0FF#16 = op &&& 0xF0FF#16) ∧
    (∀ x y, i = .srer x y ∨ i = .sne x y → encode i &&& 0xFFF0#16 = op &&& 0xFFF0#16) ∧
    (∀ x, i = .shr x ∨ i = .shl x → encode i &&& 0xFF0F#16 = op &&& 0xFF0F#16) ∧
    (strict = true → (∀ x, i ≠ .shr x) → (∀ x, i ≠ .shl x) → encode i = op)

/-- R102: the illegal words of the default decoder are the four families' words listed there, and the step that fetches one halts
with DecodeFailure and commits nothing. -/
def Obligations.IllegalWordsHaltWithDecodeFailure : Prop :=
  (∀ op : Opcode, (∃ r, decode op = .error r) ↔
    (family op = 0x0#4 ∧ fieldKK op ∉ [0xE0#8, 0xEE#8]) ∨
    (family op = 0x8#4 ∧ fieldN op ∈ [0x8#4, 0x9#4, 0xA#4, 0xB#4, 0xC#4, 0xD#4, 0xF#4]) ∨
    (family op = 0xE#4 ∧ fieldKK op ∉ [0x9E#8, 0xA1#8]) ∨
    (family op = 0xF#4 ∧
      fieldKK op ∉ [0x07#8, 0x0A#8, 0x15#8, 0x18#8, 0x1E#8, 0x29#8, 0x33#8, 0x55#8, 0x65#8])) ∧
  (∀ (s : State) (op : Opcode) (r : DecodeReject), s.gated = false → s.waiting = false →
    s.fetch Config.hardware = .ok op → decode op = .error r → step s = .next (s.raise .decodeFailure))

/-- Words written out from R95 and R107's examples decode to the instructions they stand for, in memory order (R61). -/
def Obligations.WrittenOutWordsDecode : Prop :=
  decodeBytes [0x12#8, 0x04#8] = .ok (.jmp 0x204#12, []) ∧
  decodeBytes [0x80#8, 0x14#8] = .ok (.add 0#4 1#4, []) ∧
  decodeBytes [0xD1#8, 0x25#8] = .ok (.drw 1#4 2#4 5#4, []) ∧
  decodeBytes [0xF2#8, 0x65#8] = .ok (.lr 2#4, []) ∧
  decodeBytes [0x83#8, 0x06#8] = .ok (.shr 3#4, []) ∧
  decodeBytes [0x00#8, 0xE0#8] = .ok (.cls, []) ∧
  decodeBytes [0xE1#8, 0x9E#8] = .ok (.skp 1#4, [])

/-! ## The engine (40_engine.md, 20_memory.md) -/

/-- R120: `step()` changes no state at all while HALTED, PAUSED, or with no program LOADED. -/
def Obligations.GatedStepChangesNothing : Prop :=
  ∀ s : State, s.halted = true ∨ s.paused = true ∨ s.loaded = false → step s = .next s

/-- R121, R123: a step that is not gated and not waiting runs the instruction whose word stands at PC, and nothing else around it:
the step IS that instruction's exec. That exec holds the next-PC check, the commit and the PC update is the model's choice (log
entry 9). -/
def Obligations.StepRunsDecodedInstruction : Prop :=
  ∀ (s : State) (op : Opcode) (i : Instr), s.halted = false → s.paused = false → s.loaded = true → s.waiting = false →
    s.fetch Config.hardware = .ok op → decode op = .ok i → wellFormed i = true → step s = exec i s

/-- R122: the key re-check. With no key pressed nothing changes; with a lowest pressed key k0, V[WAIT_X] <- k0, WAITING <- 0 and
PC <- PC + 2, unless that leaves the address range. -/
def Obligations.KeyRecheckTakesTheLowestPressedKey : Prop :=
  ∀ s : State, s.halted = false → s.paused = false → s.loaded = true → s.waiting = true →
    ((∀ k, s.keyDown k = false) → step s = .next s) ∧
    (∀ k0, s.keyDown k0 = true → (∀ k, s.keyDown k = true → k0.toNat ≤ k.toNat) →
      (s.pc.toNat + 2 ≤ 0xFFF → ∃ t, step s = .next t ∧ (t.getV s.waitX).toNat = k0.toNat ∧
        (∀ z, z ≠ s.waitX → t.getV z = s.getV z) ∧ t.pc.toNat = s.pc.toNat + 2 ∧
        t = { s with v := t.v, waiting := false, pc := t.pc }) ∧
      (0xFFF < s.pc.toNat + 2 → step s = .next (s.raise .addressOutOfRange)))

/-- R61, R63: the fetch is the big-endian word at PC; PC = 0xFFF raises AddressOutOfRange; under ODD_PC_POLICY = fault an odd PC
does too, and by default an odd PC is fetched like an even one. -/
def Obligations.FetchIsBigEndianAndChecked : Prop :=
  ∀ (c : Config) (s : State),
    (s.pc.toNat = 0xFFF → s.fetch c = .error .addressOutOfRange) ∧
    (c.oddPc = .fault → s.pc.toNat % 2 = 1 → s.fetch c = .error .addressOutOfRange) ∧
    (s.pc.toNat < 0xFFF → (c.oddPc = .fetch ∨ s.pc.toNat % 2 = 0) → ∃ op, s.fetch c = .ok op ∧
      highByte op = s.readByte c s.pc.toNat ∧ lowByte op = s.readByte c (s.pc.toNat + 1)) ∧
    Config.hardware.oddPc = .fetch

/-- R126, R302: a step that halts the machine leaves the state exactly as it was but for HALTED and ERR, and ERR names an error. -/
def Obligations.HaltingStepCommitsNothing : Prop :=
  ∀ s t : State, s.halted = false → step s = .next t → t.halted = true → ∃ e, e ≠ Err.none ∧ t = s.raise e

/-- R303: the errors of a step, first raised first: fetch alignment and range, decode, the instruction's own check, next PC. For
every setting of the parameters; the own checks named there do not depend on the PC. -/
def Obligations.FirstRaisedErrorIsReported : Prop :=
  ∀ (c : Config) (s : State), s.gated = false → s.waiting = false →
    (∀ e, s.fetch c = .error e → stepUnder c s = .next (s.raise .addressOutOfRange)) ∧
    (∀ op r, s.fetch c = .ok op → decodeUnder c.strictDecode op = .error r →
      stepUnder c s = .next (s.raise .decodeFailure)) ∧
    (∀ op i e, s.fetch c = .ok op → decodeUnder c.strictDecode op = .ok i → effectUnder c i s = .raise e →
      stepUnder c s = .next (s.raise e)) ∧
    (∀ op i ws npc, s.fetch c = .ok op → decodeUnder c.strictDecode op = .ok i → effectUnder c i s = .done ws npc →
      0xFFF < npc → stepUnder c s = .next (s.raise .addressOutOfRange)) ∧
    (s.sp = 0#5 → effectUnder c .ret s = .raise .stackUnderflow) ∧
    (∀ nnn, s.sp = 16#5 → effectUnder c (.call nnn) s = .raise .stackOverflow) ∧
    (∀ x, 15 < (s.getV x).toNat → c.keyIndex = .fault →
      effectUnder c (.skp x) s = .raise .invalidKeyIndex ∧ effectUnder c (.sknp x) s = .raise .invalidKeyIndex) ∧
    (∀ x, 15 < (s.getV x).toNat → c.ldsCheck = .fault → effectUnder c (.lds x) s = .raise .invalidSpriteIndex) ∧
    (∀ x, 4096 < s.i.toNat + 3 → effectUnder c (.bcd x) s = .raise .addressOutOfRange) ∧
    (∀ x, 4096 < s.i.toNat + x.toNat + 1 → effectUnder c (.sr x) s = .raise .addressOutOfRange ∧
      effectUnder c (.lr x) s = .raise .addressOutOfRange) ∧
    (∀ x y n, 0 < n.toNat → 4096 < s.i.toNat + n.toNat → effectUnder c (.drw x y n) s = .raise .addressOutOfRange) ∧
    (∀ x, 0xFFFF < s.i.toNat + (s.getV x).toNat → effectUnder c (.addi x) s = .raise .addressOutOfRange)

/-- R125, R360: an instruction at 0xFFE halts unless it is JMP, CALL, RET or JPV0, or an LDK that finds no key; and a skip at
0xFFC or 0xFFE whose condition holds halts. -/
def Obligations.EndOfMemoryHalts : Prop :=
  (∀ (i : Instr) (s t : State), s.pc.toNat = 0xFFE → exec i s = .next t →
    (∀ nnn, i ≠ .jmp nnn) → (∀ nnn, i ≠ .call nnn) → i ≠ .ret → (∀ nnn, i ≠ .jpv0 nnn) →
    (∀ x, i = .ldk x → ∃ k, s.keyDown k = true) → ∃ e, t = s.raise e) ∧
  (∀ s : State, s.pc.toNat = 0xFFC ∨ s.pc.toNat = 0xFFE →
    (∀ x kk, s.getV x = kk → exec (.seqb x kk) s = .next (s.raise .addressOutOfRange)) ∧
    (∀ x kk, s.getV x ≠ kk → exec (.sneqb x kk) s = .next (s.raise .addressOutOfRange)) ∧
    (∀ x y, s.getV x = s.getV y → exec (.srer x y) s = .next (s.raise .addressOutOfRange)) ∧
    (∀ x y, s.getV x ≠ s.getV y → exec (.sne x y) s = .next (s.raise .addressOutOfRange)) ∧
    (∀ x k, (s.getV x).toNat = k.toNat → s.keyDown k = true →
      exec (.skp x) s = .next (s.raise .addressOutOfRange)) ∧
    (∀ x k, (s.getV x).toNat = k.toNat → s.keyDown k = false →
      exec (.sknp x) s = .next (s.raise .addressOutOfRange)))

/-! ## Display (41_display.md) -/

/-- R150: CLS turns every pixel off and touches nothing else. -/
def Obligations.ClsTurnsEveryPixelOff : Prop :=
  (∀ op : Opcode, op &&& 0xF0FF#16 = 0x00E0#16 → decodeUnder false op = .ok .cls) ∧
  (∀ op : Opcode, decodeUnder true op = .ok .cls ↔ op = 0x00E0#16) ∧
  ∀ s : State,
    (s.pc.toNat + 2 ≤ 0xFFF → ∃ t, exec .cls s = .next t ∧ (∀ x y, t.pixel x y = false) ∧
      t.pc.toNat = s.pc.toNat + 2 ∧ t = { s with fb := t.fb, pc := t.pc }) ∧
    (0xFFF < s.pc.toNat + 2 → exec .cls s = .next (s.raise .addressOutOfRange))

/-- R151, R152: DRW flips exactly the pixels under the sprite's 1 bits, bit 7 leftmost, with wrap, and VF is 1 exactly if one of
them was on; n = 0 draws nothing and reads nothing. -/
def Obligations.DrwFlipsCoveredPixels : Prop :=
  (∀ (strict : Bool) (op : Opcode), op &&& 0xF000#16 = 0xD000#16 →
    decodeUnder strict op = .ok (.drw (fieldX op) (fieldY op) (fieldN op))) ∧
  ∀ (x y : RegIdx) (n : BitVec 4) (s : State),
    (n.toNat = 0 ∨ s.i.toNat + n.toNat ≤ 4096 → s.pc.toNat + 2 ≤ 0xFFF → ∃ t, exec (.drw x y n) s = .next t ∧
      (∀ px py, spriteCovers s x y n px py → t.pixel px py = !s.pixel px py) ∧
      (∀ px py, ¬ spriteCovers s x y n px py → t.pixel px py = s.pixel px py) ∧
      ((∃ px py, spriteCovers s x y n px py ∧ s.pixel px py = true) → t.getV vf = 1#8) ∧
      ((¬ ∃ px py, spriteCovers s x y n px py ∧ s.pixel px py = true) → t.getV vf = 0#8) ∧
      (∀ z, z ≠ vf → t.getV z = s.getV z) ∧ t.pc.toNat = s.pc.toNat + 2 ∧
      t = { s with v := t.v, fb := t.fb, pc := t.pc }) ∧
    (n.toNat = 0 ∨ s.i.toNat + n.toNat ≤ 4096 → 0xFFF < s.pc.toNat + 2 →
      exec (.drw x y n) s = .next (s.raise .addressOutOfRange)) ∧
    (0 < n.toNat → 4096 < s.i.toNat + n.toNat → exec (.drw x y n) s = .next (s.raise .addressOutOfRange))

/-- R153: the DRW laws. (a) the pixels of one DRW are distinct; (b) a second DRW with the same address, sprite bytes, position and
row count leaves the framebuffer as it was before the first; (c) that second draw sets VF = 1 exactly if some covered pixel was
off before the first; (d) onto a clear framebuffer VF = 0. -/
def Obligations.DrawingTwiceRestoresTheScreen : Prop :=
  (∀ (xs ys : Byte) (r c r' c' : Nat), r < 15 → r' < 15 → c < 8 → c' < 8 → (r ≠ r' ∨ c ≠ c') →
    ((xs.toNat + c) % 64, (ys.toNat + r) % 32) ≠ ((xs.toNat + c') % 64, (ys.toNat + r') % 32)) ∧
  (∀ (x y x' y' : RegIdx) (n : BitVec 4) (s t u w : State),
    s.halted = false → exec (.drw x y n) s = .next t → t.halted = false →
    u.halted = false → exec (.drw x' y' n) u = .next w → w.halted = false →
    u.fb = t.fb → u.mem = s.mem → u.i = s.i → u.getV x' = s.getV x → u.getV y' = s.getV y →
    (∀ px py, w.pixel px py = s.pixel px py) ∧
    ((∃ px py, spriteCovers s x y n px py ∧ s.pixel px py = false) → w.getV vf = 1#8) ∧
    ((¬ ∃ px py, spriteCovers s x y n px py ∧ s.pixel px py = false) → w.getV vf = 0#8)) ∧
  (∀ (x y : RegIdx) (n : BitVec 4) (s t : State), s.halted = false → (∀ px py, s.pixel px py = false) →
    exec (.drw x y n) s = .next t → t.halted = false → t.getV vf = 0#8)

/-! ## Control flow (42_control_flow.md) -/

/-- R171: RET resumes at the top entry + 2 and pops it, keeping its value; an empty stack raises StackUnderflow. -/
def Obligations.RetResumesAfterTheCall : Prop :=
  (∀ op : Opcode, op &&& 0xF0FF#16 = 0x00EE#16 → decodeUnder false op = .ok .ret) ∧
  (∀ op : Opcode, decodeUnder true op = .ok .ret ↔ op = 0x00EE#16) ∧
  ∀ s : State,
    (s.sp = 0#5 → exec .ret s = .next (s.raise .stackUnderflow)) ∧
    (∀ a, 0 < s.sp.toNat → s.stackAt (s.sp.toNat - 1) = some a →
      (a.toNat + 2 ≤ 0xFFF → ∃ t, exec .ret s = .next t ∧ t.pc.toNat = a.toNat + 2 ∧
        t.sp.toNat = s.sp.toNat - 1 ∧ t = { s with sp := t.sp, pc := t.pc }) ∧
      (0xFFF < a.toNat + 2 → exec .ret s = .next (s.raise .addressOutOfRange)))

/-- R172: JMP sets PC to nnn and changes nothing else; it completes everywhere. -/
def Obligations.JmpSetsPc : Prop :=
  (∀ (strict : Bool) (op : Opcode), op &&& 0xF000#16 = 0x1000#16 → decodeUnder strict op = .ok (.jmp (fieldNNN op))) ∧
  ∀ (nnn : Addr) (s : State), exec (.jmp nnn) s = .next { s with pc := nnn }

/-- R173: CALL pushes its own address and jumps; a full stack raises StackOverflow. It completes at every SP below 16. -/
def Obligations.CallPushesItsOwnAddress : Prop :=
  (∀ (strict : Bool) (op : Opcode), op &&& 0xF000#16 = 0x2000#16 → decodeUnder strict op = .ok (.call (fieldNNN op))) ∧
  ∀ (nnn : Addr) (s : State),
    (s.sp.toNat < 16 → ∃ t, exec (.call nnn) s = .next t ∧ t.stackAt s.sp.toNat = some s.pc ∧
      (∀ j, j ≠ s.sp.toNat → t.stackAt j = s.stackAt j) ∧ t.sp.toNat = s.sp.toNat + 1 ∧ t.pc = nnn ∧
      t = { s with stack := t.stack, sp := t.sp, pc := t.pc }) ∧
    (s.sp = 16#5 → exec (.call nnn) s = .next (s.raise .stackOverflow))

/-- R171, R173: a CALL, and later a RET at the same depth with that entry in place, resume at the instruction after the CALL. -/
def Obligations.CallThenRetReturnsAfterTheCall : Prop :=
  ∀ (nnn : Addr) (s t u : State), s.halted = false → s.sp.toNat < 16 → s.pc.toNat + 2 ≤ 0xFFF →
    exec (.call nnn) s = .next t → u.sp = t.sp → u.stackAt s.sp.toNat = t.stackAt s.sp.toNat →
    ∃ w, exec .ret u = .next w ∧ w.pc.toNat = s.pc.toNat + 2 ∧ w.sp = s.sp

/-- R174, R175: SEQB skips exactly if Vx = kk, SNEQB exactly if Vx ≠ kk; only PC changes. -/
def Obligations.ByteSkipsCompareVxWithKk : Prop :=
  (∀ (strict : Bool) (op : Opcode), op &&& 0xF000#16 = 0x3000#16 →
    decodeUnder strict op = .ok (.seqb (fieldX op) (fieldKK op))) ∧
  (∀ (strict : Bool) (op : Opcode), op &&& 0xF000#16 = 0x4000#16 →
    decodeUnder strict op = .ok (.sneqb (fieldX op) (fieldKK op))) ∧
  ∀ (x : RegIdx) (kk : Byte) (s : State),
    (s.getV x = kk → s.pc.toNat + 4 ≤ 0xFFF →
      ∃ t, exec (.seqb x kk) s = .next t ∧ t.pc.toNat = s.pc.toNat + 4 ∧ t = { s with pc := t.pc }) ∧
    (s.getV x = kk → 0xFFF < s.pc.toNat + 4 → exec (.seqb x kk) s = .next (s.raise .addressOutOfRange)) ∧
    (s.getV x ≠ kk → s.pc.toNat + 2 ≤ 0xFFF →
      ∃ t, exec (.seqb x kk) s = .next t ∧ t.pc.toNat = s.pc.toNat + 2 ∧ t = { s with pc := t.pc }) ∧
    (s.getV x ≠ kk → 0xFFF < s.pc.toNat + 2 → exec (.seqb x kk) s = .next (s.raise .addressOutOfRange)) ∧
    (s.getV x ≠ kk → s.pc.toNat + 4 ≤ 0xFFF →
      ∃ t, exec (.sneqb x kk) s = .next t ∧ t.pc.toNat = s.pc.toNat + 4 ∧ t = { s with pc := t.pc }) ∧
    (s.getV x ≠ kk → 0xFFF < s.pc.toNat + 4 → exec (.sneqb x kk) s = .next (s.raise .addressOutOfRange)) ∧
    (s.getV x = kk → s.pc.toNat + 2 ≤ 0xFFF →
      ∃ t, exec (.sneqb x kk) s = .next t ∧ t.pc.toNat = s.pc.toNat + 2 ∧ t = { s with pc := t.pc }) ∧
    (s.getV x = kk → 0xFFF < s.pc.toNat + 2 → exec (.sneqb x kk) s = .next (s.raise .addressOutOfRange))

/-- R176, R177: SRER skips exactly if Vx = Vy, SNE exactly if Vx ≠ Vy; only PC changes. Under STRICT_DECODE their words need
n = 0. -/
def Obligations.RegisterSkipsCompareVxWithVy : Prop :=
  (∀ op : Opcode, op &&& 0xF000#16 = 0x5000#16 →
    decodeUnder false op = .ok (.srer (fieldX op) (fieldY op)) ∧
    (fieldN op = 0#4 → decodeUnder true op = .ok (.srer (fieldX op) (fieldY op))) ∧
    (fieldN op ≠ 0#4 → ∃ r, decodeUnder true op = .error r)) ∧
  (∀ op : Opcode, op &&& 0xF000#16 = 0x9000#16 →
    decodeUnder false op = .ok (.sne (fieldX op) (fieldY op)) ∧
    (fieldN op = 0#4 → decodeUnder true op = .ok (.sne (fieldX op) (fieldY op))) ∧
    (fieldN op ≠ 0#4 → ∃ r, decodeUnder true op = .error r)) ∧
  ∀ (x y : RegIdx) (s : State),
    (s.getV x = s.getV y → s.pc.toNat + 4 ≤ 0xFFF →
      ∃ t, exec (.srer x y) s = .next t ∧ t.pc.toNat = s.pc.toNat + 4 ∧ t = { s with pc := t.pc }) ∧
    (s.getV x = s.getV y → 0xFFF < s.pc.toNat + 4 → exec (.srer x y) s = .next (s.raise .addressOutOfRange)) ∧
    (s.getV x ≠ s.getV y → s.pc.toNat + 2 ≤ 0xFFF →
      ∃ t, exec (.srer x y) s = .next t ∧ t.pc.toNat = s.pc.toNat + 2 ∧ t = { s with pc := t.pc }) ∧
    (s.getV x ≠ s.getV y → 0xFFF < s.pc.toNat + 2 → exec (.srer x y) s = .next (s.raise .addressOutOfRange)) ∧
    (s.getV x ≠ s.getV y → s.pc.toNat + 4 ≤ 0xFFF →
      ∃ t, exec (.sne x y) s = .next t ∧ t.pc.toNat = s.pc.toNat + 4 ∧ t = { s with pc := t.pc }) ∧
    (s.getV x ≠ s.getV y → 0xFFF < s.pc.toNat + 4 → exec (.sne x y) s = .next (s.raise .addressOutOfRange)) ∧
    (s.getV x = s.getV y → s.pc.toNat + 2 ≤ 0xFFF →
      ∃ t, exec (.sne x y) s = .next t ∧ t.pc.toNat = s.pc.toNat + 2 ∧ t = { s with pc := t.pc }) ∧
    (s.getV x = s.getV y → 0xFFF < s.pc.toNat + 2 → exec (.sne x y) s = .next (s.raise .addressOutOfRange))

/-- R178: JPV0 jumps to nnn + V0, which does not wrap. -/
def Obligations.Jpv0AddsV0WithoutWrap : Prop :=
  (∀ (strict : Bool) (op : Opcode), op &&& 0xF000#16 = 0xB000#16 → decodeUnder strict op = .ok (.jpv0 (fieldNNN op))) ∧
  ∀ (nnn : Addr) (s : State),
    (nnn.toNat + (s.getV 0#4).toNat ≤ 0xFFF → ∃ t, exec (.jpv0 nnn) s = .next t ∧
      t.pc.toNat = nnn.toNat + (s.getV 0#4).toNat ∧ t = { s with pc := t.pc }) ∧
    (0xFFF < nnn.toNat + (s.getV 0#4).toNat → exec (.jpv0 nnn) s = .next (s.raise .addressOutOfRange))

/-! ## Registers and arithmetic (43_alu.md) -/

/-- R201, R203: LBR loads kk into Vx, LRR copies Vy to Vx; no flag is set. -/
def Obligations.LoadsWriteTheRegister : Prop :=
  (∀ (strict : Bool) (op : Opcode), op &&& 0xF000#16 = 0x6000#16 →
    decodeUnder strict op = .ok (.lbr (fieldX op) (fieldKK op))) ∧
  (∀ (strict : Bool) (op : Opcode), op &&& 0xF00F#16 = 0x8000#16 →
    decodeUnder strict op = .ok (.lrr (fieldX op) (fieldY op))) ∧
  ∀ (x y : RegIdx) (kk : Byte) (s : State),
    (s.pc.toNat + 2 ≤ 0xFFF →
      (∃ t, exec (.lbr x kk) s = .next t ∧ t.getV x = kk ∧ (∀ z, z ≠ x → t.getV z = s.getV z) ∧
        t.pc.toNat = s.pc.toNat + 2 ∧ t = { s with v := t.v, pc := t.pc }) ∧
      (∃ t, exec (.lrr x y) s = .next t ∧ t.getV x = s.getV y ∧ (∀ z, z ≠ x → t.getV z = s.getV z) ∧
        t.pc.toNat = s.pc.toNat + 2 ∧ t = { s with v := t.v, pc := t.pc })) ∧
    (0xFFF < s.pc.toNat + 2 → exec (.lbr x kk) s = .next (s.raise .addressOutOfRange) ∧
      exec (.lrr x y) s = .next (s.raise .addressOutOfRange))

/-- R202: ABR adds kk to Vx mod 256 and sets no flag: VF is unchanged unless it is Vx. -/
def Obligations.AbrAddsModulo256WithoutFlag : Prop :=
  (∀ (strict : Bool) (op : Opcode), op &&& 0xF000#16 = 0x7000#16 →
    decodeUnder strict op = .ok (.abr (fieldX op) (fieldKK op))) ∧
  ∀ (x : RegIdx) (kk : Byte) (s : State),
    (s.pc.toNat + 2 ≤ 0xFFF → ∃ t, exec (.abr x kk) s = .next t ∧
      (t.getV x).toNat = ((s.getV x).toNat + kk.toNat) % 256 ∧ (∀ z, z ≠ x → t.getV z = s.getV z) ∧
      t.pc.toNat = s.pc.toNat + 2 ∧ t = { s with v := t.v, pc := t.pc }) ∧
    (0xFFF < s.pc.toNat + 2 → exec (.abr x kk) s = .next (s.raise .addressOutOfRange))

/-- R204, R205, R206: OR, AND and XOR act bit by bit on Vx and Vy, write Vx and set no flag. -/
def Obligations.LogicActsBitByBit : Prop :=
  (∀ (strict : Bool) (op : Opcode), op &&& 0xF00F#16 = 0x8001#16 →
    decodeUnder strict op = .ok (.or (fieldX op) (fieldY op))) ∧
  (∀ (strict : Bool) (op : Opcode), op &&& 0xF00F#16 = 0x8002#16 →
    decodeUnder strict op = .ok (.and (fieldX op) (fieldY op))) ∧
  (∀ (strict : Bool) (op : Opcode), op &&& 0xF00F#16 = 0x8003#16 →
    decodeUnder strict op = .ok (.xor (fieldX op) (fieldY op))) ∧
  ∀ (x y : RegIdx) (s : State),
    (s.pc.toNat + 2 ≤ 0xFFF →
      (∃ t, exec (.or x y) s = .next t ∧
        (∀ b, (t.getV x).getLsbD b = ((s.getV x).getLsbD b || (s.getV y).getLsbD b)) ∧
        (∀ z, z ≠ x → t.getV z = s.getV z) ∧ t.pc.toNat = s.pc.toNat + 2 ∧ t = { s with v := t.v, pc := t.pc }) ∧
      (∃ t, exec (.and x y) s = .next t ∧
        (∀ b, (t.getV x).getLsbD b = ((s.getV x).getLsbD b && (s.getV y).getLsbD b)) ∧
        (∀ z, z ≠ x → t.getV z = s.getV z) ∧ t.pc.toNat = s.pc.toNat + 2 ∧ t = { s with v := t.v, pc := t.pc }) ∧
      (∃ t, exec (.xor x y) s = .next t ∧
        (∀ b, (t.getV x).getLsbD b = ((s.getV x).getLsbD b ^^ (s.getV y).getLsbD b)) ∧
        (∀ z, z ≠ x → t.getV z = s.getV z) ∧ t.pc.toNat = s.pc.toNat + 2 ∧ t = { s with v := t.v, pc := t.pc })) ∧
    (0xFFF < s.pc.toNat + 2 → exec (.or x y) s = .next (s.raise .addressOutOfRange) ∧
      exec (.and x y) s = .next (s.raise .addressOutOfRange) ∧ exec (.xor x y) s = .next (s.raise .addressOutOfRange))

/-- R207: ADD writes the sum mod 256 to Vx, then the carry to VF, so that with x = F the carry wins. -/
def Obligations.AddWritesSumThenCarry : Prop :=
  (∀ (strict : Bool) (op : Opcode), op &&& 0xF00F#16 = 0x8004#16 →
    decodeUnder strict op = .ok (.add (fieldX op) (fieldY op))) ∧
  ∀ (x y : RegIdx) (s : State),
    (s.pc.toNat + 2 ≤ 0xFFF → ∃ t, exec (.add x y) s = .next t ∧
      (t.getV vf).toNat = (if 255 < (s.getV x).toNat + (s.getV y).toNat then 1 else 0) ∧
      (x ≠ vf → (t.getV x).toNat = ((s.getV x).toNat + (s.getV y).toNat) % 256) ∧
      (∀ z, z ≠ x → z ≠ vf → t.getV z = s.getV z) ∧
      t.pc.toNat = s.pc.toNat + 2 ∧ t = { s with v := t.v, pc := t.pc }) ∧
    (0xFFF < s.pc.toNat + 2 → exec (.add x y) s = .next (s.raise .addressOutOfRange))

/-- R208: SUB writes Vx - Vy mod 256 to Vx, then not-borrow to VF. -/
def Obligations.SubWritesDifferenceThenNotBorrow : Prop :=
  (∀ (strict : Bool) (op : Opcode), op &&& 0xF00F#16 = 0x8005#16 →
    decodeUnder strict op = .ok (.sub (fieldX op) (fieldY op))) ∧
  ∀ (x y : RegIdx) (s : State),
    (s.pc.toNat + 2 ≤ 0xFFF → ∃ t, exec (.sub x y) s = .next t ∧
      (t.getV vf).toNat = (if (s.getV y).toNat ≤ (s.getV x).toNat then 1 else 0) ∧
      (x ≠ vf → (t.getV x).toNat = ((s.getV x).toNat + 256 - (s.getV y).toNat) % 256) ∧
      (∀ z, z ≠ x → z ≠ vf → t.getV z = s.getV z) ∧
      t.pc.toNat = s.pc.toNat + 2 ∧ t = { s with v := t.v, pc := t.pc }) ∧
    (0xFFF < s.pc.toNat + 2 → exec (.sub x y) s = .next (s.raise .addressOutOfRange))

/-- R210: SUBN writes Vy - Vx mod 256 to Vy, not Vx, then not-borrow to VF. -/
def Obligations.SubnWritesVyThenNotBorrow : Prop :=
  (∀ (strict : Bool) (op : Opcode), op &&& 0xF00F#16 = 0x8007#16 →
    decodeUnder strict op = .ok (.subn (fieldX op) (fieldY op))) ∧
  ∀ (x y : RegIdx) (s : State),
    (s.pc.toNat + 2 ≤ 0xFFF → ∃ t, exec (.subn x y) s = .next t ∧
      (t.getV vf).toNat = (if (s.getV x).toNat ≤ (s.getV y).toNat then 1 else 0) ∧
      (y ≠ vf → (t.getV y).toNat = ((s.getV y).toNat + 256 - (s.getV x).toNat) % 256) ∧
      (∀ z, z ≠ y → z ≠ vf → t.getV z = s.getV z) ∧
      t.pc.toNat = s.pc.toNat + 2 ∧ t = { s with v := t.v, pc := t.pc }) ∧
    (0xFFF < s.pc.toNat + 2 → exec (.subn x y) s = .next (s.raise .addressOutOfRange))

/-- R209, R211: SHR and SHL shift Vx by one, then VF is the bit shifted out; the y nibble has no effect. -/
def Obligations.ShiftsWriteTheBitShiftedOut : Prop :=
  (∀ (strict : Bool) (op : Opcode), op &&& 0xF00F#16 = 0x8006#16 → decodeUnder strict op = .ok (.shr (fieldX op))) ∧
  (∀ (strict : Bool) (op : Opcode), op &&& 0xF00F#16 = 0x800E#16 → decodeUnder strict op = .ok (.shl (fieldX op))) ∧
  ∀ (x : RegIdx) (s : State),
    (s.pc.toNat + 2 ≤ 0xFFF →
      (∃ t, exec (.shr x) s = .next t ∧ (t.getV vf).toNat = (s.getV x).toNat % 2 ∧
        (x ≠ vf → (t.getV x).toNat = (s.getV x).toNat / 2) ∧ (∀ z, z ≠ x → z ≠ vf → t.getV z = s.getV z) ∧
        t.pc.toNat = s.pc.toNat + 2 ∧ t = { s with v := t.v, pc := t.pc }) ∧
      (∃ t, exec (.shl x) s = .next t ∧ (t.getV vf).toNat = (s.getV x).toNat / 128 ∧
        (x ≠ vf → (t.getV x).toNat = (s.getV x).toNat * 2 % 256) ∧ (∀ z, z ≠ x → z ≠ vf → t.getV z = s.getV z) ∧
        t.pc.toNat = s.pc.toNat + 2 ∧ t = { s with v := t.v, pc := t.pc })) ∧
    (0xFFF < s.pc.toNat + 2 → exec (.shr x) s = .next (s.raise .addressOutOfRange) ∧
      exec (.shl x) s = .next (s.raise .addressOutOfRange))

/-- R212: RND writes a free byte masked by kk. The byte is RND_IN's at the draw count, whatever it is (log entry 4): in
particular every bit of Vx where kk has a 0 is 0. -/
def Obligations.RndMasksAFreeByte : Prop :=
  (∀ (strict : Bool) (op : Opcode), op &&& 0xF000#16 = 0xC000#16 →
    decodeUnder strict op = .ok (.rnd (fieldX op) (fieldKK op))) ∧
  ∀ (x : RegIdx) (kk : Byte) (s : State),
    (s.pc.toNat + 2 ≤ 0xFFF → ∃ t, exec (.rnd x kk) s = .next t ∧
      (∀ b, (t.getV x).getLsbD b = ((Config.rndIn s.draws).getLsbD b && kk.getLsbD b)) ∧
      (∀ z, z ≠ x → t.getV z = s.getV z) ∧ t.pc.toNat = s.pc.toNat + 2 ∧ t.draws = s.draws + 1 ∧
      t = { s with v := t.v, pc := t.pc, draws := t.draws }) ∧
    (0xFFF < s.pc.toNat + 2 → exec (.rnd x kk) s = .next (s.raise .addressOutOfRange))

/-! ## Address register and memory (44_index_memory.md) -/

/-- R240: LDI loads nnn into I, zero-extended and unchecked. -/
def Obligations.LdiLoadsTheAddress : Prop :=
  (∀ (strict : Bool) (op : Opcode), op &&& 0xF000#16 = 0xA000#16 → decodeUnder strict op = .ok (.ldi (fieldNNN op))) ∧
  ∀ (nnn : Addr) (s : State),
    (s.pc.toNat + 2 ≤ 0xFFF → ∃ t, exec (.ldi nnn) s = .next t ∧ t.i.toNat = nnn.toNat ∧
      t.pc.toNat = s.pc.toNat + 2 ∧ t = { s with i := t.i, pc := t.pc }) ∧
    (0xFFF < s.pc.toNat + 2 → exec (.ldi nnn) s = .next (s.raise .addressOutOfRange))

/-- R241: ADDI adds Vx to I with no bounds check at 4096 and no flag; only a sum above 0xFFFF raises. -/
def Obligations.AddiFaultsOnlyPast16Bits : Prop :=
  (∀ (strict : Bool) (op : Opcode), op &&& 0xF0FF#16 = 0xF01E#16 → decodeUnder strict op = .ok (.addi (fieldX op))) ∧
  ∀ (x : RegIdx) (s : State),
    (s.i.toNat + (s.getV x).toNat ≤ 0xFFFF → s.pc.toNat + 2 ≤ 0xFFF → ∃ t, exec (.addi x) s = .next t ∧
      t.i.toNat = s.i.toNat + (s.getV x).toNat ∧ t.pc.toNat = s.pc.toNat + 2 ∧ t = { s with i := t.i, pc := t.pc }) ∧
    (0xFFFF < s.i.toNat + (s.getV x).toNat → exec (.addi x) s = .next (s.raise .addressOutOfRange)) ∧
    (s.i.toNat + (s.getV x).toNat ≤ 0xFFFF → 0xFFF < s.pc.toNat + 2 →
      exec (.addi x) s = .next (s.raise .addressOutOfRange))

/-- R242: LDS points I at glyph Vx, at Vx × 5; a digit above 15 raises InvalidSpriteIndex under LDS_CHECK = fault, which this
hardware has, and is accepted under LDS_CHECK = unchecked. -/
def Obligations.LdsPointsAtTheGlyph : Prop :=
  (∀ (strict : Bool) (op : Opcode), op &&& 0xF0FF#16 = 0xF029#16 → decodeUnder strict op = .ok (.lds (fieldX op))) ∧
  (∀ (x : RegIdx) (s : State),
    ((s.getV x).toNat ≤ 15 → s.pc.toNat + 2 ≤ 0xFFF → ∃ t, exec (.lds x) s = .next t ∧
      t.i.toNat = (s.getV x).toNat * 5 ∧ t.pc.toNat = s.pc.toNat + 2 ∧ t = { s with i := t.i, pc := t.pc }) ∧
    ((s.getV x).toNat ≤ 15 → 0xFFF < s.pc.toNat + 2 → exec (.lds x) s = .next (s.raise .addressOutOfRange)) ∧
    (15 < (s.getV x).toNat → exec (.lds x) s = .next (s.raise .invalidSpriteIndex))) ∧
  ∀ (c : Config) (x : RegIdx) (s : State), s.pc.toNat + 2 ≤ 0xFFF →
    (c.ldsCheck = .unchecked → ∃ t, execUnder c (.lds x) s = .next t ∧
      t.i.toNat = (s.getV x).toNat * 5 ∧ t.pc.toNat = s.pc.toNat + 2 ∧ t = { s with i := t.i, pc := t.pc }) ∧
    (c.ldsCheck = .fault → 15 < (s.getV x).toNat → execUnder c (.lds x) s = .next (s.raise .invalidSpriteIndex))

/-- R243: BCD stores the hundreds, tens and ones of Vx at I, I + 1, I + 2 and leaves I alone; if one of the three addresses does
not exist nothing is stored. -/
def Obligations.BcdStoresDecimalDigits : Prop :=
  (∀ (strict : Bool) (op : Opcode), op &&& 0xF0FF#16 = 0xF033#16 → decodeUnder strict op = .ok (.bcd (fieldX op))) ∧
  ∀ (x : RegIdx) (s : State),
    (s.i.toNat + 3 ≤ 4096 → s.pc.toNat + 2 ≤ 0xFFF → ∃ t, exec (.bcd x) s = .next t ∧
      (t.readByte Config.hardware s.i.toNat).toNat = (s.getV x).toNat / 100 ∧
      (t.readByte Config.hardware (s.i.toNat + 1)).toNat = (s.getV x).toNat / 10 % 10 ∧
      (t.readByte Config.hardware (s.i.toNat + 2)).toNat = (s.getV x).toNat % 10 ∧
      (∀ a, a < s.i.toNat ∨ s.i.toNat + 3 ≤ a → t.readByte Config.hardware a = s.readByte Config.hardware a) ∧
      t.pc.toNat = s.pc.toNat + 2 ∧ t = { s with mem := t.mem, pc := t.pc }) ∧
    (4096 < s.i.toNat + 3 → exec (.bcd x) s = .next (s.raise .addressOutOfRange)) ∧
    (s.i.toNat + 3 ≤ 4096 → 0xFFF < s.pc.toNat + 2 → exec (.bcd x) s = .next (s.raise .addressOutOfRange))

/-- R244: SR stores V0 to Vx from I on and advances I by x + 1; if one of the addresses does not exist nothing is stored. -/
def Obligations.SrStoresRegistersAndAdvancesI : Prop :=
  (∀ (strict : Bool) (op : Opcode), op &&& 0xF0FF#16 = 0xF055#16 → decodeUnder strict op = .ok (.sr (fieldX op))) ∧
  ∀ (x : RegIdx) (s : State),
    (s.i.toNat + x.toNat + 1 ≤ 4096 → s.pc.toNat + 2 ≤ 0xFFF → ∃ t, exec (.sr x) s = .next t ∧
      (∀ k : RegIdx, k.toNat ≤ x.toNat → t.readByte Config.hardware (s.i.toNat + k.toNat) = s.getV k) ∧
      (∀ a, a < s.i.toNat ∨ s.i.toNat + x.toNat + 1 ≤ a →
        t.readByte Config.hardware a = s.readByte Config.hardware a) ∧
      t.i.toNat = s.i.toNat + x.toNat + 1 ∧ t.pc.toNat = s.pc.toNat + 2 ∧
      t = { s with mem := t.mem, i := t.i, pc := t.pc }) ∧
    (4096 < s.i.toNat + x.toNat + 1 → exec (.sr x) s = .next (s.raise .addressOutOfRange)) ∧
    (s.i.toNat + x.toNat + 1 ≤ 4096 → 0xFFF < s.pc.toNat + 2 → exec (.sr x) s = .next (s.raise .addressOutOfRange))

/-- R245: LR loads V0 to Vx from I on and advances I by x + 1; if one of the addresses does not exist no register is written. -/
def Obligations.LrLoadsRegistersAndAdvancesI : Prop :=
  (∀ (strict : Bool) (op : Opcode), op &&& 0xF0FF#16 = 0xF065#16 → decodeUnder strict op = .ok (.lr (fieldX op))) ∧
  ∀ (x : RegIdx) (s : State),
    (s.i.toNat + x.toNat + 1 ≤ 4096 → s.pc.toNat + 2 ≤ 0xFFF → ∃ t, exec (.lr x) s = .next t ∧
      (∀ k : RegIdx, k.toNat ≤ x.toNat → t.getV k = s.readByte Config.hardware (s.i.toNat + k.toNat)) ∧
      (∀ k : RegIdx, x.toNat < k.toNat → t.getV k = s.getV k) ∧
      t.i.toNat = s.i.toNat + x.toNat + 1 ∧ t.pc.toNat = s.pc.toNat + 2 ∧
      t = { s with v := t.v, i := t.i, pc := t.pc }) ∧
    (4096 < s.i.toNat + x.toNat + 1 → exec (.lr x) s = .next (s.raise .addressOutOfRange)) ∧
    (s.i.toNat + x.toNat + 1 ≤ 4096 → 0xFFF < s.pc.toNat + 2 → exec (.lr x) s = .next (s.raise .addressOutOfRange))

/-- R70: under FONT_WRITE = ignore a store to a font byte has no effect and the instruction's other effects take place; by
default, and this hardware's setting, the font bytes are stored to like any other. -/
def Obligations.FontBytesFollowFontWrite : Prop :=
  Config.hardware.fontWrite = .write ∧
  (∀ (c : Config) (x : RegIdx) (s t : State), s.i.toNat + 3 ≤ 4096 → s.pc.toNat + 2 ≤ 0xFFF →
    execUnder c (.bcd x) s = .next t →
    (c.fontWrite = .ignore → (∀ a, a < 80 → t.readByte c a = s.readByte c a) ∧
      (80 ≤ s.i.toNat → (t.readByte c s.i.toNat).toNat = (s.getV x).toNat / 100) ∧
      (80 ≤ s.i.toNat + 1 → (t.readByte c (s.i.toNat + 1)).toNat = (s.getV x).toNat / 10 % 10) ∧
      (80 ≤ s.i.toNat + 2 → (t.readByte c (s.i.toNat + 2)).toNat = (s.getV x).toNat % 10)) ∧
    (c.fontWrite = .write → (t.readByte c s.i.toNat).toNat = (s.getV x).toNat / 100 ∧
      (t.readByte c (s.i.toNat + 1)).toNat = (s.getV x).toNat / 10 % 10 ∧
      (t.readByte c (s.i.toNat + 2)).toNat = (s.getV x).toNat % 10) ∧
    t.pc.toNat = s.pc.toNat + 2) ∧
  (∀ (c : Config) (x : RegIdx) (s t : State), s.i.toNat + x.toNat + 1 ≤ 4096 → s.pc.toNat + 2 ≤ 0xFFF →
    execUnder c (.sr x) s = .next t →
    (c.fontWrite = .ignore → (∀ a, a < 80 → t.readByte c a = s.readByte c a) ∧
      (∀ k : RegIdx, k.toNat ≤ x.toNat → 80 ≤ s.i.toNat + k.toNat →
        t.readByte c (s.i.toNat + k.toNat) = s.getV k)) ∧
    (c.fontWrite = .write → ∀ k : RegIdx, k.toNat ≤ x.toNat → t.readByte c (s.i.toNat + k.toNat) = s.getV k) ∧
    t.i.toNat = s.i.toNat + x.toNat + 1 ∧ t.pc.toNat = s.pc.toNat + 2)

/-- R77, R357: a byte that BCD or SR stores is what a fetch at that address then sees, in the high half at PC and the low half at
PC + 1 (R61): SR's byte k is Vk, BCD's byte j the j-th of the three decimal digits of Vx, hundreds first. -/
def Obligations.FetchSeesStoredBytes : Prop :=
  ∀ (x : RegIdx) (s t u : State) (op : Opcode), s.halted = false →
    (exec (.sr x) s = .next t ∨ exec (.bcd x) s = .next t) → t.halted = false → u.mem = t.mem →
    u.fetch Config.hardware = .ok op →
    highByte op = t.readByte Config.hardware u.pc.toNat ∧ lowByte op = t.readByte Config.hardware (u.pc.toNat + 1) ∧
    (∀ k : RegIdx, exec (.sr x) s = .next t → k.toNat ≤ x.toNat →
      (u.pc.toNat = s.i.toNat + k.toNat → highByte op = s.getV k) ∧
      (u.pc.toNat + 1 = s.i.toNat + k.toNat → lowByte op = s.getV k)) ∧
    (∀ j : Nat, exec (.bcd x) s = .next t → j < 3 →
      (u.pc.toNat = s.i.toNat + j → (highByte op).toNat = (s.getV x).toNat / 10 ^ (2 - j) % 10) ∧
      (u.pc.toNat + 1 = s.i.toNat + j → (lowByte op).toNat = (s.getV x).toNat / 10 ^ (2 - j) % 10))

/-! ## Keypad and timers (45_keys_timers.md, 60_exceptions.md) -/

/-- R270, R271: SKP skips exactly if the key Vx names is pressed, SKNP exactly if it is not; an index above 15 raises
InvalidKeyIndex under KEY_INDEX_POLICY = fault, this hardware's, and is taken mod 16 under KEY_INDEX_POLICY = mask. -/
def Obligations.KeySkipsReadTheSnapshot : Prop :=
  (∀ (strict : Bool) (op : Opcode), op &&& 0xF0FF#16 = 0xE09E#16 → decodeUnder strict op = .ok (.skp (fieldX op))) ∧
  (∀ (strict : Bool) (op : Opcode), op &&& 0xF0FF#16 = 0xE0A1#16 → decodeUnder strict op = .ok (.sknp (fieldX op))) ∧
  (∀ (x : RegIdx) (s : State),
    (∀ k : RegIdx, (s.getV x).toNat = k.toNat →
      (s.keyDown k = true → s.pc.toNat + 4 ≤ 0xFFF →
        ∃ t, exec (.skp x) s = .next t ∧ t.pc.toNat = s.pc.toNat + 4 ∧ t = { s with pc := t.pc }) ∧
      (s.keyDown k = false → s.pc.toNat + 2 ≤ 0xFFF →
        ∃ t, exec (.skp x) s = .next t ∧ t.pc.toNat = s.pc.toNat + 2 ∧ t = { s with pc := t.pc }) ∧
      (s.keyDown k = false → s.pc.toNat + 4 ≤ 0xFFF →
        ∃ t, exec (.sknp x) s = .next t ∧ t.pc.toNat = s.pc.toNat + 4 ∧ t = { s with pc := t.pc }) ∧
      (s.keyDown k = true → s.pc.toNat + 2 ≤ 0xFFF →
        ∃ t, exec (.sknp x) s = .next t ∧ t.pc.toNat = s.pc.toNat + 2 ∧ t = { s with pc := t.pc }) ∧
      (s.keyDown k = true → 0xFFF < s.pc.toNat + 4 → exec (.skp x) s = .next (s.raise .addressOutOfRange)) ∧
      (s.keyDown k = false → 0xFFF < s.pc.toNat + 2 → exec (.skp x) s = .next (s.raise .addressOutOfRange)) ∧
      (s.keyDown k = false → 0xFFF < s.pc.toNat + 4 → exec (.sknp x) s = .next (s.raise .addressOutOfRange)) ∧
      (s.keyDown k = true → 0xFFF < s.pc.toNat + 2 → exec (.sknp x) s = .next (s.raise .addressOutOfRange))) ∧
    (15 < (s.getV x).toNat → exec (.skp x) s = .next (s.raise .invalidKeyIndex) ∧
      exec (.sknp x) s = .next (s.raise .invalidKeyIndex))) ∧
  ∀ (c : Config) (x : RegIdx) (s : State) (k : RegIdx), c.keyIndex = .mask → (s.getV x).toNat % 16 = k.toNat →
    s.pc.toNat + 4 ≤ 0xFFF →
    (∃ t, execUnder c (.skp x) s = .next t ∧ t = { s with pc := t.pc } ∧
      t.pc.toNat = s.pc.toNat + (if s.keyDown k = true then 4 else 2)) ∧
    (∃ t, execUnder c (.sknp x) s = .next t ∧ t = { s with pc := t.pc } ∧
      t.pc.toNat = s.pc.toNat + (if s.keyDown k = true then 2 else 4))

/-- R272: LDK stores the lowest pressed key at once; with none pressed it enters AwaitingKeypress, latches x and leaves PC; each
later step then stores the lowest pressed key in Vx and moves on, or, with none pressed, changes nothing. -/
def Obligations.LdkTakesAKeyOrWaits : Prop :=
  (∀ (strict : Bool) (op : Opcode), op &&& 0xF0FF#16 = 0xF00A#16 → decodeUnder strict op = .ok (.ldk (fieldX op))) ∧
  ∀ (x : RegIdx) (s : State),
    ((∀ k, s.keyDown k = false) → exec (.ldk x) s = .next { s with waiting := true, waitX := x }) ∧
    (∀ k0, s.keyDown k0 = true → (∀ k, s.keyDown k = true → k0.toNat ≤ k.toNat) →
      (s.pc.toNat + 2 ≤ 0xFFF → ∃ t, exec (.ldk x) s = .next t ∧ (t.getV x).toNat = k0.toNat ∧
        (∀ z, z ≠ x → t.getV z = s.getV z) ∧ t.pc.toNat = s.pc.toNat + 2 ∧ t = { s with v := t.v, pc := t.pc }) ∧
      (0xFFF < s.pc.toNat + 2 → exec (.ldk x) s = .next (s.raise .addressOutOfRange))) ∧
    (s.halted = false → s.paused = false → s.loaded = true → s.waiting = true → s.waitX = x →
      ((∀ k, s.keyDown k = false) → step s = .next s) ∧
      (∀ k0, s.keyDown k0 = true → (∀ k, s.keyDown k = true → k0.toNat ≤ k.toNat) →
        (s.pc.toNat + 2 ≤ 0xFFF → ∃ t, step s = .next t ∧ (t.getV x).toNat = k0.toNat ∧ t.waiting = false ∧
          t.pc.toNat = s.pc.toNat + 2) ∧
        (0xFFF < s.pc.toNat + 2 → step s = .next (s.raise .addressOutOfRange))))

/-- R273, R274, R275: LDDV reads DT, LDVD writes DT, LDST writes ST and leaves BEEP to the next tick. -/
def Obligations.TimerMovesCopyTheByte : Prop :=
  (∀ (strict : Bool) (op : Opcode), op &&& 0xF0FF#16 = 0xF007#16 → decodeUnder strict op = .ok (.lddv (fieldX op))) ∧
  (∀ (strict : Bool) (op : Opcode), op &&& 0xF0FF#16 = 0xF015#16 → decodeUnder strict op = .ok (.ldvd (fieldX op))) ∧
  (∀ (strict : Bool) (op : Opcode), op &&& 0xF0FF#16 = 0xF018#16 → decodeUnder strict op = .ok (.ldst (fieldX op))) ∧
  ∀ (x : RegIdx) (s : State),
    (s.pc.toNat + 2 ≤ 0xFFF →
      (∃ t, exec (.lddv x) s = .next t ∧ t.getV x = s.dt ∧ (∀ z, z ≠ x → t.getV z = s.getV z) ∧
        t.pc.toNat = s.pc.toNat + 2 ∧ t = { s with v := t.v, pc := t.pc }) ∧
      (∃ t, exec (.ldvd x) s = .next t ∧ t.dt = s.getV x ∧ t.pc.toNat = s.pc.toNat + 2 ∧
        t = { s with dt := t.dt, pc := t.pc }) ∧
      (∃ t, exec (.ldst x) s = .next t ∧ t.st = s.getV x ∧ t.pc.toNat = s.pc.toNat + 2 ∧
        t = { s with st := t.st, pc := t.pc })) ∧
    (0xFFF < s.pc.toNat + 2 → exec (.lddv x) s = .next (s.raise .addressOutOfRange) ∧
      exec (.ldvd x) s = .next (s.raise .addressOutOfRange) ∧ exec (.ldst x) s = .next (s.raise .addressOutOfRange))

/-- R311, R313: a tick counts DT and ST down by 1 where non-zero, sets BEEP to whether ST was non-zero before it, and touches
nothing else, in every state. -/
def Obligations.TickCountsDown : Prop :=
  ∀ s : State,
    s.tick.dt.toNat = s.dt.toNat - 1 ∧ s.tick.st.toNat = s.st.toNat - 1 ∧
    (s.tick.beep = true ↔ 0 < s.st.toNat) ∧
    s.tick = { s with dt := s.tick.dt, st := s.tick.st, beep := s.tick.beep }

/-! ## Host transactions (60_exceptions.md, 70_reset_and_hazards.md, 10_state.md) -/

/-- R314, R316: set_keys replaces all of KEYS and nothing else; pause and resume set and clear PAUSED and nothing else, and do
nothing while HALTED. -/
def Obligations.KeysAndPauseTransactions : Prop :=
  ∀ (s : State) (snapshot : Vector Bool 16),
    ((∀ k : RegIdx, (s.setKeys snapshot).keyDown k = snapshot[k.toNat]'k.isLt) ∧
      s.setKeys snapshot = { s with keys := snapshot }) ∧
    (s.halted = true → s.pause = s ∧ s.resume = s) ∧
    (s.halted = false → s.pause = { s with paused := true } ∧ s.resume = { s with paused := false })

/-- R46, R350: after reset every element has its reset value, whatever the state before. -/
def Obligations.ResetSetsEveryElement : Prop :=
  ∀ s t : State, t = s.resetNow →
    (∀ x, t.getV x = 0#8) ∧ t.i = 0#16 ∧ t.pc = 0x200#12 ∧ t.sp = 0#5 ∧ (∀ j, j < 16 → t.stackAt j = some 0#12) ∧
    t.dt = 0#8 ∧ t.st = 0#8 ∧ (∀ x y, t.pixel x y = false) ∧ (∀ k, t.keyDown k = false) ∧
    t.halted = false ∧ t.paused = false ∧ t.waiting = false ∧ t.loaded = false ∧ t.waitX = 0#4 ∧
    t.err.code = 0#3 ∧ t.beep = false ∧
    (∀ a (h : a < 80), t.readByte Config.hardware a = fontTable[a]) ∧
    (∀ a, 80 ≤ a → a < 4096 → t.readByte Config.hardware a = 0#8)

/-- R352, R72: a load of at most 3584 bytes leaves the reset state with LOADED = 1 and the image at 0x200 on, zeros after it; a
longer one halts with LoadTooLarge and changes nothing else. -/
def Obligations.LoadCopiesTheImage : Prop :=
  ∀ (s : State) (image : List Byte),
    (image.length ≤ 3584 → ∀ t, t = s.load Config.hardware image → loadReply image = .success ∧
      (∀ j (h : j < image.length), t.readByte Config.hardware (0x200 + j) = image[j]) ∧
      (∀ a, a < 0x200 ∨ 0x200 + image.length ≤ a →
        t.readByte Config.hardware a = s.resetNow.readByte Config.hardware a) ∧
      t = { s.resetNow with loaded := true, mem := t.mem, draws := t.draws } ∧ t.runState = .running) ∧
    (3584 < image.length → loadReply image = .loadTooLarge ∧
      s.load Config.hardware image = { s with halted := true, err := .loadTooLarge })

/-- R40, R320: status() gives the run state of the control bits with its 2-bit code, and the ERR code, which for each of the eight
names is R301's; a pause taken while AwaitingKeypress returns there on resume. -/
def Obligations.StatusReportsRunState : Prop :=
  ∀ s : State,
    (s.halted = true → s.status = (3#2, s.err.code)) ∧
    (s.halted = false → s.paused = true → s.status = (1#2, s.err.code)) ∧
    (s.halted = false → s.paused = false → s.waiting = true → s.status = (2#2, s.err.code)) ∧
    (s.halted = false → s.paused = false → s.waiting = false → s.status = (0#2, s.err.code)) ∧
    (s.halted = false → s.waiting = true → s.pause.runState = .paused ∧ s.pause.resume.runState = .awaitingKeypress) ∧
    (s.err = .none → s.status.2 = 0#3) ∧ (s.err = .loadTooLarge → s.status.2 = 1#3) ∧
    (s.err = .decodeFailure → s.status.2 = 2#3) ∧ (s.err = .stackOverflow → s.status.2 = 3#3) ∧
    (s.err = .stackUnderflow → s.status.2 = 4#3) ∧ (s.err = .addressOutOfRange → s.status.2 = 5#3) ∧
    (s.err = .invalidSpriteIndex → s.status.2 = 6#3) ∧ (s.err = .invalidKeyIndex → s.status.2 = 7#3)

/-- R38, R300, R306: once HALTED, only reset and a successful load clear HALTED; every other transaction keeps HALTED and ERR but a
failed load, whose error it is then. -/
def Obligations.OnlyResetAndLoadLeaveHalted : Prop :=
  ∀ (s t : State) (tr : Transaction), s.halted = true → applyTransaction s tr = .next t →
    (t.halted = false → tr = .reset ∨ ∃ image, tr = .load image ∧ image.length ≤ 3584) ∧
    (t.halted = true → t.err = s.err ∨ (t.err = .loadTooLarge ∧ ∃ image, tr = .load image ∧ 3584 < image.length)) ∧
    (tr = .step → t = s)

/-! ## Frames and whole-machine rules (10_state.md) -/

/-- R22: an instruction that is none of the six flag setters leaves VF alone unless VF is a named destination; and where a flag
setter's destination is VF itself, VF ends with the flag. -/
def Obligations.OnlySixInstructionsSetTheFlag : Prop :=
  (∀ (i : Instr) (s t : State), setsFlag i = false → ¬ namesDest vf i → exec i s = .next t → t.getV vf = s.getV vf) ∧
  (∀ (i : Instr) (s t : State), setsFlag i = true → s.halted = false → exec i s = .next t → t.halted = false →
    t.getV vf = 0#8 ∨ t.getV vf = 1#8)

/-- R27: only LDI, ADDI, LDS, SR and LR write I. -/
def Obligations.OnlyFiveInstructionsWriteI : Prop :=
  ∀ (i : Instr) (s t : State),
    (∀ nnn, i ≠ .ldi nnn) → (∀ x, i ≠ .addi x) → (∀ x, i ≠ .lds x) → (∀ x, i ≠ .sr x) → (∀ x, i ≠ .lr x) →
    exec i s = .next t → t.i = s.i

/-- The frame of the register instructions, R23: each changes only its destination register, VF as the flag, PC, and RND the draw
count, which is the model's own (log entry 4). LDK, which may enter a wait, is with the keypad instructions. -/
def Obligations.FrameOfRegisterInstructions : Prop :=
  ∀ (x y : RegIdx) (kk : Byte),
    frameHolds (.lbr x kk) ∧ frameHolds (.abr x kk) ∧ frameHolds (.lrr x y) ∧ frameHolds (.or x y) ∧
    frameHolds (.and x y) ∧ frameHolds (.xor x y) ∧ frameHolds (.add x y) ∧ frameHolds (.sub x y) ∧
    frameHolds (.shr x) ∧ frameHolds (.subn x y) ∧ frameHolds (.shl x) ∧ frameHolds (.rnd x kk) ∧ frameHolds (.lddv x)

/-- The frame of the jumps and skips, R23: JMP, JPV0 and the six skips change nothing but PC, CALL the entry it pushes and SP, RET
SP. -/
def Obligations.FrameOfControlFlow : Prop :=
  ∀ (x y : RegIdx) (kk : Byte) (nnn : Addr),
    frameHolds (.jmp nnn) ∧ frameHolds (.jpv0 nnn) ∧ frameHolds (.seqb x kk) ∧ frameHolds (.sneqb x kk) ∧
    frameHolds (.srer x y) ∧ frameHolds (.sne x y) ∧ frameHolds (.skp x) ∧ frameHolds (.sknp x) ∧
    frameHolds (.call nnn) ∧ frameHolds .ret

/-- The frame of the address-register instructions and LR, R23: LDI, ADDI and LDS change I alone, LR V0 to Vx and I; none stores
a byte. -/
def Obligations.FrameOfAddressRegisterInstructions : Prop :=
  ∀ (x : RegIdx) (nnn : Addr),
    frameHolds (.ldi nnn) ∧ frameHolds (.addi x) ∧ frameHolds (.lds x) ∧ frameHolds (.lr x)

/-- The frame of the storing instructions, R23, R64: BCD changes three bytes from MEM[I] on, SR x + 1 bytes and I; no register. -/
def Obligations.FrameOfStores : Prop :=
  ∀ x : RegIdx, frameHolds (.bcd x) ∧ frameHolds (.sr x)

/-- The frame of the display, keypad and timer instructions, R23: CLS and DRW change pixels (DRW only covered ones, and VF), LDK its
destination or WAITING and WAIT_X, LDVD DT, LDST ST. -/
def Obligations.FrameOfDisplayKeypadAndTimers : Prop :=
  ∀ (x y : RegIdx) (n : BitVec 4),
    frameHolds .cls ∧ frameHolds (.drw x y n) ∧ frameHolds (.ldk x) ∧ frameHolds (.ldvd x) ∧ frameHolds (.ldst x)

/-! ## Headline results -/

/-- The invariant holds at reset: canonical memory (the model's own form, log entry 7), SP legal (R29), ERR none exactly while
HALTED = 0 (R43), and no wait (R41). -/
def Obligations.ResetSatisfiesInvariant : Prop := State.reset.Inv

/-- Every step keeps the invariant: canonical memory (the model's own form, log entry 7), SP in [0, 16] (R29), ERR none exactly
while HALTED = 0 (R43), and PC at the LDK that waits (R41). -/
def Obligations.StepKeepsInvariant : Prop := ∀ s t : State, s.Inv → step s = .next t → t.Inv

/-- From a state that meets the invariant every step answers a next state: the model neither faults nor refuses. Its one fault is
the model's choice for an SP that R29 says does not occur (log entry 6). -/
def Obligations.InvariantStatesNeverStop : Prop := ∀ s : State, s.Inv → ∃ t, step s = .next t

/-- Every run of host transactions, in any order (R131, R320, R321), from a state that meets the invariant answers a state that
meets it: canonical memory (the model's own form, log entry 7), SP in [0, 16] (R29), ERR none exactly while HALTED = 0 (R43), and
PC at the LDK that waits (R41); reset and load keep it by R350 and R352. That the run answers a state at all is that the model's
one stop, for an SP outside [0, 16], is never met (log entry 6). -/
def Obligations.EveryTransactionRunKeepsInvariant : Prop :=
  ∀ (s : State) (ts : List Transaction), s.Inv → ∃ t, runTransactions s ts = .next t ∧ t.Inv

/-- R45: what no instruction reads has no influence. Two states that agree but for ST, BEEP, the popped stack entries and WAIT_X
outside a wait step to results that agree in the same sense. -/
def Obligations.HiddenStateHasNoInfluence : Prop :=
  ∀ s t : State, agreeButHidden s t → resultsAgree (step s) (step t)
end

