-- ==== Sys2Proof/Laws/Memory.lean ====
section
/-! SUPPORT. Memory: a byte written is read back and every other byte is as before; every operation keeps the canonical form. -/

namespace Sys2Proof.Machine.Memory

/-! ## Reading what was written -/

theorem lookup_insert (a b : Nat) (u : Byte) (m : Memory) :
    Memory.lookup b (Memory.insert a u m) = if b = a then some u else Memory.lookup b m := by
  induction m with
  | nil => simp [Memory.insert, Memory.lookup, eq_comm]
  | cons p m ih =>
    obtain ⟨k, w⟩ := p
    simp only [Memory.insert]
    split
    · simp [Memory.lookup, eq_comm]
    · split
      · rename_i h; subst h
        by_cases h : a = b
        · simp [Memory.lookup, h]
        · simp [Memory.lookup, h, Ne.symm h]
      · rename_i h1 h2
        simp only [Memory.lookup, ih]
        by_cases h : b = a
        · subst h; simp [Ne.symm h2]
        · simp [h]

theorem lookup_erase (a b : Nat) (m : Memory) :
    Memory.lookup b (Memory.erase a m) = if b = a then none else Memory.lookup b m := by
  induction m with
  | nil => simp [Memory.erase, Memory.lookup]
  | cons p m ih =>
    obtain ⟨k, w⟩ := p
    simp only [Memory.erase]
    split
    · rename_i h; subst h
      rw [ih]
      by_cases h : b = k
      · simp [h]
      · simp [h, Memory.lookup, Ne.symm h]
    · rename_i h
      simp only [Memory.lookup, ih]
      by_cases hb : b = a
      · subst hb; simp [h]
      · simp [hb]

/-- A byte written below 4096 is read back, and every other byte is as before (R66, R69, R73). -/
theorem read_write (c : Config) (m : Memory) (a b : Nat) (u : Byte) :
    (m.write c a u).read c b = if b = a ∧ a < memSize then u else m.read c b := by
  unfold Memory.write
  by_cases hs : memSize ≤ a
  · simp [hs, Nat.not_lt.mpr hs]
  · have hl : a < memSize := Nat.lt_of_not_le hs
    simp only [hs, if_false, hl, and_true]
    split
    · rename_i hu
      unfold Memory.read
      rw [lookup_erase]
      by_cases h : b = a
      · subst h; simp [hu]
      · simp [h]
    · unfold Memory.read
      rw [lookup_insert]
      by_cases h : b = a <;> simp [h]

/-- Outside the bytes written, consecutive writes leave memory as it was. -/
theorem read_writeList_outside (c : Config) (us : List Byte) (m : Memory) (a b : Nat)
    (h : b < a ∨ a + us.length ≤ b) : (Memory.writeList c m a us).read c b = m.read c b := by
  induction us generalizing m a with
  | nil => rfl
  | cons u us ih =>
    simp only [List.length_cons] at h
    rw [Memory.writeList, ih _ _ (by omega), read_write]
    have : b ≠ a := by omega
    simp [this]

/-- The k-th of consecutive bytes written is read back. -/
theorem read_writeList_inside (c : Config) (us : List Byte) (m : Memory) (a k : Nat)
    (hk : k < us.length) (hm : a + us.length ≤ memSize) :
    (Memory.writeList c m a us).read c (a + k) = us[k] := by
  induction us generalizing m a k with
  | nil => simp at hk
  | cons u us ih =>
    simp only [List.length_cons] at hk hm
    cases k with
    | zero =>
      rw [Memory.writeList, read_writeList_outside _ _ _ _ _ (by omega), read_write]
      have : a < memSize := by omega
      simp [this]
    | succ k =>
      have := ih (m.write c a u) (a + 1) k (by omega) (by omega)
      rw [Memory.writeList]
      simpa [Nat.add_assoc, Nat.add_comm 1 k] using this

/-! ## The canonical form -/

/-- The form without the bound on the first address, for induction. -/
theorem risingFrom_mono {lo lo' : Nat} (h : lo' ≤ lo) (m : Memory) (hm : Memory.risingFrom lo m = true) :
    Memory.risingFrom lo' m = true := by
  cases m with
  | nil => rfl
  | cons p m =>
    obtain ⟨a, w⟩ := p
    simp only [Memory.risingFrom, Bool.and_eq_true, decide_eq_true_eq] at hm ⊢
    exact ⟨by omega, hm.2⟩

theorem risingFrom_insert (a : Nat) (u : Byte) (m : Memory) (lo : Nat) (hlo : lo ≤ a)
    (hm : Memory.risingFrom lo m = true) : Memory.risingFrom lo (Memory.insert a u m) = true := by
  induction m generalizing lo with
  | nil => simp [Memory.insert, Memory.risingFrom, hlo]
  | cons p m ih =>
    obtain ⟨k, w⟩ := p
    simp only [Memory.risingFrom, Bool.and_eq_true, decide_eq_true_eq] at hm
    simp only [Memory.insert]
    split
    · rename_i h; simp [Memory.risingFrom, hlo, hm.2]; omega
    · split
      · rename_i h; subst h; simp [Memory.risingFrom, hlo, hm.2]
      · simp only [Memory.risingFrom, Bool.and_eq_true, decide_eq_true_eq]
        exact ⟨hm.1, ih _ (by omega) hm.2⟩

theorem risingFrom_erase (a : Nat) (m : Memory) (lo : Nat) (hm : Memory.risingFrom lo m = true) :
    Memory.risingFrom lo (Memory.erase a m) = true := by
  induction m generalizing lo with
  | nil => rfl
  | cons p m ih =>
    obtain ⟨k, w⟩ := p
    simp only [Memory.risingFrom, Bool.and_eq_true, decide_eq_true_eq] at hm
    simp only [Memory.erase]
    split
    · exact risingFrom_mono (by omega) _ (ih _ hm.2)
    · simp only [Memory.risingFrom, Bool.and_eq_true, decide_eq_true_eq]
      exact ⟨hm.1, ih _ hm.2⟩

theorem mem_insert {p : Nat × Byte} {a : Nat} {u : Byte} {m : Memory} (h : p ∈ Memory.insert a u m) :
    p = (a, u) ∨ p ∈ m := by
  induction m with
  | nil => simpa [Memory.insert] using h
  | cons q m ih =>
    obtain ⟨k, w⟩ := q
    simp only [Memory.insert] at h
    split at h
    · simpa using h
    · split at h
      · rcases List.mem_cons.mp h with h | h
        · exact .inl h
        · exact .inr (List.mem_cons_of_mem _ h)
      · rcases List.mem_cons.mp h with h | h
        · exact .inr (by simp [h])
        · rcases ih h with h | h
          · exact .inl h
          · exact .inr (List.mem_cons_of_mem _ h)

theorem mem_erase {p : Nat × Byte} {a : Nat} {m : Memory} (h : p ∈ Memory.erase a m) : p ∈ m := by
  induction m with
  | nil => exact h
  | cons q m ih =>
    obtain ⟨k, w⟩ := q
    simp only [Memory.erase] at h
    split at h
    · exact List.mem_cons_of_mem _ (ih h)
    · rcases List.mem_cons.mp h with h | h
      · simp [h]
      · exact List.mem_cons_of_mem _ (ih h)

/-- Every write keeps the canonical form, whatever the address and the byte. -/
theorem wf_write (c : Config) (m : Memory) (a : Nat) (u : Byte) (hm : m.wf c = true) : (m.write c a u).wf c = true := by
  simp only [Memory.wf, Bool.and_eq_true, List.all_eq_true] at hm ⊢
  unfold Memory.write
  split
  · exact hm
  · rename_i hs
    split
    · exact ⟨risingFrom_erase _ _ _ hm.1, fun p hp => hm.2 p (mem_erase hp)⟩
    · rename_i hu
      refine ⟨risingFrom_insert _ _ _ _ (Nat.zero_le _) hm.1, fun p hp => ?_⟩
      rcases mem_insert hp with rfl | hp
      · simp only [decide_eq_true_eq, bne_iff_ne]
        exact ⟨by omega, hu⟩
      · exact hm.2 p hp

/-- Consecutive writes keep the canonical form. -/
theorem wf_writeList (c : Config) (us : List Byte) (m : Memory) (a : Nat) (hm : m.wf c = true) :
    (Memory.writeList c m a us).wf c = true := by
  induction us generalizing m a with
  | nil => exact hm
  | cons u us ih => exact ih _ _ (wf_write c m a u hm)

/-- The memory that lists nothing is in canonical form. -/
@[simp] theorem wf_nil (c : Config) : Memory.wf c [] = true := rfl

/-- A store by an instruction keeps the canonical form, under both settings of FONT_WRITE (R70). -/
theorem wf_writeByte (c : Config) (s : State) (a : Nat) (u : Byte) (hm : s.mem.wf c = true) :
    (s.writeByte c a u).mem.wf c = true := by
  unfold State.writeByte
  split
  · exact hm
  · exact wf_write c s.mem a u hm

end Sys2Proof.Machine.Memory
end

