-- ==== Sys2Proof/Laws/State.lean ====
section
/-! SUPPORT. One lemma for each field under each update of State, and the accessors under each update, so that no later proof
unfolds a record update. -/

namespace Sys2Proof.Machine.State

/-! ## setV -/

@[simp] theorem setV_i (s : State) (x : RegIdx) (b : Byte) : (s.setV x b).i = s.i := rfl
@[simp] theorem setV_pc (s : State) (x : RegIdx) (b : Byte) : (s.setV x b).pc = s.pc := rfl
@[simp] theorem setV_sp (s : State) (x : RegIdx) (b : Byte) : (s.setV x b).sp = s.sp := rfl
@[simp] theorem setV_stack (s : State) (x : RegIdx) (b : Byte) : (s.setV x b).stack = s.stack := rfl
@[simp] theorem setV_dt (s : State) (x : RegIdx) (b : Byte) : (s.setV x b).dt = s.dt := rfl
@[simp] theorem setV_st (s : State) (x : RegIdx) (b : Byte) : (s.setV x b).st = s.st := rfl
@[simp] theorem setV_mem (s : State) (x : RegIdx) (b : Byte) : (s.setV x b).mem = s.mem := rfl
@[simp] theorem setV_fb (s : State) (x : RegIdx) (b : Byte) : (s.setV x b).fb = s.fb := rfl
@[simp] theorem setV_keys (s : State) (x : RegIdx) (b : Byte) : (s.setV x b).keys = s.keys := rfl
@[simp] theorem setV_halted (s : State) (x : RegIdx) (b : Byte) : (s.setV x b).halted = s.halted := rfl
@[simp] theorem setV_paused (s : State) (x : RegIdx) (b : Byte) : (s.setV x b).paused = s.paused := rfl
@[simp] theorem setV_waiting (s : State) (x : RegIdx) (b : Byte) : (s.setV x b).waiting = s.waiting := rfl
@[simp] theorem setV_loaded (s : State) (x : RegIdx) (b : Byte) : (s.setV x b).loaded = s.loaded := rfl
@[simp] theorem setV_beep (s : State) (x : RegIdx) (b : Byte) : (s.setV x b).beep = s.beep := rfl
@[simp] theorem setV_waitX (s : State) (x : RegIdx) (b : Byte) : (s.setV x b).waitX = s.waitX := rfl
@[simp] theorem setV_err (s : State) (x : RegIdx) (b : Byte) : (s.setV x b).err = s.err := rfl
@[simp] theorem setV_draws (s : State) (x : RegIdx) (b : Byte) : (s.setV x b).draws = s.draws := rfl

/-! ## setStack -/

@[simp] theorem setStack_v (s : State) (j : Nat) (a : Addr) : (s.setStack j a).v = s.v := rfl
@[simp] theorem setStack_i (s : State) (j : Nat) (a : Addr) : (s.setStack j a).i = s.i := rfl
@[simp] theorem setStack_pc (s : State) (j : Nat) (a : Addr) : (s.setStack j a).pc = s.pc := rfl
@[simp] theorem setStack_sp (s : State) (j : Nat) (a : Addr) : (s.setStack j a).sp = s.sp := rfl
@[simp] theorem setStack_dt (s : State) (j : Nat) (a : Addr) : (s.setStack j a).dt = s.dt := rfl
@[simp] theorem setStack_st (s : State) (j : Nat) (a : Addr) : (s.setStack j a).st = s.st := rfl
@[simp] theorem setStack_mem (s : State) (j : Nat) (a : Addr) : (s.setStack j a).mem = s.mem := rfl
@[simp] theorem setStack_fb (s : State) (j : Nat) (a : Addr) : (s.setStack j a).fb = s.fb := rfl
@[simp] theorem setStack_keys (s : State) (j : Nat) (a : Addr) : (s.setStack j a).keys = s.keys := rfl
@[simp] theorem setStack_halted (s : State) (j : Nat) (a : Addr) : (s.setStack j a).halted = s.halted := rfl
@[simp] theorem setStack_paused (s : State) (j : Nat) (a : Addr) : (s.setStack j a).paused = s.paused := rfl
@[simp] theorem setStack_waiting (s : State) (j : Nat) (a : Addr) : (s.setStack j a).waiting = s.waiting := rfl
@[simp] theorem setStack_loaded (s : State) (j : Nat) (a : Addr) : (s.setStack j a).loaded = s.loaded := rfl
@[simp] theorem setStack_beep (s : State) (j : Nat) (a : Addr) : (s.setStack j a).beep = s.beep := rfl
@[simp] theorem setStack_waitX (s : State) (j : Nat) (a : Addr) : (s.setStack j a).waitX = s.waitX := rfl
@[simp] theorem setStack_err (s : State) (j : Nat) (a : Addr) : (s.setStack j a).err = s.err := rfl
@[simp] theorem setStack_draws (s : State) (j : Nat) (a : Addr) : (s.setStack j a).draws = s.draws := rfl

/-! ## setPixel -/

@[simp] theorem setPixel_v (s : State) (x : Fin 64) (y : Fin 32) (on : Bool) : (s.setPixel x y on).v = s.v := rfl
@[simp] theorem setPixel_i (s : State) (x : Fin 64) (y : Fin 32) (on : Bool) : (s.setPixel x y on).i = s.i := rfl
@[simp] theorem setPixel_pc (s : State) (x : Fin 64) (y : Fin 32) (on : Bool) : (s.setPixel x y on).pc = s.pc := rfl
@[simp] theorem setPixel_sp (s : State) (x : Fin 64) (y : Fin 32) (on : Bool) : (s.setPixel x y on).sp = s.sp := rfl
@[simp] theorem setPixel_stack (s : State) (x : Fin 64) (y : Fin 32) (on : Bool) : (s.setPixel x y on).stack = s.stack := rfl
@[simp] theorem setPixel_dt (s : State) (x : Fin 64) (y : Fin 32) (on : Bool) : (s.setPixel x y on).dt = s.dt := rfl
@[simp] theorem setPixel_st (s : State) (x : Fin 64) (y : Fin 32) (on : Bool) : (s.setPixel x y on).st = s.st := rfl
@[simp] theorem setPixel_mem (s : State) (x : Fin 64) (y : Fin 32) (on : Bool) : (s.setPixel x y on).mem = s.mem := rfl
@[simp] theorem setPixel_keys (s : State) (x : Fin 64) (y : Fin 32) (on : Bool) : (s.setPixel x y on).keys = s.keys := rfl
@[simp] theorem setPixel_halted (s : State) (x : Fin 64) (y : Fin 32) (on : Bool) : (s.setPixel x y on).halted = s.halted := rfl
@[simp] theorem setPixel_paused (s : State) (x : Fin 64) (y : Fin 32) (on : Bool) : (s.setPixel x y on).paused = s.paused := rfl
@[simp] theorem setPixel_waiting (s : State) (x : Fin 64) (y : Fin 32) (on : Bool) : (s.setPixel x y on).waiting = s.waiting := rfl
@[simp] theorem setPixel_loaded (s : State) (x : Fin 64) (y : Fin 32) (on : Bool) : (s.setPixel x y on).loaded = s.loaded := rfl
@[simp] theorem setPixel_beep (s : State) (x : Fin 64) (y : Fin 32) (on : Bool) : (s.setPixel x y on).beep = s.beep := rfl
@[simp] theorem setPixel_waitX (s : State) (x : Fin 64) (y : Fin 32) (on : Bool) : (s.setPixel x y on).waitX = s.waitX := rfl
@[simp] theorem setPixel_err (s : State) (x : Fin 64) (y : Fin 32) (on : Bool) : (s.setPixel x y on).err = s.err := rfl
@[simp] theorem setPixel_draws (s : State) (x : Fin 64) (y : Fin 32) (on : Bool) : (s.setPixel x y on).draws = s.draws := rfl

/-! ## clearScreen -/

@[simp] theorem clearScreen_v (s : State) : (s.clearScreen).v = s.v := rfl
@[simp] theorem clearScreen_i (s : State) : (s.clearScreen).i = s.i := rfl
@[simp] theorem clearScreen_pc (s : State) : (s.clearScreen).pc = s.pc := rfl
@[simp] theorem clearScreen_sp (s : State) : (s.clearScreen).sp = s.sp := rfl
@[simp] theorem clearScreen_stack (s : State) : (s.clearScreen).stack = s.stack := rfl
@[simp] theorem clearScreen_dt (s : State) : (s.clearScreen).dt = s.dt := rfl
@[simp] theorem clearScreen_st (s : State) : (s.clearScreen).st = s.st := rfl
@[simp] theorem clearScreen_mem (s : State) : (s.clearScreen).mem = s.mem := rfl
@[simp] theorem clearScreen_keys (s : State) : (s.clearScreen).keys = s.keys := rfl
@[simp] theorem clearScreen_halted (s : State) : (s.clearScreen).halted = s.halted := rfl
@[simp] theorem clearScreen_paused (s : State) : (s.clearScreen).paused = s.paused := rfl
@[simp] theorem clearScreen_waiting (s : State) : (s.clearScreen).waiting = s.waiting := rfl
@[simp] theorem clearScreen_loaded (s : State) : (s.clearScreen).loaded = s.loaded := rfl
@[simp] theorem clearScreen_beep (s : State) : (s.clearScreen).beep = s.beep := rfl
@[simp] theorem clearScreen_waitX (s : State) : (s.clearScreen).waitX = s.waitX := rfl
@[simp] theorem clearScreen_err (s : State) : (s.clearScreen).err = s.err := rfl
@[simp] theorem clearScreen_draws (s : State) : (s.clearScreen).draws = s.draws := rfl

/-! ## raise -/

@[simp] theorem raise_v (s : State) (e : Err) : (s.raise e).v = s.v := rfl
@[simp] theorem raise_i (s : State) (e : Err) : (s.raise e).i = s.i := rfl
@[simp] theorem raise_pc (s : State) (e : Err) : (s.raise e).pc = s.pc := rfl
@[simp] theorem raise_sp (s : State) (e : Err) : (s.raise e).sp = s.sp := rfl
@[simp] theorem raise_stack (s : State) (e : Err) : (s.raise e).stack = s.stack := rfl
@[simp] theorem raise_dt (s : State) (e : Err) : (s.raise e).dt = s.dt := rfl
@[simp] theorem raise_st (s : State) (e : Err) : (s.raise e).st = s.st := rfl
@[simp] theorem raise_mem (s : State) (e : Err) : (s.raise e).mem = s.mem := rfl
@[simp] theorem raise_fb (s : State) (e : Err) : (s.raise e).fb = s.fb := rfl
@[simp] theorem raise_keys (s : State) (e : Err) : (s.raise e).keys = s.keys := rfl
@[simp] theorem raise_paused (s : State) (e : Err) : (s.raise e).paused = s.paused := rfl
@[simp] theorem raise_waiting (s : State) (e : Err) : (s.raise e).waiting = s.waiting := rfl
@[simp] theorem raise_loaded (s : State) (e : Err) : (s.raise e).loaded = s.loaded := rfl
@[simp] theorem raise_beep (s : State) (e : Err) : (s.raise e).beep = s.beep := rfl
@[simp] theorem raise_waitX (s : State) (e : Err) : (s.raise e).waitX = s.waitX := rfl
@[simp] theorem raise_draws (s : State) (e : Err) : (s.raise e).draws = s.draws := rfl

@[simp] theorem raise_halted (s : State) (e : Err) : (s.raise e).halted = true := rfl
@[simp] theorem raise_err (s : State) (e : Err) : (s.raise e).err = e := rfl

/-! ## writeByte -/

@[simp] theorem writeByte_v (c : Config) (s : State) (a : Nat) (u : Byte) : (s.writeByte c a u).v = s.v := by
  unfold writeByte; split <;> rfl
@[simp] theorem writeByte_i (c : Config) (s : State) (a : Nat) (u : Byte) : (s.writeByte c a u).i = s.i := by
  unfold writeByte; split <;> rfl
@[simp] theorem writeByte_pc (c : Config) (s : State) (a : Nat) (u : Byte) : (s.writeByte c a u).pc = s.pc := by
  unfold writeByte; split <;> rfl
@[simp] theorem writeByte_sp (c : Config) (s : State) (a : Nat) (u : Byte) : (s.writeByte c a u).sp = s.sp := by
  unfold writeByte; split <;> rfl
@[simp] theorem writeByte_stack (c : Config) (s : State) (a : Nat) (u : Byte) : (s.writeByte c a u).stack = s.stack := by
  unfold writeByte; split <;> rfl
@[simp] theorem writeByte_dt (c : Config) (s : State) (a : Nat) (u : Byte) : (s.writeByte c a u).dt = s.dt := by
  unfold writeByte; split <;> rfl
@[simp] theorem writeByte_st (c : Config) (s : State) (a : Nat) (u : Byte) : (s.writeByte c a u).st = s.st := by
  unfold writeByte; split <;> rfl
@[simp] theorem writeByte_fb (c : Config) (s : State) (a : Nat) (u : Byte) : (s.writeByte c a u).fb = s.fb := by
  unfold writeByte; split <;> rfl
@[simp] theorem writeByte_keys (c : Config) (s : State) (a : Nat) (u : Byte) : (s.writeByte c a u).keys = s.keys := by
  unfold writeByte; split <;> rfl
@[simp] theorem writeByte_halted (c : Config) (s : State) (a : Nat) (u : Byte) : (s.writeByte c a u).halted = s.halted := by
  unfold writeByte; split <;> rfl
@[simp] theorem writeByte_paused (c : Config) (s : State) (a : Nat) (u : Byte) : (s.writeByte c a u).paused = s.paused := by
  unfold writeByte; split <;> rfl
@[simp] theorem writeByte_waiting (c : Config) (s : State) (a : Nat) (u : Byte) : (s.writeByte c a u).waiting = s.waiting := by
  unfold writeByte; split <;> rfl
@[simp] theorem writeByte_loaded (c : Config) (s : State) (a : Nat) (u : Byte) : (s.writeByte c a u).loaded = s.loaded := by
  unfold writeByte; split <;> rfl
@[simp] theorem writeByte_beep (c : Config) (s : State) (a : Nat) (u : Byte) : (s.writeByte c a u).beep = s.beep := by
  unfold writeByte; split <;> rfl
@[simp] theorem writeByte_waitX (c : Config) (s : State) (a : Nat) (u : Byte) : (s.writeByte c a u).waitX = s.waitX := by
  unfold writeByte; split <;> rfl
@[simp] theorem writeByte_err (c : Config) (s : State) (a : Nat) (u : Byte) : (s.writeByte c a u).err = s.err := by
  unfold writeByte; split <;> rfl
@[simp] theorem writeByte_draws (c : Config) (s : State) (a : Nat) (u : Byte) : (s.writeByte c a u).draws = s.draws := by
  unfold writeByte; split <;> rfl

/-- The memory after a store by an instruction (R70). -/
theorem writeByte_mem (c : Config) (s : State) (a : Nat) (u : Byte) :
    (s.writeByte c a u).mem =
      if c.fontWrite = .ignore ∧ a < fontLen then s.mem else s.mem.write c a u := by
  unfold writeByte; split <;> rfl

/-! ## storeWord -/

@[simp] theorem storeWord_v (c : Config) (s : State) (a : Nat) (op : Opcode) : (s.storeWord c a op).v = s.v := rfl
@[simp] theorem storeWord_i (c : Config) (s : State) (a : Nat) (op : Opcode) : (s.storeWord c a op).i = s.i := rfl
@[simp] theorem storeWord_pc (c : Config) (s : State) (a : Nat) (op : Opcode) : (s.storeWord c a op).pc = s.pc := rfl
@[simp] theorem storeWord_sp (c : Config) (s : State) (a : Nat) (op : Opcode) : (s.storeWord c a op).sp = s.sp := rfl
@[simp] theorem storeWord_stack (c : Config) (s : State) (a : Nat) (op : Opcode) : (s.storeWord c a op).stack = s.stack := rfl
@[simp] theorem storeWord_dt (c : Config) (s : State) (a : Nat) (op : Opcode) : (s.storeWord c a op).dt = s.dt := rfl
@[simp] theorem storeWord_st (c : Config) (s : State) (a : Nat) (op : Opcode) : (s.storeWord c a op).st = s.st := rfl
@[simp] theorem storeWord_fb (c : Config) (s : State) (a : Nat) (op : Opcode) : (s.storeWord c a op).fb = s.fb := rfl
@[simp] theorem storeWord_keys (c : Config) (s : State) (a : Nat) (op : Opcode) : (s.storeWord c a op).keys = s.keys := rfl
@[simp] theorem storeWord_halted (c : Config) (s : State) (a : Nat) (op : Opcode) : (s.storeWord c a op).halted = s.halted := rfl
@[simp] theorem storeWord_paused (c : Config) (s : State) (a : Nat) (op : Opcode) : (s.storeWord c a op).paused = s.paused := rfl
@[simp] theorem storeWord_waiting (c : Config) (s : State) (a : Nat) (op : Opcode) : (s.storeWord c a op).waiting = s.waiting := rfl
@[simp] theorem storeWord_loaded (c : Config) (s : State) (a : Nat) (op : Opcode) : (s.storeWord c a op).loaded = s.loaded := rfl
@[simp] theorem storeWord_beep (c : Config) (s : State) (a : Nat) (op : Opcode) : (s.storeWord c a op).beep = s.beep := rfl
@[simp] theorem storeWord_waitX (c : Config) (s : State) (a : Nat) (op : Opcode) : (s.storeWord c a op).waitX = s.waitX := rfl
@[simp] theorem storeWord_err (c : Config) (s : State) (a : Nat) (op : Opcode) : (s.storeWord c a op).err = s.err := rfl
@[simp] theorem storeWord_draws (c : Config) (s : State) (a : Nat) (op : Opcode) : (s.storeWord c a op).draws = s.draws := rfl

/-! ## Accessors see only their own field -/

/-- A register read depends on the registers alone. -/
theorem getV_of_v_eq {s t : State} (h : t.v = s.v) (x : RegIdx) : t.getV x = s.getV x := by simp [getV, h]

/-- A memory read depends on the memory alone. -/
theorem readByte_of_mem_eq {s t : State} (h : t.mem = s.mem) (c : Config) (a : Nat) :
    t.readByte c a = s.readByte c a := by simp [readByte, h]

/-- A pixel read depends on the framebuffer alone. -/
theorem pixel_of_fb_eq {s t : State} (h : t.fb = s.fb) (x : Fin 64) (y : Fin 32) : t.pixel x y = s.pixel x y := by
  simp [pixel, h]

/-- A stack read depends on the stack alone. -/
theorem stackAt_of_stack_eq {s t : State} (h : t.stack = s.stack) (j : Nat) : t.stackAt j = s.stackAt j := by
  simp [stackAt, h]

/-- The lowest pressed key depends on the keypad alone. -/
theorem lowestKey_of_keys_eq {s t : State} (h : t.keys = s.keys) : t.lowestKey = s.lowestKey := by
  have : t.keyDown = s.keyDown := by funext k; simp [keyDown, h]
  simp [lowestKey, this]

/-- A fetch depends on PC and the memory alone. -/
theorem fetch_of_eq {s t : State} (hp : t.pc = s.pc) (hm : t.mem = s.mem) (c : Config) : t.fetch c = s.fetch c := by
  simp [fetch, loadWord, readByte, hp, hm]

/-! ## Accessors under updates of other fields -/

@[simp] theorem getV_raise (s : State) (e : Err) (z : RegIdx) :
     (s.raise e).getV z = s.getV z := rfl
@[simp] theorem getV_pc (s : State) (p : Addr) (z : RegIdx) :
     ({ s with pc := p } : State).getV z = s.getV z := rfl
@[simp] theorem getV_setStack (s : State) (j : Nat) (u : Addr) (z : RegIdx) :
     (s.setStack j u).getV z = s.getV z := rfl
@[simp] theorem getV_setPixel (s : State) (x : Fin 64) (y : Fin 32) (on : Bool) (z : RegIdx) :
     (s.setPixel x y on).getV z = s.getV z := rfl
@[simp] theorem getV_clearScreen (s : State) (z : RegIdx) :
     s.clearScreen.getV z = s.getV z := rfl

@[simp] theorem readByte_raise (s : State) (e : Err) (c : Config) (a : Nat) :
     (s.raise e).readByte c a = s.readByte c a := rfl
@[simp] theorem readByte_pc (s : State) (p : Addr) (c : Config) (a : Nat) :
     ({ s with pc := p } : State).readByte c a = s.readByte c a := rfl
@[simp] theorem readByte_setV (s : State) (x : RegIdx) (b : Byte) (c : Config) (a : Nat) :
     (s.setV x b).readByte c a = s.readByte c a := rfl
@[simp] theorem readByte_setStack (s : State) (j : Nat) (u : Addr) (c : Config) (a : Nat) :
     (s.setStack j u).readByte c a = s.readByte c a := rfl
@[simp] theorem readByte_setPixel (s : State) (x : Fin 64) (y : Fin 32) (on : Bool) (c : Config) (a : Nat) :
     (s.setPixel x y on).readByte c a = s.readByte c a := rfl
@[simp] theorem readByte_clearScreen (s : State) (c : Config) (a : Nat) :
     s.clearScreen.readByte c a = s.readByte c a := rfl

@[simp] theorem pixel_raise (s : State) (e : Err) (px : Fin 64) (py : Fin 32) :
     (s.raise e).pixel px py = s.pixel px py := rfl
@[simp] theorem pixel_pc (s : State) (p : Addr) (px : Fin 64) (py : Fin 32) :
     ({ s with pc := p } : State).pixel px py = s.pixel px py := rfl
@[simp] theorem pixel_setV (s : State) (x : RegIdx) (b : Byte) (px : Fin 64) (py : Fin 32) :
     (s.setV x b).pixel px py = s.pixel px py := rfl
@[simp] theorem pixel_setStack (s : State) (j : Nat) (u : Addr) (px : Fin 64) (py : Fin 32) :
     (s.setStack j u).pixel px py = s.pixel px py := rfl

@[simp] theorem stackAt_raise (s : State) (e : Err) (k : Nat) :
     (s.raise e).stackAt k = s.stackAt k := rfl
@[simp] theorem stackAt_pc (s : State) (p : Addr) (k : Nat) :
     ({ s with pc := p } : State).stackAt k = s.stackAt k := rfl
@[simp] theorem stackAt_setV (s : State) (x : RegIdx) (b : Byte) (k : Nat) :
     (s.setV x b).stackAt k = s.stackAt k := rfl
@[simp] theorem stackAt_setPixel (s : State) (x : Fin 64) (y : Fin 32) (on : Bool) (k : Nat) :
     (s.setPixel x y on).stackAt k = s.stackAt k := rfl
@[simp] theorem stackAt_clearScreen (s : State) (k : Nat) :
     s.clearScreen.stackAt k = s.stackAt k := rfl

@[simp] theorem keyDown_raise (s : State) (e : Err) (k : RegIdx) :
     (s.raise e).keyDown k = s.keyDown k := rfl
@[simp] theorem keyDown_pc (s : State) (p : Addr) (k : RegIdx) :
     ({ s with pc := p } : State).keyDown k = s.keyDown k := rfl
@[simp] theorem keyDown_setV (s : State) (x : RegIdx) (b : Byte) (k : RegIdx) :
     (s.setV x b).keyDown k = s.keyDown k := rfl
@[simp] theorem keyDown_setStack (s : State) (j : Nat) (u : Addr) (k : RegIdx) :
     (s.setStack j u).keyDown k = s.keyDown k := rfl
@[simp] theorem keyDown_setPixel (s : State) (x : Fin 64) (y : Fin 32) (on : Bool) (k : RegIdx) :
     (s.setPixel x y on).keyDown k = s.keyDown k := rfl
@[simp] theorem keyDown_clearScreen (s : State) (k : RegIdx) :
     s.clearScreen.keyDown k = s.keyDown k := rfl

/-! ## Reading what was written -/

/-- A register written is read back, and every other register is as before (R9, R21). -/
theorem getV_setV (s : State) (x y : RegIdx) (b : Byte) : (s.setV x b).getV y = if y = x then b else s.getV y := by
  unfold getV setV
  simp only [Vector.getElem_set, BitVec.toNat_inj, eq_comm]

@[simp] theorem getV_setV_same (s : State) (x : RegIdx) (b : Byte) : (s.setV x b).getV x = b := by simp [getV_setV]

/-- A stack entry written is read back, if there is such an entry, and every other entry is as before (R28). -/
theorem stackAt_setStack (s : State) (j k : Nat) (a : Addr) :
    (s.setStack j a).stackAt k = if k = j ∧ k < 16 then some a else s.stackAt k := by
  unfold stackAt setStack
  simp only [Vector.getElem?_setIfInBounds]
  by_cases h : j = k
  · subst h; by_cases hk : j < 16
    · simp [hk]
    · simp [hk]
  · simp [h, eq_comm]

/-- There is a stack entry exactly below 16 (R28). -/
theorem stackAt_isSome (s : State) (j : Nat) : (s.stackAt j).isSome = decide (j < 16) := by
  unfold stackAt
  by_cases h : j < 16
  · simp [h]
  · simp [h]

/-- A row's column set: that column has the given value and every other column is as before. -/
theorem getElem_setColumn (row : BitVec 64) (x c : Fin 64) (on : Bool) :
    (setColumn row x on)[c] = if c = x then on else row[c] := by
  have e : (c : Nat) = (x : Nat) ↔ c = x := Fin.ext_iff.symm
  cases on <;> by_cases h : c = x <;> simp [setColumn, h, e]

/-- A pixel written is read back, and every other pixel is as before (R34). -/
theorem pixel_setPixel (s : State) (x x' : Fin 64) (y y' : Fin 32) (on : Bool) :
    (s.setPixel x y on).pixel x' y' = if x' = x ∧ y' = y then on else s.pixel x' y' := by
  unfold pixel setPixel
  by_cases hy : y' = y
  · subst hy
    have := getElem_setColumn s.fb[y'] x x' on
    simpa using this
  · have hy' : ¬ (y : Nat) = y' := fun h => hy (Fin.ext h.symm)
    simp [hy, hy']

/-- After CLS every pixel is off (R150). -/
@[simp] theorem pixel_clearScreen (s : State) (x : Fin 64) (y : Fin 32) : s.clearScreen.pixel x y = false := by
  simp [pixel, clearScreen]

end Sys2Proof.Machine.State
end

