-- ==== Sys2Proof/Laws/Complete.lean ====
section
/-! SUPPORT. The end of a step: everything `complete` can answer, and what `commit` leaves alone. -/

namespace Sys2Proof.Machine

/-! ## complete -/

/-- Everything a completed effect can answer with a next state: an error's state, or the committed writes with the new PC. -/
theorem complete_next {c : Config} {s t : State} {e : Effect} (h : complete c s e = .next t) :
    (∃ err, t = s.raise err ∧ (e = .raise err ∨ (err = .addressOutOfRange ∧ ∃ ws npc, e = .done ws npc ∧ 0xFFF < npc))) ∨
    (∃ ws npc, e = .done ws npc ∧ npc ≤ 0xFFF ∧ t = { commit c s ws with pc := BitVec.ofNat 12 npc }) := by
  cases e with
  | done ws npc =>
    simp only [complete] at h
    split at h
    · exact .inl ⟨_, (Host.Outcome.next.inj h).symm, .inr ⟨rfl, ws, npc, rfl, ‹_›⟩⟩
    · exact .inr ⟨ws, npc, rfl, by omega, (Host.Outcome.next.inj h).symm⟩
  | raise err => exact .inl ⟨err, (Host.Outcome.next.inj h).symm, .inl rfl⟩
  | stuck f => cases h

/-- A done effect whose next PC is in range commits and completes. -/
theorem complete_done {c : Config} {s : State} {ws : List Write} {npc : Nat} (h : npc ≤ 0xFFF) :
    complete c s (.done ws npc) = .next { commit c s ws with pc := BitVec.ofNat 12 npc } := by
  simp [complete, Nat.not_lt.mpr h]

/-- A next PC above 0xFFF raises AddressOutOfRange (R125). -/
theorem complete_pastEnd {c : Config} {s : State} {ws : List Write} {npc : Nat} (h : 0xFFF < npc) :
    complete c s (.done ws npc) = .next (s.raise .addressOutOfRange) := by
  simp [complete, h]

@[simp] theorem complete_raise (c : Config) (s : State) (e : Err) : complete c s (.raise e) = .next (s.raise e) := rfl

@[simp] theorem complete_stuck (c : Config) (s : State) (f : Fault) : complete c s (.stuck f) = .fault f := rfl

/-- A next PC in range is the PC committed. -/
theorem toNat_ofNat_pc {npc : Nat} (h : npc ≤ 0xFFF) : (BitVec.ofNat 12 npc).toNat = npc := by
  simp only [BitVec.toNat_ofNat]; omega

/-- The default next PC is PC + 2 (R124). -/
theorem nextPc_eq (s : State) : s.nextPc = s.pc.toNat + 2 := rfl

/-- A taken skip goes to PC + 4 (R124). -/
@[simp] theorem skipPc_true (s : State) : s.skipPc true = s.pc.toNat + 4 := rfl

/-- A skip not taken goes to PC + 2 (R124). -/
@[simp] theorem skipPc_false (s : State) : s.skipPc false = s.pc.toNat + 2 := rfl

/-! ## commit -/

@[simp] theorem commit_nil (c : Config) (s : State) : commit c s [] = s := rfl

@[simp] theorem commit_cons (c : Config) (s : State) (w : Write) (ws : List Write) :
    commit c s (w :: ws) = commit c (applyWrite c s w) ws := rfl

theorem commit_append (c : Config) (s : State) (ws ws' : List Write) :
    commit c s (ws ++ ws') = commit c (commit c s ws) ws' := by
  induction ws generalizing s with
  | nil => rfl
  | cons w ws ih => exact ih _

/-- A projection that no write of the list changes is not changed by their commit. -/
theorem commit_keeps {α : Type} (f : State → α) (c : Config) (ws : List Write)
    (h : ∀ w ∈ ws, ∀ s, f (applyWrite c s w) = f s) (s : State) : f (commit c s ws) = f s := by
  induction ws generalizing s with
  | nil => rfl
  | cons w ws ih =>
    rw [commit_cons, ih (fun w' hw => h w' (List.mem_cons_of_mem _ hw)), h w List.mem_cons_self]

section
variable (c : Config) (s : State) (ws : List Write)

/-! Nothing an instruction stages can change these. -/

@[simp] theorem commit_pc : (commit c s ws).pc = s.pc :=
  commit_keeps _ c ws (fun w _ s => by cases w <;> simp [applyWrite]) s
@[simp] theorem commit_keys : (commit c s ws).keys = s.keys :=
  commit_keeps _ c ws (fun w _ s => by cases w <;> simp [applyWrite]) s
@[simp] theorem commit_halted : (commit c s ws).halted = s.halted :=
  commit_keeps _ c ws (fun w _ s => by cases w <;> simp [applyWrite]) s
@[simp] theorem commit_paused : (commit c s ws).paused = s.paused :=
  commit_keeps _ c ws (fun w _ s => by cases w <;> simp [applyWrite]) s
@[simp] theorem commit_loaded : (commit c s ws).loaded = s.loaded :=
  commit_keeps _ c ws (fun w _ s => by cases w <;> simp [applyWrite]) s
@[simp] theorem commit_beep : (commit c s ws).beep = s.beep :=
  commit_keeps _ c ws (fun w _ s => by cases w <;> simp [applyWrite]) s
@[simp] theorem commit_err : (commit c s ws).err = s.err :=
  commit_keeps _ c ws (fun w _ s => by cases w <;> simp [applyWrite]) s

end

/-- The elements of the state that staged writes go to. -/
inductive Target where
  | v | i | mem | fb | sp | stack | dt | st | waiting | waitX | draws
  deriving DecidableEq, Repr

/-- The element one staged write goes to. -/
def Write.target : Write → Target
  | .v _ _ => .v
  | .i _ => .i
  | .mem _ _ => .mem
  | .pixel _ _ _ => .fb
  | .clear => .fb
  | .sp _ => .sp
  | .stack _ _ => .stack
  | .dt _ => .dt
  | .st _ => .st
  | .waiting _ => .waiting
  | .waitX _ => .waitX
  | .draw => .draws

section
variable {c : Config} {s : State} {ws : List Write}

/-! A field is kept where no staged write goes to it. -/

theorem commit_v (h : ∀ w ∈ ws, w.target ≠ .v) : (commit c s ws).v = s.v :=
  commit_keeps _ c ws (fun w hw s => by have := h w hw; cases w <;> simp_all [applyWrite, Write.target]) s
theorem commit_i (h : ∀ w ∈ ws, w.target ≠ .i) : (commit c s ws).i = s.i :=
  commit_keeps _ c ws (fun w hw s => by have := h w hw; cases w <;> simp_all [applyWrite, Write.target]) s
theorem commit_mem (h : ∀ w ∈ ws, w.target ≠ .mem) : (commit c s ws).mem = s.mem :=
  commit_keeps _ c ws (fun w hw s => by have := h w hw; cases w <;> simp_all [applyWrite, Write.target]) s
theorem commit_fb (h : ∀ w ∈ ws, w.target ≠ .fb) : (commit c s ws).fb = s.fb :=
  commit_keeps _ c ws (fun w hw s => by have := h w hw; cases w <;> simp_all [applyWrite, Write.target]) s
theorem commit_sp (h : ∀ w ∈ ws, w.target ≠ .sp) : (commit c s ws).sp = s.sp :=
  commit_keeps _ c ws (fun w hw s => by have := h w hw; cases w <;> simp_all [applyWrite, Write.target]) s
theorem commit_stack (h : ∀ w ∈ ws, w.target ≠ .stack) : (commit c s ws).stack = s.stack :=
  commit_keeps _ c ws (fun w hw s => by have := h w hw; cases w <;> simp_all [applyWrite, Write.target]) s
theorem commit_dt (h : ∀ w ∈ ws, w.target ≠ .dt) : (commit c s ws).dt = s.dt :=
  commit_keeps _ c ws (fun w hw s => by have := h w hw; cases w <;> simp_all [applyWrite, Write.target]) s
theorem commit_st (h : ∀ w ∈ ws, w.target ≠ .st) : (commit c s ws).st = s.st :=
  commit_keeps _ c ws (fun w hw s => by have := h w hw; cases w <;> simp_all [applyWrite, Write.target]) s
theorem commit_waiting (h : ∀ w ∈ ws, w.target ≠ .waiting) : (commit c s ws).waiting = s.waiting :=
  commit_keeps _ c ws (fun w hw s => by have := h w hw; cases w <;> simp_all [applyWrite, Write.target]) s
theorem commit_waitX (h : ∀ w ∈ ws, w.target ≠ .waitX) : (commit c s ws).waitX = s.waitX :=
  commit_keeps _ c ws (fun w hw s => by have := h w hw; cases w <;> simp_all [applyWrite, Write.target]) s
theorem commit_draws (h : ∀ w ∈ ws, w.target ≠ .draws) : (commit c s ws).draws = s.draws :=
  commit_keeps _ c ws (fun w hw s => by have := h w hw; cases w <;> simp_all [applyWrite, Write.target]) s

/-- Writes that all go to V change V and nothing else. -/
theorem commit_v_only (h : ∀ w ∈ ws, w.target = .v) :
    commit c s ws = { s with v := (commit c s ws).v } := by
  rw [State.mk.injEq]
  refine ⟨rfl, commit_i ?_, commit_pc .., commit_sp ?_, commit_stack ?_, commit_dt ?_, commit_st ?_, commit_mem ?_, commit_fb ?_,
    commit_keys .., commit_halted .., commit_paused .., commit_waiting ?_, commit_loaded .., commit_beep .., commit_waitX ?_, commit_err .., commit_draws ?_⟩ <;>
    (intro w hw; simp [h w hw])

/-- Writes that all go to FB change FB and nothing else. -/
theorem commit_fb_only (h : ∀ w ∈ ws, w.target = .fb) :
    commit c s ws = { s with fb := (commit c s ws).fb } := by
  rw [State.mk.injEq]
  refine ⟨commit_v ?_, commit_i ?_, commit_pc .., commit_sp ?_, commit_stack ?_, commit_dt ?_, commit_st ?_, commit_mem ?_, rfl,
    commit_keys .., commit_halted .., commit_paused .., commit_waiting ?_, commit_loaded .., commit_beep .., commit_waitX ?_, commit_err .., commit_draws ?_⟩ <;>
    (intro w hw; simp [h w hw])

end

/-- A register no staged write names is as before. -/
theorem commit_getV {c : Config} {s : State} {ws : List Write} {z : RegIdx} (h : ∀ b, Write.v z b ∉ ws) :
    (commit c s ws).getV z = s.getV z :=
  commit_keeps (fun s => s.getV z) c ws (fun w hw s => by
    cases w with
    | v x b =>
      have : z ≠ x := fun e => h b (e ▸ hw)
      simp [applyWrite, State.getV_setV, this]
    | _ => exact State.getV_of_v_eq (by simp [applyWrite]) z) s

/-- A pixel no staged write names is as before. -/
theorem commit_pixel {c : Config} {s : State} {ws : List Write} {x : Fin 64} {y : Fin 32}
    (h : ∀ on, Write.pixel x y on ∉ ws) (hc : Write.clear ∉ ws) : (commit c s ws).pixel x y = s.pixel x y :=
  commit_keeps (fun s => s.pixel x y) c ws (fun w hw s => by
    cases w with
    | pixel x' y' on =>
      have : ¬ (x = x' ∧ y = y') := fun ⟨e, e'⟩ => h on (e ▸ e' ▸ hw)
      simp [applyWrite, State.pixel_setPixel, this]
    | clear => exact absurd hw hc
    | _ => exact State.pixel_of_fb_eq (by simp [applyWrite]) x y) s

/-- The canonical form of memory survives every commit. -/
theorem commit_wf {c : Config} {s : State} {ws : List Write} (h : s.mem.wf c = true) :
    (commit c s ws).mem.wf c = true := by
  induction ws generalizing s with
  | nil => exact h
  | cons w ws ih =>
    refine ih ?_
    cases w with
    | mem a u => exact Memory.wf_writeByte c s a u h
    | _ => simpa [applyWrite] using h

end Sys2Proof.Machine
end

