-- ==== Sys2Proof/Laws/Decode.lean ====
section
/-! SUPPORT. The fields of a word laid out from fields, and the fields of a word known by a mask and a pattern (R91, R95). -/

namespace Sys2Proof

/-! ## Fields of a word laid out -/

@[simp] theorem family_wordXYN (f : BitVec 4) (x y : RegIdx) (n : BitVec 4) : family (wordXYN f x y n) = f := by
  unfold family wordXYN; ext i hi; simp; grind
@[simp] theorem fieldX_wordXYN (f : BitVec 4) (x y : RegIdx) (n : BitVec 4) : fieldX (wordXYN f x y n) = x := by
  unfold fieldX wordXYN; ext i hi; simp; grind
@[simp] theorem fieldY_wordXYN (f : BitVec 4) (x y : RegIdx) (n : BitVec 4) : fieldY (wordXYN f x y n) = y := by
  unfold fieldY wordXYN; ext i hi; simp; grind
@[simp] theorem fieldN_wordXYN (f : BitVec 4) (x y : RegIdx) (n : BitVec 4) : fieldN (wordXYN f x y n) = n := by
  unfold fieldN wordXYN; ext i hi; simp; grind
@[simp] theorem family_wordXKK (f : BitVec 4) (x : RegIdx) (kk : Byte) : family (wordXKK f x kk) = f := by
  unfold family wordXKK; ext i hi; simp; grind
@[simp] theorem fieldX_wordXKK (f : BitVec 4) (x : RegIdx) (kk : Byte) : fieldX (wordXKK f x kk) = x := by
  unfold fieldX wordXKK; ext i hi; simp; grind
@[simp] theorem fieldKK_wordXKK (f : BitVec 4) (x : RegIdx) (kk : Byte) : fieldKK (wordXKK f x kk) = kk := by
  unfold fieldKK wordXKK; ext i hi; simp; grind
@[simp] theorem family_wordNNN (f : BitVec 4) (nnn : Addr) : family (wordNNN f nnn) = f := by
  unfold family wordNNN; ext i hi; simp; grind
@[simp] theorem fieldNNN_wordNNN (f : BitVec 4) (nnn : Addr) : fieldNNN (wordNNN f nnn) = nnn := by
  unfold fieldNNN wordNNN; ext i hi; simp; grind
@[simp] theorem fieldY_wordXKK (f : BitVec 4) (x : RegIdx) (kk : Byte) :
    fieldY (wordXKK f x kk) = kk.extractLsb' 4 4 := by
  unfold fieldY wordXKK; ext i hi; simp; grind
@[simp] theorem fieldN_wordXKK (f : BitVec 4) (x : RegIdx) (kk : Byte) :
    fieldN (wordXKK f x kk) = kk.extractLsb' 0 4 := by
  unfold fieldN wordXKK; ext i hi; simp; grind
@[simp] theorem fieldX_wordNNN (f : BitVec 4) (nnn : Addr) : fieldX (wordNNN f nnn) = nnn.extractLsb' 8 4 := by
  unfold fieldX wordNNN; ext i hi; simp; grind
@[simp] theorem fieldY_wordNNN (f : BitVec 4) (nnn : Addr) : fieldY (wordNNN f nnn) = nnn.extractLsb' 4 4 := by
  unfold fieldY wordNNN; ext i hi; simp; grind
@[simp] theorem fieldN_wordNNN (f : BitVec 4) (nnn : Addr) : fieldN (wordNNN f nnn) = nnn.extractLsb' 0 4 := by
  unfold fieldN wordNNN; ext i hi; simp; grind

/-! ## A word is its four nibbles -/

/-- A word is its family, x, y and n side by side (R91). -/
theorem wordXYN_fields (op : Opcode) : wordXYN (family op) (fieldX op) (fieldY op) (fieldN op) = op := by
  unfold wordXYN family fieldX fieldY fieldN; ext i hi; simp; grind

/-- A word is its family, x and kk side by side (R91). -/
theorem wordXKK_fields (op : Opcode) : wordXKK (family op) (fieldX op) (fieldKK op) = op := by
  unfold wordXKK family fieldX fieldKK; ext i hi; simp; grind

/-- A word is its family and nnn side by side (R91). -/
theorem wordNNN_fields (op : Opcode) : wordNNN (family op) (fieldNNN op) = op := by
  unfold wordNNN family fieldNNN; ext i hi; simp; grind

/-- Two words are equal exactly if their four nibbles are. -/
theorem opcode_eq_iff (op op' : Opcode) :
    op = op' ↔ family op = family op' ∧ fieldX op = fieldX op' ∧ fieldY op = fieldY op' ∧ fieldN op = fieldN op' := by
  constructor
  · rintro rfl; exact ⟨rfl, rfl, rfl, rfl⟩
  · rintro ⟨h1, h2, h3, h4⟩
    rw [← wordXYN_fields op, ← wordXYN_fields op', h1, h2, h3, h4]

/-- The kk field is y and n side by side (R91). -/
theorem fieldKK_eq_iff (op : Opcode) (kk : Byte) :
    fieldKK op = kk ↔ fieldY op = kk.extractLsb' 4 4 ∧ fieldN op = kk.extractLsb' 0 4 := by
  have e : fieldKK op = fieldY op ++ fieldN op := by
    unfold fieldKK fieldY fieldN; ext i hi; simp; grind
  have e' : kk = kk.extractLsb' 4 4 ++ kk.extractLsb' 0 4 := by
    ext i hi; simp; grind
  constructor
  · rintro rfl
    unfold fieldKK fieldY fieldN
    exact ⟨by ext i hi; simp, by ext i hi; simp⟩
  · rintro ⟨h1, h2⟩
    rw [e, h1, h2, ← e']

/-! ## Fields of a masked word -/

theorem family_and (op m : Opcode) : family (op &&& m) = family op &&& family m := by
  unfold family; ext i hi; simp
theorem fieldX_and (op m : Opcode) : fieldX (op &&& m) = fieldX op &&& fieldX m := by
  unfold fieldX; ext i hi; simp
theorem fieldY_and (op m : Opcode) : fieldY (op &&& m) = fieldY op &&& fieldY m := by
  unfold fieldY; ext i hi; simp
theorem fieldN_and (op m : Opcode) : fieldN (op &&& m) = fieldN op &&& fieldN m := by
  unfold fieldN; ext i hi; simp
theorem fieldKK_and (op m : Opcode) : fieldKK (op &&& m) = fieldKK op &&& fieldKK m := by
  unfold fieldKK; ext i hi; simp

/-- A mask nibble of F keeps the nibble. -/
theorem nibble_and_F (b : BitVec 4) : b &&& 15#4 = b := by simpa using BitVec.and_allOnes (x := b)

/-- A mask byte of FF keeps the byte. -/
theorem byte_and_FF (b : Byte) : b &&& 255#8 = b := by simpa using BitVec.and_allOnes (x := b)

/-- A word matches a pattern under a mask exactly if each of its nibbles does (R95). -/
theorem masked_eq_iff (op m p : Opcode) :
    op &&& m = p ↔ family op &&& family m = family p ∧ fieldX op &&& fieldX m = fieldX p ∧
      fieldY op &&& fieldY m = fieldY p ∧ fieldN op &&& fieldN m = fieldN p := by
  rw [opcode_eq_iff, family_and, fieldX_and, fieldY_and, fieldN_and]

/-! ## Words under the masks of the opcode map (R95, R101) -/

theorem wordNNN_and_F000 (f : BitVec 4) (nnn : Addr) : wordNNN f nnn &&& 0xF000#16 = wordNNN f 0#12 := by
  rw [masked_eq_iff]; simp; simp [family, fieldX, fieldY, fieldN, nibble_and_F]
theorem wordXKK_and_F000 (f : BitVec 4) (x : RegIdx) (kk : Byte) :
    wordXKK f x kk &&& 0xF000#16 = wordXKK f 0#4 0#8 := by
  rw [masked_eq_iff]; simp; simp [family, fieldX, fieldY, fieldN, nibble_and_F]
theorem wordXKK_and_F0FF (f : BitVec 4) (x : RegIdx) (kk : Byte) :
    wordXKK f x kk &&& 0xF0FF#16 = wordXKK f 0#4 kk := by
  rw [masked_eq_iff]; simp; simp [family, fieldX, fieldY, fieldN, nibble_and_F]
theorem wordXYN_and_F000 (f : BitVec 4) (x y : RegIdx) (n : BitVec 4) :
    wordXYN f x y n &&& 0xF000#16 = wordXYN f 0#4 0#4 0#4 := by
  rw [masked_eq_iff]; simp; simp [family, fieldX, fieldY, fieldN, nibble_and_F]
theorem wordXYN_and_F00F (f : BitVec 4) (x y : RegIdx) (n : BitVec 4) :
    wordXYN f x y n &&& 0xF00F#16 = wordXYN f 0#4 0#4 n := by
  rw [masked_eq_iff]; simp; simp [family, fieldX, fieldY, fieldN, nibble_and_F]

/-- A word is its high byte and its low byte (R61). -/
theorem wordOfBytes_highByte_lowByte (op : Opcode) : wordOfBytes (highByte op) (lowByte op) = op := by
  unfold wordOfBytes highByte lowByte; ext i hi; simp; grind

@[simp] theorem highByte_wordOfBytes (hi lo : Byte) : highByte (wordOfBytes hi lo) = hi := by
  unfold wordOfBytes highByte; ext i h; simp; grind
@[simp] theorem lowByte_wordOfBytes (hi lo : Byte) : lowByte (wordOfBytes hi lo) = lo := by
  unfold wordOfBytes lowByte; ext i h; simp; grind

/-! ## The decoder's arms (R93, R94) -/

/-- A nibble is one of the sixteen: where it is none of 0 to E it is F. -/
theorem nibble_eq_F {b : BitVec 4} (h0 : b ≠ 0#4) (h1 : b ≠ 1#4) (h2 : b ≠ 2#4) (h3 : b ≠ 3#4) (h4 : b ≠ 4#4)
    (h5 : b ≠ 5#4) (h6 : b ≠ 6#4) (h7 : b ≠ 7#4) (h8 : b ≠ 8#4) (h9 : b ≠ 9#4) (hA : b ≠ 10#4) (hB : b ≠ 11#4)
    (hC : b ≠ 12#4) (hD : b ≠ 13#4) (hE : b ≠ 14#4) : b = 15#4 := by
  apply BitVec.eq_of_toNat_eq
  simp only [ne_eq, ← BitVec.toNat_inj, BitVec.toNat_ofNat] at *
  omega

/-- Family 0x0 is decoded by its kk (R96). -/
theorem decodeUnder_family0 {strict : Bool} {op : Opcode} (h : family op = 0x0#4) :
    decodeUnder strict op = decode0 strict op := by simp [decodeUnder, h]
/-- Family 0x8 is decoded by its n (R97). -/
theorem decodeUnder_family8 {strict : Bool} {op : Opcode} (h : family op = 0x8#4) :
    decodeUnder strict op = decode8 op := by simp [decodeUnder, h]
/-- Family 0xE is decoded by its kk (R98). -/
theorem decodeUnder_familyE {strict : Bool} {op : Opcode} (h : family op = 0xE#4) :
    decodeUnder strict op = decodeE op := by simp [decodeUnder, h]
/-- Family 0xF is decoded by its kk (R99). -/
theorem decodeUnder_familyF {strict : Bool} {op : Opcode} (h : family op = 0xF#4) :
    decodeUnder strict op = decodeF op := by simp [decodeUnder, h]

/-- A word matches a row exactly if the masked word is the row's pattern (R95). -/
theorem hits_iff (r : OpcodeRow) (strict : Bool) (op : Opcode) :
    r.hits strict op = true ↔ op &&& r.maskUnder strict = r.pattern := by simp [OpcodeRow.hits]

end Sys2Proof
end

