-- ==== Sys2Proof/Laws/Operands.lean ====
section
/-! SUPPORT. One spec lemma for each operand form and flag: what it answers, and what committing its writes does. -/

namespace Sys2Proof.Machine

/-! ## Ranges -/

/-- A run of bytes is in range exactly if it is empty or ends by 4096 (R66, R67). -/
theorem inRange_iff (a len : Nat) : inRange a len = true ↔ len = 0 ∨ a + len ≤ 4096 := by
  simp only [inRange, Bool.or_eq_true, decide_eq_true_eq]; exact Iff.rfl

/-- A run is in range exactly if each of its addresses exists (R66). -/
theorem inRange_iff_forall (a len : Nat) : inRange a len = true ↔ ∀ k, k < len → a + k < 4096 := by
  rw [inRange_iff]
  constructor
  · intro h k hk; omega
  · intro h
    by_cases h0 : len = 0
    · exact .inl h0
    · have := h (len - 1) (by omega); right; omega

/-! ## Register ranges -/

@[simp] theorem length_regsUpTo (x : RegIdx) : (regsUpTo x).length = x.toNat + 1 := by simp [regsUpTo]

@[simp] theorem getElem_regsUpTo (x : RegIdx) (k : Nat) (h : k < (regsUpTo x).length) :
    (regsUpTo x)[k] = BitVec.ofNat 4 k := by simp [regsUpTo]

/-! ## Byte runs -/

@[simp] theorem length_bytesAt (c : Config) (s : State) (a len : Nat) : (s.bytesAt c a len).length = len := by
  induction len generalizing a with
  | zero => rfl
  | succ len ih => simp [State.bytesAt, ih]

theorem getElem_bytesAt (c : Config) (s : State) (a len k : Nat) (h : k < (s.bytesAt c a len).length) :
    (s.bytesAt c a len)[k] = s.readByte c (a + k) := by
  induction len generalizing a k with
  | zero => simp [State.bytesAt] at h
  | succ len ih =>
    cases k with
    | zero => simp [State.bytesAt]
    | succ k =>
      have hk : k < (s.bytesAt c (a + 1) len).length := by simpa [State.bytesAt] using h
      simp only [State.bytesAt, List.getElem_cons_succ, ih _ _ hk]
      congr 1; omega

/-- MemRead of a run: its bytes if every address exists, else AddressOutOfRange (R10, R66). -/
theorem loadBytes_eq (c : Config) (s : State) (a len : Nat) :
    s.loadBytes c a len = if len = 0 ∨ a + len ≤ 4096 then .ok (s.bytesAt c a len) else .error .addressOutOfRange := by
  simp only [State.loadBytes, inRange_iff]

/-- MemWrite of a run: its stores if every address exists, else AddressOutOfRange (R10, R66). -/
theorem storeBytes_eq (a : Nat) (us : List Byte) :
    storeBytes a us =
      if us.length = 0 ∨ a + us.length ≤ 4096 then .ok (stores a us) else .error .addressOutOfRange := by
  simp only [storeBytes, inRange_iff]

/-- The only error a MemRead raises is AddressOutOfRange (R66). -/
theorem loadBytes_error {c : Config} {s : State} {a len : Nat} {e : Err} (h : s.loadBytes c a len = .error e) :
    e = .addressOutOfRange := by
  rw [loadBytes_eq] at h
  split at h
  · cases h
  · exact (Except.error.inj h).symm

/-- The only error a MemWrite raises is AddressOutOfRange (R66). -/
theorem storeBytes_error {a : Nat} {us : List Byte} {e : Err} (h : storeBytes a us = .error e) :
    e = .addressOutOfRange := by
  rw [storeBytes_eq] at h
  split at h
  · cases h
  · exact (Except.error.inj h).symm

/-- Stores go to memory. -/
theorem target_of_mem_stores {w : Write} {a : Nat} {us : List Byte} (h : w ∈ stores a us) : w.target = .mem := by
  induction us generalizing a with
  | nil => cases h
  | cons u us ih =>
    rcases List.mem_cons.mp h with rfl | h
    · rfl
    · exact ih h

/-- Committed stores are consecutive memory writes, where the font bytes are ordinary memory (R70). -/
theorem commit_stores (c : Config) (hc : c.fontWrite = .write) (s : State) (a : Nat) (us : List Byte) :
    commit c s (stores a us) = { s with mem := s.mem.writeList c a us } := by
  induction us generalizing s a with
  | nil => rfl
  | cons u us ih =>
    rw [stores, commit_cons, ih]
    simp [applyWrite, State.writeByte, hc, Memory.writeList]

/-- One store: the byte is read back where the address exists and FONT_WRITE lets it be written; every other byte is as before
(R66, R70). -/
theorem readByte_writeByte (c : Config) (s : State) (a b : Nat) (u : Byte) :
    (s.writeByte c a u).readByte c b =
      if b = a ∧ a < memSize ∧ ¬ (c.fontWrite = .ignore ∧ a < fontLen) then u else s.readByte c b := by
  unfold State.writeByte
  by_cases hf : c.fontWrite = .ignore ∧ a < fontLen
  · simp [hf]
  · rw [if_neg hf]
    have := Memory.read_write c s.mem a b u
    simpa [State.readByte, hf] using this

/-- Committed stores, under both settings of FONT_WRITE: outside the run every byte is as before (R70). -/
theorem readByte_commit_stores_outside (c : Config) (us : List Byte) (s : State) (a b : Nat)
    (h : b < a ∨ a + us.length ≤ b ∨ (c.fontWrite = .ignore ∧ b < fontLen)) :
    (commit c s (stores a us)).readByte c b = s.readByte c b := by
  induction us generalizing s a with
  | nil => rfl
  | cons u us ih =>
    simp only [List.length_cons] at h
    rw [stores, commit_cons, ih _ _ (h.imp (by omega) (Or.imp_left (by omega)))]
    rw [applyWrite, readByte_writeByte, if_neg]
    rintro ⟨rfl, -, hf⟩
    rcases h with h | h | h
    · omega
    · omega
    · exact hf h

/-- Committed stores, under both settings of FONT_WRITE: a byte of the run that may be written is read back (R70). -/
theorem readByte_commit_stores_inside (c : Config) (us : List Byte) (s : State) (a k : Nat) (hk : k < us.length)
    (hm : a + us.length ≤ memSize) (hf : ¬ (c.fontWrite = .ignore ∧ a + k < fontLen)) :
    (commit c s (stores a us)).readByte c (a + k) = us[k] := by
  induction us generalizing s a k with
  | nil => simp at hk
  | cons u us ih =>
    simp only [List.length_cons] at hk hm
    rw [stores, commit_cons]
    cases k with
    | zero =>
      rw [readByte_commit_stores_outside _ _ _ _ _ (by omega), applyWrite, readByte_writeByte, if_pos]
      · rfl
      · exact ⟨rfl, by omega, hf⟩
    | succ k =>
      have e : a + (k + 1) = a + 1 + k := by omega
      rw [e]
      exact ih _ _ _ (by omega) (by omega) (by rwa [e] at hf)

/-! ## Register loads -/

/-- Register writes go to registers. -/
theorem target_of_mem_regWrites {w : Write} {xs : List RegIdx} {us : List Byte} (h : w ∈ regWrites xs us) :
    w.target = .v := by
  induction xs generalizing us with
  | nil => cases us <;> cases h
  | cons x xs ih =>
    cases us with
    | nil => cases h
    | cons u us =>
      rcases List.mem_cons.mp h with rfl | h
      · rfl
      · exact ih h

/-- Committed register writes change V and nothing else. -/
theorem commit_regWrites (c : Config) (s : State) (xs : List RegIdx) (us : List Byte) :
    commit c s (regWrites xs us) = { s with v := (commit c s (regWrites xs us)).v } :=
  commit_v_only (fun _ hw => target_of_mem_regWrites hw)

/-- A register named in none of the writes is named in none of its indices. -/
theorem index_of_mem_regWrites {x : RegIdx} {b : Byte} {xs : List RegIdx} {us : List Byte}
    (h : Write.v x b ∈ regWrites xs us) : x ∈ xs := by
  induction xs generalizing us with
  | nil => cases us <;> cases h
  | cons y xs ih =>
    cases us with
    | nil => cases h
    | cons u us =>
      rcases List.mem_cons.mp h with h | h
      · cases h; exact List.mem_cons_self
      · exact List.mem_cons_of_mem _ (ih h)

/-- Committed register writes to distinct registers: the k-th register holds the k-th byte. -/
theorem getV_commit_regWrites (c : Config) (xs : List RegIdx) (us : List Byte) (hn : xs.Nodup) (s : State) (k : Nat)
    (hx : k < xs.length) (hu : k < us.length) : (commit c s (regWrites xs us)).getV xs[k] = us[k] := by
  induction xs generalizing us s k with
  | nil => simp at hx
  | cons x xs ih =>
    cases us with
    | nil => simp at hu
    | cons u us =>
      obtain ⟨hx0, hn'⟩ := List.nodup_cons.mp hn
      cases k with
      | zero =>
        rw [regWrites, commit_cons, List.getElem_cons_zero, List.getElem_cons_zero, commit_getV]
        · simp [applyWrite]
        · exact fun b hb => hx0 (index_of_mem_regWrites hb)
      | succ k => exact ih us hn' _ k (by simpa using hx) (by simpa using hu)

/-- V0 to Vx are distinct registers. -/
theorem nodup_regsUpTo (x : RegIdx) : (regsUpTo x).Nodup := by
  unfold regsUpTo
  rw [List.nodup_map_iff_inj_on List.nodup_range]
  intro a ha b hb h
  have ha' : a < 16 := by have := List.mem_range.mp ha; omega
  have hb' : b < 16 := by have := List.mem_range.mp hb; omega
  have := congrArg BitVec.toNat h
  simpa [Nat.mod_eq_of_lt ha', Nat.mod_eq_of_lt hb'] using this

/-- A register is among V0 to Vx exactly if its index is at most x. -/
theorem mem_regsUpTo (x z : RegIdx) : z ∈ regsUpTo x ↔ z.toNat ≤ x.toNat := by
  unfold regsUpTo
  rw [List.mem_map]
  constructor
  · rintro ⟨k, hk, rfl⟩
    have := List.mem_range.mp hk
    simp only [BitVec.toNat_ofNat]; omega
  · intro h
    exact ⟨z.toNat, List.mem_range.mpr (by omega), by simp⟩

/-! ## Key indices, digits, the lowest key -/

/-- A key index up to 15 names its key (R270). -/
theorem keyIndex_of_le (p : KeyIndexPolicy) {b : Byte} (h : b.toNat ≤ 15) :
    keyIndex p b = .ok (BitVec.ofNat 4 b.toNat) := by simp [keyIndex, Nat.not_lt.mpr h]

/-- A key index above 15 raises InvalidKeyIndex, or is taken mod 16 (R270). -/
theorem keyIndex_of_gt (p : KeyIndexPolicy) {b : Byte} (h : 15 < b.toNat) :
    keyIndex p b = match p with
      | .fault => .error .invalidKeyIndex
      | .mask => .ok (BitVec.ofNat 4 (b.toNat % 16)) := by
  cases p <;> simp [keyIndex, h]

/-- The only error a key index raises is InvalidKeyIndex (R270). -/
theorem keyIndex_error {p : KeyIndexPolicy} {b : Byte} {e : Err} (h : keyIndex p b = .error e) :
    e = .invalidKeyIndex := by
  unfold keyIndex at h
  split at h
  · cases p
    · exact (Except.error.inj h).symm
    · cases h
  · cases h

/-- The only error a glyph address raises is InvalidSpriteIndex (R242). -/
theorem glyphAddress_error {p : LdsCheck} {b : Byte} {e : Err} (h : glyphAddress p b = .error e) :
    e = .invalidSpriteIndex := by
  unfold glyphAddress at h
  split at h
  · exact (Except.error.inj h).symm
  · cases h

/-- The address of a glyph (R242). -/
theorem glyphAddress_eq (p : LdsCheck) (b : Byte) :
    glyphAddress p b =
      if 15 < b.toNat ∧ p = .fault then .error .invalidSpriteIndex else .ok (BitVec.ofNat 16 (b.toNat * 5)) := rfl

/-- The key numbers are all sixteen. -/
theorem mem_keyNumbers (k : RegIdx) : k ∈ keyNumbers := by
  have : ∀ k : Fin 16, BitVec.ofFin k ∈ keyNumbers := by decide
  exact this k.toFin

/-- No key is found exactly if none is pressed (R122, R272). -/
theorem lowestKey_eq_none (s : State) : s.lowestKey = none ↔ ∀ k, s.keyDown k = false := by
  unfold State.lowestKey
  rw [List.find?_eq_none]
  exact ⟨fun h k => by simpa using h k (mem_keyNumbers k), fun h k _ => by simp [h k]⟩

/-- The key numbers stand in rising order. -/
theorem keyNumbers_rising : keyNumbers.Pairwise (fun j k => j.toNat ≤ k.toNat) := by decide

/-- The key found is pressed and no lower one is (R122, R272). -/
theorem lowestKey_eq_some (s : State) (k : RegIdx) :
    s.lowestKey = some k ↔ s.keyDown k = true ∧ ∀ j, s.keyDown j = true → k.toNat ≤ j.toNat := by
  have sound : ∀ {k}, s.lowestKey = some k → s.keyDown k = true ∧ ∀ j, s.keyDown j = true → k.toNat ≤ j.toNat := by
    intro k h
    refine ⟨List.find?_some h, fun j hj => ?_⟩
    obtain ⟨-, as, bs, hsplit, hno⟩ := List.find?_eq_some_iff_append.mp h
    have hm := mem_keyNumbers j
    rw [hsplit] at hm
    have hr := keyNumbers_rising
    rw [hsplit] at hr
    rcases List.mem_append.mp hm with hm | hm
    · exact absurd hj (by simpa using hno j hm)
    · rcases List.mem_cons.mp hm with rfl | hm
      · exact Nat.le_refl _
      · exact (List.pairwise_cons.mp (List.pairwise_append.mp hr).2.1).1 j hm
  refine ⟨sound, fun ⟨hk, hmin⟩ => ?_⟩
  cases h : s.lowestKey with
  | none => rw [(lowestKey_eq_none s).mp h k] at hk; cases hk
  | some k' =>
    obtain ⟨hk', hmin'⟩ := sound h
    have : k'.toNat = k.toNat := Nat.le_antisymm (hmin' k hk) (hmin k' hk')
    rw [BitVec.eq_of_toNat_eq this]

/-! ## Sprites -/

/-- The positions of one sprite row (R152). -/
theorem mem_rowPixels {xs ys row : Byte} {r : Nat} {p : Fin 64 × Fin 32} :
    p ∈ rowPixels xs ys row r ↔ ∃ c, c < 8 ∧ row.getLsbD (7 - c) = true ∧ p = spritePixel xs ys c r := by
  unfold rowPixels
  rw [List.mem_map]
  constructor
  · rintro ⟨c, hc, rfl⟩
    obtain ⟨hc, hb⟩ := List.mem_filter.mp hc
    exact ⟨c, List.mem_range.mp hc, hb, rfl⟩
  · rintro ⟨c, hc, hb, rfl⟩
    exact ⟨c, List.mem_filter.mpr ⟨List.mem_range.mpr hc, hb⟩, rfl⟩

/-- The positions of a sprite: those of the 1 bits of its rows (R151). -/
theorem mem_spritePixels {xs ys : Byte} {rows : List Byte} {r0 : Nat} {p : Fin 64 × Fin 32} :
    p ∈ spritePixels xs ys r0 rows ↔
      ∃ r c, ∃ h : r < rows.length, c < 8 ∧ rows[r].getLsbD (7 - c) = true ∧ p = spritePixel xs ys c (r0 + r) := by
  induction rows generalizing r0 with
  | nil => simp [spritePixels]
  | cons row rows ih =>
    rw [spritePixels, List.mem_append, mem_rowPixels, ih]
    constructor
    · rintro (⟨c, hc, hb, hp⟩ | ⟨r, c, h, hc, hb, hp⟩)
      · exact ⟨0, c, by simp, hc, by simpa using hb, by simpa using hp⟩
      · exact ⟨r + 1, c, by simpa using h, hc, by simpa using hb, by rw [hp]; congr 1; omega⟩
    · rintro ⟨r, c, h, hc, hb, hp⟩
      cases r with
      | zero => exact .inl ⟨c, hc, by simpa using hb, by simpa using hp⟩
      | succ r =>
        exact .inr ⟨r, c, by simpa using h, hc, by simpa using hb, by rw [hp]; congr 1; omega⟩

/-- Pixel writes go to the framebuffer. -/
theorem target_of_mem_xorWrites {s : State} {ps : List (Fin 64 × Fin 32)} {w : Write} (h : w ∈ s.xorWrites ps) :
    w.target = .fb := by
  obtain ⟨p, -, rfl⟩ := List.mem_map.mp h
  rfl

/-- Committed pixel flips change FB and nothing else. -/
theorem commit_xorWrites (c : Config) (s u : State) (ps : List (Fin 64 × Fin 32)) :
    commit c u (s.xorWrites ps) = { u with fb := (commit c u (s.xorWrites ps)).fb } :=
  commit_fb_only (fun _ hw => target_of_mem_xorWrites hw)

/-- Committed pixel flips: each position of the list is the opposite of what it was in the state read, and every other pixel is as
before (R127, R151). -/
theorem pixel_commit_xorWrites (c : Config) (s u : State) (ps : List (Fin 64 × Fin 32)) (x : Fin 64) (y : Fin 32) :
    (commit c u (s.xorWrites ps)).pixel x y = if (x, y) ∈ ps then !s.pixel x y else u.pixel x y := by
  induction ps generalizing u with
  | nil => simp [State.xorWrites]
  | cons p ps ih =>
    have : s.xorWrites (p :: ps) = .pixel p.1 p.2 (!s.pixel p.1 p.2) :: s.xorWrites ps := rfl
    rw [this, commit_cons, ih]
    by_cases hm : (x, y) ∈ ps
    · simp [hm]
    · by_cases hp : (x, y) = p
      · subst hp; simp [applyWrite, State.pixel_setPixel, hm]
      · have : ¬ (x = p.1 ∧ y = p.2) := fun ⟨h1, h2⟩ => hp (Prod.ext h1 h2)
        simp [applyWrite, State.pixel_setPixel, hm, hp, this]

/-! ## Flags -/

/-- A flag is 0 or 1 (R36). -/
theorem flagByte_toNat (on : Bool) : (flagByte on).toNat = if on then 1 else 0 := by cases on <;> rfl

/-- The collision flag is 1 exactly if one of the positions is on (R151). -/
theorem collisionFlag_eq_one (s : State) (ps : List (Fin 64 × Fin 32)) :
    s.collisionFlag ps = 1#8 ↔ ∃ p ∈ ps, s.pixel p.1 p.2 = true := by
  unfold State.collisionFlag flagByte
  rw [← List.any_eq_true]
  cases ps.any (fun p => s.pixel p.1 p.2) <;> decide

/-- The collision flag is 0 exactly if none of the positions is on (R151). -/
theorem collisionFlag_eq_zero (s : State) (ps : List (Fin 64 × Fin 32)) :
    s.collisionFlag ps = 0#8 ↔ ¬ ∃ p ∈ ps, s.pixel p.1 p.2 = true := by
  unfold State.collisionFlag flagByte
  rw [← List.any_eq_true]
  cases ps.any (fun p => s.pixel p.1 p.2) <;> decide

end Sys2Proof.Machine
end

