-- ==== Sys2Proof/Laws/PerInstr.lean ====
section
/-! SUPPORT. Per instruction: its word lies in its own row of the opcode map, under both values of STRICT_DECODE (R95, R101, R107). -/

namespace Sys2Proof.Laws.EncodesInRow

/-- The word of an instruction matches the instruction's row, by default and under STRICT_DECODE. -/
def Statement (i : Instr) : Prop := ∀ strict : Bool, (rowOf i).hits strict (encode i) = true

/-- It is enough to look at the row's two masks. -/
theorem of_masks {i : Instr} (wide : encode i &&& (rowOf i).mask = (rowOf i).pattern)
    (narrow : encode i &&& (rowOf i).strictMask = (rowOf i).pattern) : Statement i := by
  intro strict
  rw [hits_iff]
  cases strict
  · exact wide
  · exact narrow

theorem cls : Statement .cls := of_masks rfl rfl
theorem ret : Statement .ret := of_masks rfl rfl
theorem jmp (nnn : Addr) : Statement (.jmp nnn) := of_masks (wordNNN_and_F000 _ _) (wordNNN_and_F000 _ _)
theorem call (nnn : Addr) : Statement (.call nnn) := of_masks (wordNNN_and_F000 _ _) (wordNNN_and_F000 _ _)
theorem seqb (x : RegIdx) (kk : Byte) : Statement (.seqb x kk) := of_masks (wordXKK_and_F000 _ _ _) (wordXKK_and_F000 _ _ _)
theorem sneqb (x : RegIdx) (kk : Byte) : Statement (.sneqb x kk) := of_masks (wordXKK_and_F000 _ _ _) (wordXKK_and_F000 _ _ _)
theorem srer (x y : RegIdx) : Statement (.srer x y) := of_masks (wordXYN_and_F000 _ _ _ _) (wordXYN_and_F00F _ _ _ _)
theorem lbr (x : RegIdx) (kk : Byte) : Statement (.lbr x kk) := of_masks (wordXKK_and_F000 _ _ _) (wordXKK_and_F000 _ _ _)
theorem abr (x : RegIdx) (kk : Byte) : Statement (.abr x kk) := of_masks (wordXKK_and_F000 _ _ _) (wordXKK_and_F000 _ _ _)
theorem lrr (x y : RegIdx) : Statement (.lrr x y) := of_masks (wordXYN_and_F00F _ _ _ _) (wordXYN_and_F00F _ _ _ _)
theorem or (x y : RegIdx) : Statement (.or x y) := of_masks (wordXYN_and_F00F _ _ _ _) (wordXYN_and_F00F _ _ _ _)
theorem and (x y : RegIdx) : Statement (.and x y) := of_masks (wordXYN_and_F00F _ _ _ _) (wordXYN_and_F00F _ _ _ _)
theorem xor (x y : RegIdx) : Statement (.xor x y) := of_masks (wordXYN_and_F00F _ _ _ _) (wordXYN_and_F00F _ _ _ _)
theorem add (x y : RegIdx) : Statement (.add x y) := of_masks (wordXYN_and_F00F _ _ _ _) (wordXYN_and_F00F _ _ _ _)
theorem sub (x y : RegIdx) : Statement (.sub x y) := of_masks (wordXYN_and_F00F _ _ _ _) (wordXYN_and_F00F _ _ _ _)
theorem shr (x : RegIdx) : Statement (.shr x) := of_masks (wordXYN_and_F00F _ _ _ _) (wordXYN_and_F00F _ _ _ _)
theorem subn (x y : RegIdx) : Statement (.subn x y) := of_masks (wordXYN_and_F00F _ _ _ _) (wordXYN_and_F00F _ _ _ _)
theorem shl (x : RegIdx) : Statement (.shl x) := of_masks (wordXYN_and_F00F _ _ _ _) (wordXYN_and_F00F _ _ _ _)
theorem sne (x y : RegIdx) : Statement (.sne x y) := of_masks (wordXYN_and_F000 _ _ _ _) (wordXYN_and_F00F _ _ _ _)
theorem ldi (nnn : Addr) : Statement (.ldi nnn) := of_masks (wordNNN_and_F000 _ _) (wordNNN_and_F000 _ _)
theorem jpv0 (nnn : Addr) : Statement (.jpv0 nnn) := of_masks (wordNNN_and_F000 _ _) (wordNNN_and_F000 _ _)
theorem rnd (x : RegIdx) (kk : Byte) : Statement (.rnd x kk) := of_masks (wordXKK_and_F000 _ _ _) (wordXKK_and_F000 _ _ _)
theorem drw (x y : RegIdx) (n : BitVec 4) : Statement (.drw x y n) := of_masks (wordXYN_and_F000 _ _ _ _) (wordXYN_and_F000 _ _ _ _)
theorem skp (x : RegIdx) : Statement (.skp x) := of_masks (wordXKK_and_F0FF _ _ _) (wordXKK_and_F0FF _ _ _)
theorem sknp (x : RegIdx) : Statement (.sknp x) := of_masks (wordXKK_and_F0FF _ _ _) (wordXKK_and_F0FF _ _ _)
theorem lddv (x : RegIdx) : Statement (.lddv x) := of_masks (wordXKK_and_F0FF _ _ _) (wordXKK_and_F0FF _ _ _)
theorem ldk (x : RegIdx) : Statement (.ldk x) := of_masks (wordXKK_and_F0FF _ _ _) (wordXKK_and_F0FF _ _ _)
theorem ldvd (x : RegIdx) : Statement (.ldvd x) := of_masks (wordXKK_and_F0FF _ _ _) (wordXKK_and_F0FF _ _ _)
theorem ldst (x : RegIdx) : Statement (.ldst x) := of_masks (wordXKK_and_F0FF _ _ _) (wordXKK_and_F0FF _ _ _)
theorem addi (x : RegIdx) : Statement (.addi x) := of_masks (wordXKK_and_F0FF _ _ _) (wordXKK_and_F0FF _ _ _)
theorem lds (x : RegIdx) : Statement (.lds x) := of_masks (wordXKK_and_F0FF _ _ _) (wordXKK_and_F0FF _ _ _)
theorem bcd (x : RegIdx) : Statement (.bcd x) := of_masks (wordXKK_and_F0FF _ _ _) (wordXKK_and_F0FF _ _ _)
theorem sr (x : RegIdx) : Statement (.sr x) := of_masks (wordXKK_and_F0FF _ _ _) (wordXKK_and_F0FF _ _ _)
theorem lr (x : RegIdx) : Statement (.lr x) := of_masks (wordXKK_and_F0FF _ _ _) (wordXKK_and_F0FF _ _ _)

end Sys2Proof.Laws.EncodesInRow
end

