-- ==== Sys2Proof/Laws/Variants.lean ====
section
/-! SUPPORT. Under `Config.hardware` the machine of Variants.lean is this hardware's: one definition of each rule serves both. -/

namespace Sys2Proof.Machine

/-- An instruction of this hardware is its rule, run to the end of the step. -/
theorem exec_eq_complete (i : Instr) (s : State) :
    exec i s = complete Config.hardware s (effectUnder Config.hardware i s) := by
  cases i <;> rfl

/-- The default setting's instruction is this hardware's. -/
theorem execUnder_hardware (i : Instr) (s : State) : execUnder Config.hardware i s = exec i s :=
  (exec_eq_complete i s).symm

/-- The default setting's step is this hardware's. -/
theorem stepUnder_hardware (s : State) : stepUnder Config.hardware s = step s := by
  have : execUnder Config.hardware = exec := by funext i s; exact execUnder_hardware i s
  simp [stepUnder, step, this]

end Sys2Proof.Machine
end

