-- ==== Sys2Proof/Laws/Step.lean ====
section
/-! SUPPORT. Everything a step can be, and which elements an instruction's staged writes can go to. -/

namespace Sys2Proof.Machine

/-- Everything a step can be: nothing (R120), the key re-check (R122), a fetch error, an illegal word, or one instruction (R123). -/
theorem step_cases (s : State) :
    (s.gated = true ∧ step s = .next s) ∨
    (s.gated = false ∧ s.waiting = true ∧ step s = complete Config.hardware s (keyRecheckEffect s)) ∨
    (s.gated = false ∧ s.waiting = false ∧
      ((∃ e, s.fetch Config.hardware = .error e ∧ step s = .next (s.raise e)) ∨
       (∃ op r, s.fetch Config.hardware = .ok op ∧ decode op = .error r ∧ step s = .next (s.raise .decodeFailure)) ∨
       (∃ op i, s.fetch Config.hardware = .ok op ∧ decode op = .ok i ∧ step s = exec i s))) := by
  unfold step stepWith
  cases hg : s.gated with
  | true => exact .inl ⟨rfl, by simp⟩
  | false =>
    cases hw : s.waiting with
    | true => exact .inr (.inl ⟨rfl, rfl, by simp⟩)
    | false =>
      refine .inr (.inr ⟨rfl, rfl, ?_⟩)
      simp only [Bool.false_eq_true, if_false, fetchDecodeExecute]
      cases hf : s.fetch Config.hardware with
      | error e => exact .inl ⟨e, rfl, rfl⟩
      | ok op =>
        right
        cases hd : decode op with
        | error r =>
          refine .inl ⟨op, r, rfl, hd, ?_⟩
          unfold decode at hd
          simp [hd]
        | ok i =>
          refine .inr ⟨op, i, rfl, hd, ?_⟩
          unfold decode at hd
          simp [hd]

/-- A step is not gated exactly while the machine is neither HALTED nor PAUSED and a program is LOADED (R120). -/
theorem gated_eq_false (s : State) : s.gated = false ↔ s.halted = false ∧ s.paused = false ∧ s.loaded = true := by
  simp [State.gated, and_assoc]

/-- The only error a fetch raises is AddressOutOfRange (R63). -/
theorem fetch_error {c : Config} {s : State} {e : Err} (h : s.fetch c = .error e) : e = .addressOutOfRange := by
  unfold State.fetch State.loadWord at h
  split at h
  · exact (Except.error.inj h).symm
  · split at h
    · cases h
    · exact (Except.error.inj h).symm

/-- The elements an instruction's rule can stage writes to (R23). -/
def targetsOf : Instr → List Target
  | .cls => [.fb]
  | .ret => [.sp]
  | .jmp _ | .seqb _ _ | .sneqb _ _ | .srer _ _ | .sne _ _ | .jpv0 _ | .skp _ | .sknp _ => []
  | .call _ => [.stack, .sp]
  | .lbr _ _ | .abr _ _ | .lrr _ _ | .or _ _ | .and _ _ | .xor _ _ | .add _ _ | .sub _ _ | .shr _ | .subn _ _
  | .shl _ | .lddv _ => [.v]
  | .rnd _ _ => [.v, .draws]
  | .ldi _ | .addi _ | .lds _ => [.i]
  | .drw _ _ _ => [.fb, .v]
  | .ldk _ => [.v, .waiting, .waitX]
  | .ldvd _ => [.dt]
  | .ldst _ => [.st]
  | .bcd _ => [.mem]
  | .sr _ => [.mem, .i]
  | .lr _ => [.v, .i]

/-- An instruction stages writes to its own elements only, under every setting of the parameters. -/
theorem target_mem_targetsOf {c : Config} {i : Instr} {s : State} {ws : List Write} {npc : Nat}
    (h : effectUnder c i s = .done ws npc) {w : Write} (hw : w ∈ ws) : w.target ∈ targetsOf i := by
  cases i with
  | ret =>
    simp only [effectUnder, retEffect] at h
    split at h
    · cases h
    · split at h
      · cases h; simp_all [Write.target, targetsOf]
      · cases h
  | call nnn =>
    simp only [effectUnder, callEffect] at h
    split at h
    · cases h
    · split at h
      · cases h
        rcases List.mem_cons.mp hw with rfl | hw
        · simp [Write.target, targetsOf]
        · simp_all [Write.target, targetsOf]
      · cases h
  | drw x y n =>
    simp only [effectUnder, drwEffect] at h
    split at h
    · cases h
    · cases h
      rcases List.mem_append.mp hw with hw | hw
      · simp [target_of_mem_xorWrites hw, targetsOf]
      · simp_all [Write.target, targetsOf]
  | skp x =>
    simp only [effectUnder, skpEffect] at h
    split at h <;> cases h
    cases hw
  | sknp x =>
    simp only [effectUnder, sknpEffect] at h
    split at h <;> cases h
    cases hw
  | ldk x =>
    simp only [effectUnder, ldkEffect] at h
    split at h <;> cases h
    · simp_all [Write.target, targetsOf]
    · rcases List.mem_cons.mp hw with rfl | hw
      · simp [Write.target, targetsOf]
      · simp_all [Write.target, targetsOf]
  | addi x =>
    simp only [effectUnder, addiEffect] at h
    split at h <;> cases h
    simp_all [Write.target, targetsOf]
  | lds x =>
    simp only [effectUnder, ldsEffect] at h
    split at h <;> cases h
    simp_all [Write.target, targetsOf]
  | bcd x =>
    simp only [effectUnder, bcdEffect, storeBytes] at h
    split at h
    · cases h
    · rename_i ws' hs
      cases h
      split at hs
      · cases hs; simp [target_of_mem_stores hw, targetsOf]
      · cases hs
  | sr x =>
    simp only [effectUnder, srEffect, storeBytes] at h
    split at h
    · cases h
    · rename_i ws' hs
      cases h
      split at hs
      · cases hs
        rcases List.mem_append.mp hw with hw | hw
        · simp [target_of_mem_stores hw, targetsOf]
        · simp_all [Write.target, targetsOf]
      · cases hs
  | lr x =>
    simp only [effectUnder, lrEffect] at h
    split at h
    · cases h
    · cases h
      rcases List.mem_append.mp hw with hw | hw
      · simp [target_of_mem_regWrites hw, targetsOf]
      · simp_all [Write.target, targetsOf]
  | _ =>
    simp only [effectUnder] at h
    cases h
    simp only [List.mem_cons, List.not_mem_nil, or_false] at hw
    all_goals (rcases hw with rfl | rfl <;> simp [Write.target, targetsOf])

/-- An instruction that raises raises an error by name, never `none` (R301). -/
theorem raise_ne_none {c : Config} {i : Instr} {s : State} {e : Err} (h : effectUnder c i s = .raise e) : e ≠ .none := by
  cases i with
  | ret =>
    simp only [effectUnder, retEffect] at h
    split at h
    · cases h; decide
    · split at h <;> cases h
  | call nnn =>
    simp only [effectUnder, callEffect] at h
    split at h
    · cases h; decide
    · split at h <;> cases h
  | addi x =>
    simp only [effectUnder, addiEffect] at h
    split at h <;> cases h
    decide
  | ldk x =>
    simp only [effectUnder, ldkEffect] at h
    split at h <;> cases h
  | drw x y n =>
    simp only [effectUnder, drwEffect] at h
    split at h <;> cases h
    rename_i he
    simp [loadBytes_error he]
  | lr x =>
    simp only [effectUnder, lrEffect] at h
    split at h <;> cases h
    rename_i he
    simp [loadBytes_error he]
  | bcd x =>
    simp only [effectUnder, bcdEffect] at h
    split at h <;> cases h
    rename_i he
    simp [storeBytes_error he]
  | sr x =>
    simp only [effectUnder, srEffect] at h
    split at h <;> cases h
    rename_i he
    simp [storeBytes_error he]
  | lds x =>
    simp only [effectUnder, ldsEffect] at h
    split at h <;> cases h
    rename_i he
    simp [glyphAddress_error he]
  | skp x =>
    simp only [effectUnder, skpEffect] at h
    split at h <;> cases h
    rename_i he
    simp [keyIndex_error he]
  | sknp x =>
    simp only [effectUnder, sknpEffect] at h
    split at h <;> cases h
    rename_i he
    simp [keyIndex_error he]
  | _ => simp only [effectUnder] at h; cases h

/-- An instruction's next state: an error's state, or its staged writes committed with the next PC, the machine as halted as it was. -/
theorem exec_next {i : Instr} {s t : State} (h : exec i s = .next t) :
    (∃ e, e ≠ .none ∧ t = s.raise e) ∨
    (∃ ws npc, effectUnder Config.hardware i s = .done ws npc ∧ npc ≤ 0xFFF ∧
      t = { commit Config.hardware s ws with pc := BitVec.ofNat 12 npc }) := by
  rw [exec_eq_complete] at h
  rcases complete_next h with ⟨e, ht, he | ⟨rfl, -⟩⟩ | h
  · exact .inl ⟨e, raise_ne_none he, ht⟩
  · exact .inl ⟨_, by decide, ht⟩
  · exact .inr h

end Sys2Proof.Machine
end

