-- ==== Sys2Proof/Laws/Safety.lean ====
section
/-! SUPPORT. The terms of Sys2Proof/Safety.lean in the terms of the operations. -/

namespace Sys2Proof.Machine

/-- The pixels a sprite covers are the positions DRW flips (R151, R152). -/
theorem spriteCovers_iff (s : State) (x y : RegIdx) (n : BitVec 4) (px : Fin 64) (py : Fin 32) :
    spriteCovers s x y n px py ↔
      (px, py) ∈ spritePixels (s.getV x) (s.getV y) 0 (s.bytesAt Config.hardware s.i.toNat n.toNat) := by
  rw [mem_spritePixels]
  constructor
  · rintro ⟨r, c, hr, hc, hb, h1, h2⟩
    refine ⟨r, c, by simpa using hr, hc, by rw [getElem_bytesAt]; exact hb, ?_⟩
    simp only [spritePixel, Prod.mk.injEq, Fin.ext_iff, Fin.val_ofNat]
    exact ⟨h1, by simpa using h2⟩
  · rintro ⟨r, c, hr, hc, hb, h⟩
    simp only [spritePixel, Prod.mk.injEq, Fin.ext_iff, Fin.val_ofNat] at h
    rw [getElem_bytesAt] at hb
    exact ⟨r, c, by simpa using hr, hc, hb, h.1, by simpa using h.2⟩

/-- Hidden state is a relation that holds of a state and itself (R45). -/
theorem agreeButHidden_refl (s : State) : agreeButHidden s s := ⟨rfl, fun _ _ => rfl, fun _ => rfl⟩

/-- An error on both sides keeps the agreement (R45, R302). -/
theorem agreeButHidden_raise {s t : State} (h : agreeButHidden s t) (e : Err) : agreeButHidden (s.raise e) (t.raise e) := by
  obtain ⟨h1, h2, h3⟩ := h
  refine ⟨?_, h2, h3⟩
  rw [h1]
  rfl

/-- An error keeps the invariant: it halts the machine and names itself (R300, R301). -/
theorem inv_raise {s : State} (h : s.Inv) {e : Err} (he : e ≠ .none) : (s.raise e).Inv := by
  obtain ⟨h1, h2, -, h4⟩ := h
  exact ⟨h1, h2, by simp [State.errMatchesHalted, State.raise, he], h4⟩

/-! ## Host transactions -/

/-- What a load returns, by the image's length (R352). -/
theorem loadReply_eq (image : List Byte) :
    loadReply image = if 3584 < image.length then .loadTooLarge else .success := rfl

/-- A load of at most 3584 bytes (R352). -/
theorem load_success (c : Config) (s : State) {image : List Byte} (h : image.length ≤ 3584) :
    s.load c image = { s.resetNow with mem := Memory.writeList c [] progBase image, loaded := true } := by
  simp [State.load, loadReply_eq, Nat.not_lt.mpr h]

/-- A load of more than 3584 bytes (R352). -/
theorem load_tooLarge (c : Config) (s : State) {image : List Byte} (h : 3584 < image.length) :
    s.load c image = s.raise .loadTooLarge := by
  simp [State.load, loadReply_eq, h]

end Sys2Proof.Machine
end

