-- ==== Sys2Proof/Laws/WellFormed.lean ====
section
/-! SUPPORT. Instr's operand types have the fields' widths, so every instruction is well formed (R92). -/

namespace Sys2Proof

theorem regInRange_toNat (x : RegIdx) : regInRange x.toNat = true := by simp [regInRange]; omega
theorem byteInRange_toNat (b : Byte) : byteInRange b.toNat = true := by simp [byteInRange]; omega
theorem countInRange_toNat (n : BitVec 4) : countInRange n.toNat = true := by simp [countInRange]; omega
theorem addrInRange_toNat (a : Addr) : addrInRange a.toNat = true := by simp [addrInRange]; omega

/-- Every instruction is well formed. -/
theorem wellFormed_all (i : Instr) : wellFormed i = true := by
  cases i <;>
    simp [wellFormed, regInRange_toNat, byteInRange_toNat, countInRange_toNat, addrInRange_toNat]

end Sys2Proof
end

