-- ==== Sys2Proof/Tests/Slice0.lean ====
section
/-! SUPPORT. The model's own tests. Expected values are the vectors of spec/95_test_vectors.md, named in each comment, or the words
of spec/30_encoding.md. The last part holds a witness for every statement that has hypotheses. -/

namespace Sys2Proof.Tests

open Sys2Proof.Machine

/-! ## Helpers -/

/-- The base state of spec/95: after reset, then LOADED = 1. -/
def base : State := { State.reset with loaded := true }

/-- A state with PC moved. -/
def onPc (pc : Addr) (s : State) : State := { s with pc := pc }

/-- A state with I set. -/
def withI (a : BitVec 16) (s : State) : State := { s with i := a }

/-- A state with one key pressed. -/
def withKey (k : RegIdx) (s : State) : State := { s with keys := s.keys.set k.toNat true k.isLt }

/-- A state with a byte of memory set. -/
def withByte (a : Nat) (u : Byte) (s : State) : State := { s with mem := s.mem.write Config.hardware a u }

/-- A state with the word stored where it fetches. -/
def onWord (op : Opcode) (s : State) : State := s.storeWord Config.hardware s.pc.toNat op

/-- A step answers a next state that meets a check. -/
def steps (s : State) (check : State → Bool) : Bool :=
  match step s with
  | .next t => check t
  | _ => false

/-- The step of a state on which the word stands answers a next state that meets a check. -/
def runs (op : Opcode) (s : State) (check : State → Bool) : Bool := steps (onWord op s) check

/-- The same under another setting of the parameters. -/
def runsUnder (c : Config) (op : Opcode) (s : State) (check : State → Bool) : Bool :=
  match stepUnder c (onWord op s) with
  | .next t => check t
  | _ => false

/-- The step of a state on which the word stands halts with an error code and changes HALTED and ERR alone. -/
def halts (op : Opcode) (s : State) (e : Err) : Bool :=
  runs op s (fun t => t == (onWord op s).raise e)

/-- An instruction answers a next state. -/
def answers (i : Instr) (s : State) : Bool :=
  match exec i s with
  | .next _ => true
  | _ => false

/-! ## Operand ranges (R92) -/

theorem test_register_index_16_refused : regInRange 16 = false ∧ regInRange 15 = true := by decide
theorem test_immediate_256_refused : byteInRange 256 = false ∧ byteInRange 255 = true := by decide
theorem test_row_count_16_refused : countInRange 16 = false ∧ countInRange 15 = true := by decide
theorem test_address_4096_refused : addrInRange 4096 = false ∧ addrInRange 4095 = true := by decide

/-! ## Decoding words written out from R95 -/

theorem test_decode_family0 : decode 0x00E0 = .ok .cls ∧ decode 0x00EE = .ok .ret := by decide
theorem test_decode_jumps :
    decode 0x1ABC = .ok (.jmp 0xABC) ∧ decode 0x2ABC = .ok (.call 0xABC) ∧ decode 0xBABC = .ok (.jpv0 0xABC) := by decide
theorem test_decode_skips :
    decode 0x3A7F = .ok (.seqb 0xA 0x7F) ∧ decode 0x4A7F = .ok (.sneqb 0xA 0x7F) ∧
    decode 0x5A70 = .ok (.srer 0xA 0x7) ∧ decode 0x9A70 = .ok (.sne 0xA 0x7) := by decide
theorem test_decode_byte_loads :
    decode 0x6A7F = .ok (.lbr 0xA 0x7F) ∧ decode 0x7A7F = .ok (.abr 0xA 0x7F) ∧ decode 0xCA7F = .ok (.rnd 0xA 0x7F) := by
  decide
theorem test_decode_family8_logic :
    decode 0x8A70 = .ok (.lrr 0xA 0x7) ∧ decode 0x8A71 = .ok (.or 0xA 0x7) ∧ decode 0x8A72 = .ok (.and 0xA 0x7) ∧
    decode 0x8A73 = .ok (.xor 0xA 0x7) := by decide
theorem test_decode_family8_arithmetic :
    decode 0x8A74 = .ok (.add 0xA 0x7) ∧ decode 0x8A75 = .ok (.sub 0xA 0x7) ∧ decode 0x8A76 = .ok (.shr 0xA) ∧
    decode 0x8A77 = .ok (.subn 0xA 0x7) ∧ decode 0x8A7E = .ok (.shl 0xA) := by decide
theorem test_decode_index_and_sprite : decode 0xAABC = .ok (.ldi 0xABC) ∧ decode 0xDA73 = .ok (.drw 0xA 0x7 0x3) := by decide
theorem test_decode_familyE : decode 0xEA9E = .ok (.skp 0xA) ∧ decode 0xEAA1 = .ok (.sknp 0xA) := by decide
theorem test_decode_familyF_keys_and_timers :
    decode 0xFA07 = .ok (.lddv 0xA) ∧ decode 0xFA0A = .ok (.ldk 0xA) ∧ decode 0xFA15 = .ok (.ldvd 0xA) ∧
    decode 0xFA18 = .ok (.ldst 0xA) := by decide
theorem test_decode_familyF_index_and_memory :
    decode 0xFA1E = .ok (.addi 0xA) ∧ decode 0xFA29 = .ok (.lds 0xA) ∧ decode 0xFA33 = .ok (.bcd 0xA) ∧
    decode 0xFA55 = .ok (.sr 0xA) ∧ decode 0xFA65 = .ok (.lr 0xA) := by decide
/-- R107's examples of encoding. -/
theorem test_encode_examples :
    encode (.jmp 0x204) = 0x1204 ∧ encode (.add 0 1) = 0x8014 ∧ encode (.drw 1 2 5) = 0xD125 ∧ encode (.lr 2) = 0xF265 ∧
    encode (.shr 3) = 0x8306 ∧ encode .cls = 0x00E0 := by decide
/-- R95 has 34 rows, and LAWS.json's names are theirs. -/
theorem test_opcode_map_has_34_rows : opcodeTable.length = 34 ∧ (opcodeTable.map (·.mnemonic)).Nodup := by decide
/-- DEC1, DEC2, DEC7, DEC8. -/
theorem test_decode_illegal_0_and_8 :
    decode 0x0000 = .error (.family0 0x00) ∧ decode 0x0123 = .error (.family0 0x23) ∧
    decode 0x8008 = .error (.family8 0x8) ∧ decode 0x800F = .error (.family8 0xF) := by decide
/-- DEC9, DEC11, DEC12. -/
theorem test_decode_illegal_E_and_F :
    decode 0xE000 = .error (.familyE 0x00) ∧ decode 0xF000 = .error (.familyF 0x00) ∧
    decode 0xF0FF = .error (.familyF 0xFF) := by decide
/-- DEC4, DEC6, DEC13: the ignored nibbles, and STRICT_DECODE. -/
theorem test_decode_strict_nibbles :
    decode 0x01E0 = .ok .cls ∧ decodeUnder true 0x01E0 = .error (.strictNibble 1) ∧
    decode 0x0FEE = .ok .ret ∧ decodeUnder true 0x0FEE = .error (.strictNibble 0xF) ∧
    decode 0x5121 = .ok (.srer 1 2) ∧ decodeUnder true 0x5121 = .error (.strictNibble 1) := by decide
theorem test_decode_one_byte_truncated : decodeBytes [0x60] = .error .truncated := by decide

/-! ## The host's questions -/

theorem test_decodeTableWord : decodeTableWord 16 0x8A74 = some (.add 0xA 0x7) ∧ decodeTableWord 16 0x0000 = none := by decide
/-- A word placed at reset is what the first step runs (R61, R123). -/
theorem test_withFetchWord_runs :
    (match step (State.reset.withFetchWord 16 0x6342) with
      | .next t => t.getV 3 == 0x42 && t.pc == 0x202
      | _ => false) = true := by decide
theorem test_core_is_this_machine : core.reset = State.reset := rfl

/-! ## One step of each instruction -/

/-- DSP1. -/
theorem test_cls : runs 0x00E0 ((base.setPixel 3 4 true).setV 0xF 5)
    (fun t => t.fb == base.fb && t.getV 0xF == 5 && t.pc == 0x202) = true := by decide
/-- CF3: the deepest entry. -/
theorem test_ret_top : runs 0x00EE { base.setStack 15 0x456 with sp := 16 }
    (fun t => t.pc == 0x458 && t.sp == 15 && t.stackAt 15 == some 0x456) = true := by decide
/-- CF1 and CF2. -/
theorem test_ret_errors : halts 0x00EE base .stackUnderflow = true ∧
    halts 0x00EE { base.setStack 0 0xFFE with sp := 1 } .addressOutOfRange = true := by decide
/-- ENG3: a jump at the top of memory. -/
theorem test_jmp_at_top : runs 0x1300 (onPc 0xFFE base) (fun t => t.pc == 0x300 && !t.halted) = true := by decide
/-- CF5. -/
theorem test_call : runs 0x2300 { onPc 0x250 base with sp := 3 }
    (fun t => t.stackAt 3 == some 0x250 && t.sp == 4 && t.pc == 0x300) = true := by decide
/-- CF4. -/
theorem test_call_overflow : halts 0x2300 { base with sp := 16 } .stackOverflow = true := by decide
/-- S9. -/
theorem test_seqb : runs 0x3310 (base.setV 3 0x10) (fun t => t.pc == 0x204) = true ∧
    runs 0x3310 (base.setV 3 0x11) (fun t => t.pc == 0x202) = true := by decide
/-- CF8 and CF9. -/
theorem test_seqb_at_top : halts 0x3000 (onPc 0xFFC base) .addressOutOfRange = true ∧
    runs 0x3001 (onPc 0xFFC base) (fun t => t.pc == 0xFFE) = true := by decide
/-- CF11, and the other outcome. -/
theorem test_sneqb : runs 0x4310 (base.setV 3 0x10) (fun t => t.pc == 0x202) = true ∧
    runs 0x4310 (base.setV 3 0x11) (fun t => t.pc == 0x204) = true := by decide
/-- CF12 and CF13. -/
theorem test_srer : runs 0x5120 ((base.setV 1 7).setV 2 8) (fun t => t.pc == 0x202) = true ∧
    runs 0x5110 (base.setV 1 7) (fun t => t.pc == 0x204) = true := by decide
/-- CF14 and DEC14. -/
theorem test_sne : runs 0x9110 (base.setV 1 7) (fun t => t.pc == 0x202) = true ∧
    runs 0x9AB1 ((base.setV 0xA 1).setV 0xB 2) (fun t => t.pc == 0x204) = true := by decide
/-- CF15: the highest target, no wrap. -/
theorem test_jpv0 : runs 0xBF00 (base.setV 0 0xFF) (fun t => t.pc == 0xFFF && !t.halted) = true := by decide
/-- CF16. -/
theorem test_jpv0_past_end : halts 0xBFFF (base.setV 0 1) .addressOutOfRange = true := by decide
/-- ALU1. -/
theorem test_lbr : runs 0x6342 base (fun t => t.getV 3 == 0x42 && t.pc == 0x202) = true := by decide
/-- ENG2. -/
theorem test_lbr_at_top : halts 0x6042 (onPc 0xFFE base) .addressOutOfRange = true := by decide
/-- ALU2 and ALU3. -/
theorem test_abr : runs 0x70FF ((base.setV 0 1).setV 0xF 0x77) (fun t => t.getV 0 == 0 && t.getV 0xF == 0x77) = true ∧
    runs 0x7FFF (base.setV 0xF 1) (fun t => t.getV 0xF == 0) = true := by decide
/-- ALU4. -/
theorem test_lrr : runs 0x8F00 ((base.setV 0 9).setV 0xF 1) (fun t => t.getV 0xF == 9) = true := by decide
/-- ALU5. -/
theorem test_or : runs 0x8011 ((base.setV 0 0xF0).setV 1 0x0F) (fun t => t.getV 0 == 0xFF && t.getV 0xF == 0) = true := by
  decide
/-- ALU6. -/
theorem test_and : runs 0x8012 ((base.setV 0 0xF0).setV 1 0x3C) (fun t => t.getV 0 == 0x30) = true := by decide
/-- ALU7. -/
theorem test_xor : runs 0x8013 ((base.setV 0 0xFF).setV 1 0x0F) (fun t => t.getV 0 == 0xF0) = true := by decide
/-- S4 and ALU10. -/
theorem test_add : runs 0x8014 ((base.setV 0 0xFA).setV 1 0x0A) (fun t => t.getV 0 == 4 && t.getV 0xF == 1) = true ∧
    runs 0x8014 ((base.setV 0 0xFE).setV 1 1) (fun t => t.getV 0 == 0xFF && t.getV 0xF == 0) = true := by decide
/-- ALU11 and ENG10: VF as operand and as destination. -/
theorem test_add_flag_register :
    runs 0x80F4 ((base.setV 0 1).setV 0xF 0xFF) (fun t => t.getV 0 == 0 && t.getV 0xF == 1) = true ∧
    runs 0x8F14 ((base.setV 0xF 0xFF).setV 1 1) (fun t => t.getV 0xF == 1) = true := by decide
/-- S5 and ALU12. -/
theorem test_sub : runs 0x8015 ((base.setV 0 5).setV 1 10) (fun t => t.getV 0 == 0xFB && t.getV 0xF == 0) = true ∧
    runs 0x8015 ((base.setV 0 7).setV 1 7) (fun t => t.getV 0 == 0 && t.getV 0xF == 1) = true := by decide
/-- ALU13 and ALU14: VF as operand and as destination. -/
theorem test_sub_flag_register :
    runs 0x81F5 ((base.setV 1 3).setV 0xF 5) (fun t => t.getV 1 == 0xFE && t.getV 0xF == 0) = true ∧
    runs 0x8F15 ((base.setV 0xF 5).setV 1 3) (fun t => t.getV 0xF == 1) = true := by decide
/-- DEC15 and ALU15. -/
theorem test_shr : runs 0x8126 ((base.setV 1 4).setV 2 0xFF)
      (fun t => t.getV 1 == 2 && t.getV 0xF == 0 && t.getV 2 == 0xFF) = true ∧
    runs 0x8006 (base.setV 0 3) (fun t => t.getV 0 == 1 && t.getV 0xF == 1) = true := by decide
/-- ALU17. -/
theorem test_shr_flag_register : runs 0x8F06 (base.setV 0xF 2) (fun t => t.getV 0xF == 0) = true := by decide
/-- ALU18 and ALU19: the result goes to Vy. -/
theorem test_subn :
    runs 0x8017 ((base.setV 0 5).setV 1 2) (fun t => t.getV 1 == 0xFD && t.getV 0xF == 0 && t.getV 0 == 5) = true ∧
    runs 0x8017 ((base.setV 0 2).setV 1 5) (fun t => t.getV 1 == 3 && t.getV 0xF == 1 && t.getV 0 == 2) = true := by decide
/-- ALU21 and ALU22. -/
theorem test_subn_flag_register :
    runs 0x80F7 ((base.setV 0 1).setV 0xF 3) (fun t => t.getV 0xF == 1 && t.getV 0 == 1) = true ∧
    runs 0x8F07 ((base.setV 0xF 3).setV 0 1) (fun t => t.getV 0 == 0xFE && t.getV 0xF == 0) = true := by decide
/-- ALU23 and ALU24. -/
theorem test_shl : runs 0x810E (base.setV 1 0x81) (fun t => t.getV 1 == 2 && t.getV 0xF == 1) = true ∧
    runs 0x800E (base.setV 0 0x7F) (fun t => t.getV 0 == 0xFE && t.getV 0xF == 0) = true := by decide
/-- RND ends its step whatever byte is drawn (R212; ALU26 to ALU28 name the draw, which here is free). -/
theorem test_rnd : runs 0xC0F0 base (fun t => t.pc == 0x202 && t.draws == 1 && t.getV 1 == 0) = true := by decide
/-- MEM1. -/
theorem test_ldi : runs 0xAABC base (fun t => t.i == 0x0ABC) = true := by decide
/-- MEM3 and MEM5: no check at 4096. -/
theorem test_addi : runs 0xF01E ((withI 0xFFF base).setV 0 1) (fun t => t.i == 0x1000 && !t.halted) = true ∧
    runs 0xF01E ((withI 0xFFF0 base).setV 0 0xF) (fun t => t.i == 0xFFFF && t.getV 0xF == 0) = true := by decide
/-- MEM6. -/
theorem test_addi_past_16_bits : halts 0xF01E ((withI 0xFFFF base).setV 0 1) .addressOutOfRange = true := by decide
/-- MEM8. -/
theorem test_lds : runs 0xF029 (base.setV 0 0xF) (fun t => t.i == 0x4B) = true := by decide
/-- MEM9. -/
theorem test_lds_past_F : halts 0xF029 (base.setV 0 0x10) .invalidSpriteIndex = true := by decide
/-- S6. -/
theorem test_bcd : runs 0xF033 ((withI 0x300 base).setV 0 0x9C) (fun t =>
    t.readByte Config.hardware 0x300 == 1 && t.readByte Config.hardware 0x301 == 5 &&
    t.readByte Config.hardware 0x302 == 6 && t.i == 0x300) = true := by decide
/-- MEM14: a store of which one byte does not exist stores nothing. -/
theorem test_bcd_at_top : halts 0xF033 ((withI 0xFFE base).setV 0 123) .addressOutOfRange = true := by decide
/-- MEM23. -/
theorem test_sr : runs 0xF155 (((withI 0x303 base).setV 0 7).setV 1 5) (fun t =>
    t.readByte Config.hardware 0x303 == 7 && t.readByte Config.hardware 0x304 == 5 &&
    t.readByte Config.hardware 0x305 == 0 && t.i == 0x305) = true := by decide
/-- MEM21. -/
theorem test_lr : runs 0xF265 (withByte 0x300 1 (withByte 0x301 2 (withByte 0x302 3 ((withI 0x300 base).setV 0xF 9))))
    (fun t => t.getV 0 == 1 && t.getV 1 == 2 && t.getV 2 == 3 && t.getV 3 == 0 && t.getV 0xF == 9 && t.i == 0x303) =
    true := by decide
/-- MEM20. -/
theorem test_lr_at_top : halts 0xFF65 (withI 0xFF1 base) .addressOutOfRange = true := by decide
/-- DSP5: both coordinates at the edge, the column wraps. -/
theorem test_drw_wraps : runs 0xD011 ((base.setV 0 62).setV 1 31) (fun t =>
    t.fb == ((((base.setPixel 62 31 true).setPixel 63 31 true).setPixel 0 31 true).setPixel 1 31 true).fb &&
    t.getV 0xF == 0) = true := by decide
/-- DSP8: a collision. -/
theorem test_drw_collision : runs 0xD011 (base.setPixel 1 0 true) (fun t =>
    t.pixel 0 0 && !t.pixel 1 0 && t.pixel 2 0 && t.pixel 3 0 && !t.pixel 4 0 && t.getV 0xF == 1) = true := by decide
/-- KEY1 and KEY2. -/
theorem test_skp : runs 0xE09E (withKey 5 (base.setV 0 5)) (fun t => t.pc == 0x204) = true ∧
    runs 0xE09E (base.setV 0 5) (fun t => t.pc == 0x202) = true := by decide
/-- KEY5. -/
theorem test_skp_past_F : halts 0xE09E (base.setV 0 0x10) .invalidKeyIndex = true := by decide
/-- KEY3 and KEY4. -/
theorem test_sknp : runs 0xE0A1 (withKey 5 (base.setV 0 5)) (fun t => t.pc == 0x202) = true ∧
    runs 0xE0A1 (base.setV 0 5) (fun t => t.pc == 0x204) = true := by decide
/-- KEY8: the lowest key. -/
theorem test_ldk_pressed : runs 0xF00A (withKey 0xA (withKey 3 base))
    (fun t => t.getV 0 == 3 && !t.waiting && t.pc == 0x202) = true := by decide
/-- KEY10: no fault while waiting. -/
theorem test_ldk_waits : runs 0xF00A (onPc 0xFFE base)
    (fun t => t.waiting && t.waitX == 0 && t.pc == 0xFFE && !t.halted) = true := by decide
/-- KEY13. -/
theorem test_lddv : runs 0xF407 { base with dt := 0x2A } (fun t => t.getV 4 == 0x2A) = true := by decide
/-- KEY14's first step. -/
theorem test_ldvd : runs 0xF015 (base.setV 0 3) (fun t => t.dt == 3) = true := by decide
/-- KEY16: BEEP waits for the tick. -/
theorem test_ldst : runs 0xF018 { base with st := 5, beep := true } (fun t => t.st == 0 && t.beep && !t.tick.beep) = true := by
  decide

/-! ## The engine and the host's transactions -/

/-- ENG1: nothing to fetch at 0xFFF. -/
theorem test_fetch_at_FFF :
    steps (onPc 0xFFF base) (fun t => t == (onPc 0xFFF base).raise .addressOutOfRange) = true := by decide
/-- ENG4 and ENG5: an odd PC. -/
theorem test_odd_pc : runs 0x6042 (onPc 0x201 base) (fun t => t.getV 0 == 0x42 && t.pc == 0x203) = true ∧
    runsUnder { Config.hardware with oddPc := .fault } 0x6042 (onPc 0x201 base)
      (fun t => t.halted && t.err == .addressOutOfRange && t.pc == 0x201 && t.getV 0 == 0) = true := by decide
/-- MEM10 and KEY6: the other settings of LDS_CHECK and KEY_INDEX_POLICY. -/
theorem test_unchecked_variants :
    runsUnder { Config.hardware with ldsCheck := .unchecked } 0xF029 (base.setV 0 0x10) (fun t => t.i == 0x50) = true ∧
    runsUnder { Config.hardware with keyIndex := .mask } 0xE09E (withKey 0 (base.setV 0 0x10)) (fun t => t.pc == 0x204) =
      true := by decide
/-- MEM16: FONT_WRITE = ignore. -/
theorem test_font_write_ignored :
    runsUnder { Config.hardware with fontWrite := .ignore } 0xF033 ((withI 0x4E base).setV 0 123) (fun t =>
      t.readByte Config.hardware 0x4E == 0x80 && t.readByte Config.hardware 0x4F == 0x80 &&
      t.readByte Config.hardware 0x50 == 3 && !t.halted) = true := by decide
/-- S10's last step, and KEY11. -/
theorem test_key_recheck :
    runs 0xF30A (withKey 7 { base with waiting := true, waitX := 3 })
      (fun t => t.getV 3 == 7 && !t.waiting && t.pc == 0x202) = true ∧
    halts 0xF00A (withKey 1 { onPc 0xFFE base with waiting := true }) .addressOutOfRange = true := by decide
/-- ENG6 and ENG8: the gate. -/
theorem test_gate : steps (base.raise .decodeFailure) (fun t => t == base.raise .decodeFailure) = true ∧
    steps State.reset (fun t => t == State.reset) = true := by decide
/-- P7: the empty image. -/
theorem test_empty_image :
    steps (State.reset.load Config.hardware [])
      (fun t => t == (State.reset.load Config.hardware []).raise .decodeFailure) = true := by decide
/-- HOST5: an odd image. -/
theorem test_load_three_bytes :
    (State.reset.load Config.hardware [0x60, 0x42, 0x12]).mem = [(0x200, 0x60), (0x201, 0x42), (0x202, 0x12)] := by decide
/-- S14 and KEY17: a tick, also while HALTED. -/
theorem test_tick : ({ base with st := 1 } : State).tick = { base with beep := true } ∧
    ({ base.raise .decodeFailure with dt := 2, st := 2 } : State).tick =
      { base.raise .decodeFailure with dt := 1, st := 1, beep := true } := by decide
/-- KEY20, KEY21 and HOST7: pause, resume and status. -/
theorem test_pause_and_status :
    (base.raise .stackUnderflow).pause = base.raise .stackUnderflow ∧
    ({ base with waiting := true } : State).pause.status = (1, 0) ∧
    ({ base with waiting := true } : State).pause.resume.status = (2, 0) ∧
    (base.raise .stackUnderflow).status = (3, 4) := by decide
/-- R34: pixel (x, y) is read at index y × 64 + x. -/
theorem test_framebuffer_order : (base.setPixel 3 4 true).framebuffer[4 * 64 + 3]? = some true := by decide

/-! ## Witnesses: for every statement with hypotheses, states and operands that meet them, clause by clause, at the edge of the
clause's range. `lastPc` is the highest PC that PC + 2 keeps in range, `pastPc` the lowest it does not; `lastSkip` and `pastSkip`
are the same for PC + 4. -/

/-- PC + 2 = 0xFFF. -/
def lastPc : State := onPc 0xFFD base
/-- PC + 2 = 0x1000. -/
def pastPc : State := onPc 0xFFE base
/-- PC + 4 = 0xFFF. -/
def lastSkip : State := onPc 0xFFB base
/-- PC + 4 = 0x1000. -/
def pastSkip : State := onPc 0xFFC base

/-- The hypothesis on the PC of every completion clause, and of the trap clause beside it. -/
theorem witness_next_pc : lastPc.pc.toNat + 2 ≤ 0xFFF ∧ 0xFFF < pastPc.pc.toNat + 2 ∧
    lastSkip.pc.toNat + 4 ≤ 0xFFF ∧ 0xFFF < pastSkip.pc.toNat + 4 := by decide

theorem witness_WordsMatchExactlyTheRowTheyDecodeTo :
    decodeUnder true 0x8A74 = .ok (.add 0xA 0x7) ∧ rowOf (.add 0xA 0x7) ∈ opcodeTable ∧
    (rowOf (.add 0xA 0x7)).hits true 0x8A74 = true := by decide
theorem witness_EncodeOfDecodeKeepsOperandsAndPattern :
    decodeUnder false 0x6A7F = .ok (.lbr 0xA 0x7F) ∧ ignoresNibble (.lbr 0xA 0x7F) = false ∧
    decodeUnder false 0x0FE0 = .ok .cls ∧ decodeUnder false 0x0FEE = .ok .ret ∧
    decodeUnder false 0x512F = .ok (.srer 1 2) ∧ decodeUnder false 0x912F = .ok (.sne 1 2) ∧
    decodeUnder false 0x81F6 = .ok (.shr 1) ∧ decodeUnder true 0x81FE = .ok (.shl 1) ∧
    decodeUnder true 0x5120 = .ok (.srer 1 2) := by decide
theorem witness_IllegalWordsHaltWithDecodeFailure :
    (onWord 0xF0FF base).gated = false ∧ (onWord 0xF0FF base).waiting = false ∧
    (onWord 0xF0FF base).fetch Config.hardware = .ok 0xF0FF ∧ decode 0xF0FF = .error (.familyF 0xFF) := by decide
theorem witness_GatedStepChangesNothing :
    (base.raise .decodeFailure).halted = true ∧ base.pause.paused = true ∧ State.reset.loaded = false := by decide
theorem witness_StepRunsDecodedInstruction :
    (onWord 0x6342 pastPc).halted = false ∧ (onWord 0x6342 pastPc).paused = false ∧ (onWord 0x6342 pastPc).loaded = true ∧
    (onWord 0x6342 pastPc).waiting = false ∧ (onWord 0x6342 pastPc).fetch Config.hardware = .ok 0x6342 ∧
    decode 0x6342 = .ok (.lbr 3 0x42) ∧ wellFormed (.lbr 3 0x42) = true := by decide

/-- A state that waits at its LDK, at a given PC. -/
def waitingAt (pc : Addr) : State := { onWord 0xF30A (onPc pc base) with waiting := true, waitX := 3 }

theorem witness_KeyRecheckTakesTheLowestPressedKey :
    (waitingAt 0xFFD).halted = false ∧ (waitingAt 0xFFD).paused = false ∧ (waitingAt 0xFFD).loaded = true ∧
    (waitingAt 0xFFD).waiting = true ∧ (∀ k, (waitingAt 0xFFD).keyDown k = false) ∧
    (withKey 0xF (waitingAt 0xFFD)).keyDown 0xF = true ∧
    (∀ k : RegIdx, (withKey 0xF (waitingAt 0xFFD)).keyDown k = true → (0xF : RegIdx).toNat ≤ k.toNat) ∧
    (waitingAt 0xFFD).pc.toNat + 2 ≤ 0xFFF ∧ 0xFFF < (waitingAt 0xFFE).pc.toNat + 2 := by decide
theorem witness_FetchIsBigEndianAndChecked :
    (onPc 0xFFF base).pc.toNat = 0xFFF ∧ ({ Config.hardware with oddPc := .fault } : Config).oddPc = .fault ∧
    (onPc 0x201 base).pc.toNat % 2 = 1 ∧ pastPc.pc.toNat < 0xFFF ∧ pastPc.pc.toNat % 2 = 0 := by decide
theorem witness_HaltingStepCommitsNothing :
    (onPc 0xFFF base).halted = false ∧ steps (onPc 0xFFF base) (fun t => t.halted) = true := by decide
/-- The gate and wait hypotheses, a fetch error, an illegal word, an own error, and a next PC past the end. -/
theorem witness_FirstRaisedErrorIsReported_order :
    pastPc.gated = false ∧ pastPc.waiting = false ∧ (onPc 0xFFF base).fetch Config.hardware = .error .addressOutOfRange ∧
    base.fetch Config.hardware = .ok 0x0000 ∧ decode 0x0000 = .error (.family0 0) ∧
    (onWord 0x00EE base).fetch Config.hardware = .ok 0x00EE ∧ decode 0x00EE = .ok .ret ∧
    effectUnder Config.hardware .ret (onWord 0x00EE base) = .raise .stackUnderflow ∧
    (onWord 0x6042 pastPc).fetch Config.hardware = .ok 0x6042 ∧ decode 0x6042 = .ok (.lbr 0 0x42) ∧
    effectUnder Config.hardware (.lbr 0 0x42) (onWord 0x6042 pastPc) = .done [.v 0 0x42] 0x1000 := by decide
/-- Each own check at the first value that fails it. -/
theorem witness_FirstRaisedErrorIsReported_checks :
    base.sp = 0#5 ∧ ({ base with sp := 16 } : State).sp = 16#5 ∧ 15 < ((base.setV 0 16).getV 0).toNat ∧
    Config.hardware.keyIndex = .fault ∧ Config.hardware.ldsCheck = .fault ∧ 4096 < (withI 0xFFE base).i.toNat + 3 ∧
    4096 < (withI 0xFF1 base).i.toNat + (0xF : RegIdx).toNat + 1 ∧ 0 < (1 : BitVec 4).toNat ∧
    4096 < (withI 0x1000 base).i.toNat + (1 : BitVec 4).toNat ∧
    0xFFFF < (withI 0xFFFF base).i.toNat + ((base.setV 0 1).getV 0).toNat := by decide
theorem witness_EndOfMemoryHalts :
    pastPc.pc.toNat = 0xFFE ∧ answers (.ldk 0) (withKey 1 pastPc) = true ∧ (withKey 1 pastPc).keyDown 1 = true ∧
    pastSkip.pc.toNat = 0xFFC ∧ pastSkip.getV 0 = 0 ∧ pastSkip.getV 0 ≠ 1 ∧ pastSkip.getV 0 = pastSkip.getV 1 ∧
    (pastSkip.setV 0 1).getV 0 ≠ (pastSkip.setV 0 1).getV 1 ∧
    ((withKey 0xF pastSkip).setV 0 0xF).keyDown 0xF = true ∧ pastSkip.keyDown 0xF = false ∧
    ((withKey 0xF pastSkip).setV 0 0xF).getV 0 = 0xF := by decide
theorem witness_ClsTurnsEveryPixelOff :
    (0x0FE0 : Opcode) &&& 0xF0FF#16 = 0x00E0#16 ∧ lastPc.pc.toNat + 2 ≤ 0xFFF ∧ 0xFFF < pastPc.pc.toNat + 2 := by decide

/-- A sprite of one row whose leftmost bit falls on (0, 0), at the last byte of memory. -/
def spriteState : State := withI 0xFFF (withByte 0xFFF 0x80 lastPc)

theorem witness_DrwFlipsCoveredPixels :
    (0xD121 : Opcode) &&& 0xF000#16 = 0xD000#16 ∧ (0 : BitVec 4).toNat = 0 ∧
    spriteState.i.toNat + (1 : BitVec 4).toNat ≤ 4096 ∧ spriteState.pc.toNat + 2 ≤ 0xFFF ∧ 0xFFF < pastPc.pc.toNat + 2 ∧
    4096 < spriteState.i.toNat + (2 : BitVec 4).toNat := by decide
/-- A covered pixel, one that is not, and a covered pixel that is on. -/
theorem witness_DrwFlipsCoveredPixels_pixels :
    spriteCovers spriteState 0 1 1 0 0 ∧ ¬ spriteCovers spriteState 0 1 1 1 0 ∧
    (spriteState.setPixel 0 0 true).pixel 0 0 = true := by
  refine ⟨⟨0, 0, by decide, by decide, by decide, by decide, by decide⟩, ?_, by decide⟩
  rintro ⟨r, c, hr, hc, hb, hx, -⟩
  have hr0 : r = 0 := by simpa using hr
  subst hr0
  have hx' : c = 1 := by
    have : (1 : Fin 64).val = (0 + c) % 64 := hx
    omega
  subst hx'
  exact absurd hb (by decide)
/-- The two rows and columns, and two draws that both complete, the second on the screen of the first. -/
theorem witness_DrawingTwiceRestoresTheScreen :
    spriteState.halted = false ∧ steps (onWord 0xD011 (onPc 0x200 spriteState)) (fun t =>
      !t.halted && t.mem == (onWord 0xD011 (onPc 0x200 spriteState)).mem && t.i == spriteState.i && t.getV 0 == 0 &&
      t.getV 1 == 0 && steps (onWord 0xD011 t) (fun u => !u.halted)) = true ∧
    (∀ px py, base.pixel px py = false) := by
  refine ⟨by decide, by decide, fun px py => ?_⟩
  simp [State.pixel, base, State.reset]

/-! ### Control flow -/

theorem witness_RetResumesAfterTheCall :
    (0x0FEE : Opcode) &&& 0xF0FF#16 = 0x00EE#16 ∧ base.sp = 0#5 ∧
    0 < ({ base.setStack 0 0xFFD with sp := 1 } : State).sp.toNat ∧
    ({ base.setStack 0 0xFFD with sp := 1 } : State).stackAt 0 = some 0xFFD ∧
    ({ base.setStack 15 0xFFE with sp := 16 } : State).stackAt 15 = some 0xFFE ∧
    (0xFFD : Addr).toNat + 2 ≤ 0xFFF ∧ 0xFFF < (0xFFE : Addr).toNat + 2 := by decide
theorem witness_JmpSetsPc : (0x1FFF : Opcode) &&& 0xF000#16 = 0x1000#16 := by decide
theorem witness_CallPushesItsOwnAddress :
    (0x2FFF : Opcode) &&& 0xF000#16 = 0x2000#16 ∧ ({ base with sp := 15 } : State).sp.toNat < 16 ∧
    ({ base with sp := 16 } : State).sp = 16#5 := by decide
theorem witness_CallThenRetReturnsAfterTheCall :
    lastPc.halted = false ∧ ({ lastPc with sp := 15 } : State).sp.toNat < 16 ∧ lastPc.pc.toNat + 2 ≤ 0xFFF ∧
    answers (.call 0x300) { lastPc with sp := 15 } = true ∧
    ({ base.setStack 15 0xFFD with sp := 16 } : State).stackAt 15 = some lastPc.pc := by decide
theorem witness_ByteSkipsCompareVxWithKk :
    (0x3FFF : Opcode) &&& 0xF000#16 = 0x3000#16 ∧ (0x4FFF : Opcode) &&& 0xF000#16 = 0x4000#16 ∧
    lastSkip.getV 0 = 0 ∧ lastSkip.pc.toNat + 4 ≤ 0xFFF ∧ pastSkip.getV 0 = 0 ∧ 0xFFF < pastSkip.pc.toNat + 4 ∧
    lastPc.getV 0 ≠ 1 ∧ lastPc.pc.toNat + 2 ≤ 0xFFF ∧ pastPc.getV 0 ≠ 1 ∧ 0xFFF < pastPc.pc.toNat + 2 ∧
    lastSkip.getV 0 ≠ 1 ∧ pastSkip.getV 0 ≠ 1 ∧ lastPc.getV 0 = 0 ∧ pastPc.getV 0 = 0 := by decide
theorem witness_RegisterSkipsCompareVxWithVy :
    (0x5120 : Opcode) &&& 0xF000#16 = 0x5000#16 ∧ fieldN 0x5120 = 0#4 ∧ (0x912F : Opcode) &&& 0xF000#16 = 0x9000#16 ∧
    fieldN 0x912F ≠ 0#4 ∧ lastSkip.getV 0 = lastSkip.getV 1 ∧ pastSkip.getV 0 = pastSkip.getV 1 ∧
    lastPc.getV 0 = lastPc.getV 1 ∧ pastPc.getV 0 = pastPc.getV 1 ∧
    (lastSkip.setV 0 1).getV 0 ≠ (lastSkip.setV 0 1).getV 1 ∧ (pastSkip.setV 0 1).getV 0 ≠ (pastSkip.setV 0 1).getV 1 ∧
    (lastPc.setV 0 1).getV 0 ≠ (lastPc.setV 0 1).getV 1 ∧ (pastPc.setV 0 1).getV 0 ≠ (pastPc.setV 0 1).getV 1 := by decide
theorem witness_Jpv0AddsV0WithoutWrap :
    (0xBFFF : Opcode) &&& 0xF000#16 = 0xB000#16 ∧ (0xF00 : Addr).toNat + ((base.setV 0 0xFF).getV 0).toNat ≤ 0xFFF ∧
    0xFFF < (0xF01 : Addr).toNat + ((base.setV 0 0xFF).getV 0).toNat := by decide

/-! ### Registers and arithmetic: the encoding clauses; the PC clauses are `witness_next_pc` -/

theorem witness_LoadsWriteTheRegister :
    (0x6FFF : Opcode) &&& 0xF000#16 = 0x6000#16 ∧ (0x8FF0 : Opcode) &&& 0xF00F#16 = 0x8000#16 ∧
    lastPc.pc.toNat + 2 ≤ 0xFFF ∧ 0xFFF < pastPc.pc.toNat + 2 := by decide
theorem witness_AbrAddsModulo256WithoutFlag :
    (0x7FFF : Opcode) &&& 0xF000#16 = 0x7000#16 ∧ lastPc.pc.toNat + 2 ≤ 0xFFF ∧ 0xFFF < pastPc.pc.toNat + 2 := by decide
theorem witness_LogicActsBitByBit :
    (0x8FF1 : Opcode) &&& 0xF00F#16 = 0x8001#16 ∧ (0x8FF2 : Opcode) &&& 0xF00F#16 = 0x8002#16 ∧
    (0x8FF3 : Opcode) &&& 0xF00F#16 = 0x8003#16 ∧ lastPc.pc.toNat + 2 ≤ 0xFFF ∧ 0xFFF < pastPc.pc.toNat + 2 := by decide
theorem witness_AddWritesSumThenCarry :
    (0x8FF4 : Opcode) &&& 0xF00F#16 = 0x8004#16 ∧ lastPc.pc.toNat + 2 ≤ 0xFFF ∧ (14 : RegIdx) ≠ vf ∧
    0xFFF < pastPc.pc.toNat + 2 := by decide
theorem witness_SubWritesDifferenceThenNotBorrow :
    (0x8FF5 : Opcode) &&& 0xF00F#16 = 0x8005#16 ∧ lastPc.pc.toNat + 2 ≤ 0xFFF ∧ (14 : RegIdx) ≠ vf ∧
    0xFFF < pastPc.pc.toNat + 2 := by decide
theorem witness_SubnWritesVyThenNotBorrow :
    (0x8FF7 : Opcode) &&& 0xF00F#16 = 0x8007#16 ∧ lastPc.pc.toNat + 2 ≤ 0xFFF ∧ (14 : RegIdx) ≠ vf ∧
    0xFFF < pastPc.pc.toNat + 2 := by decide
theorem witness_ShiftsWriteTheBitShiftedOut :
    (0x8FF6 : Opcode) &&& 0xF00F#16 = 0x8006#16 ∧ (0x8FFE : Opcode) &&& 0xF00F#16 = 0x800E#16 ∧
    lastPc.pc.toNat + 2 ≤ 0xFFF ∧ (14 : RegIdx) ≠ vf ∧ 0xFFF < pastPc.pc.toNat + 2 := by decide
theorem witness_RndMasksAFreeByte :
    (0xCFFF : Opcode) &&& 0xF000#16 = 0xC000#16 ∧ lastPc.pc.toNat + 2 ≤ 0xFFF ∧ 0xFFF < pastPc.pc.toNat + 2 := by decide

/-! ### Address register and memory -/

theorem witness_LdiLoadsTheAddress :
    (0xAFFF : Opcode) &&& 0xF000#16 = 0xA000#16 ∧ lastPc.pc.toNat + 2 ≤ 0xFFF ∧ 0xFFF < pastPc.pc.toNat + 2 := by decide
theorem witness_AddiFaultsOnlyPast16Bits :
    (0xFF1E : Opcode) &&& 0xF0FF#16 = 0xF01E#16 ∧
    (withI 0xFF00 lastPc).i.toNat + ((lastPc.setV 0 0xFF).getV 0).toNat ≤ 0xFFFF ∧ lastPc.pc.toNat + 2 ≤ 0xFFF ∧
    0xFFFF < (withI 0xFF01 lastPc).i.toNat + ((lastPc.setV 0 0xFF).getV 0).toNat ∧ 0xFFF < pastPc.pc.toNat + 2 := by decide
theorem witness_LdsPointsAtTheGlyph :
    (0xFF29 : Opcode) &&& 0xF0FF#16 = 0xF029#16 ∧ ((lastPc.setV 0 15).getV 0).toNat ≤ 15 ∧
    15 < ((lastPc.setV 0 16).getV 0).toNat ∧ lastPc.pc.toNat + 2 ≤ 0xFFF ∧ 0xFFF < pastPc.pc.toNat + 2 ∧
    ({ Config.hardware with ldsCheck := .unchecked } : Config).ldsCheck = .unchecked ∧
    Config.hardware.ldsCheck = .fault := by decide
theorem witness_BcdStoresDecimalDigits :
    (0xFF33 : Opcode) &&& 0xF0FF#16 = 0xF033#16 ∧ (withI 0xFFD lastPc).i.toNat + 3 ≤ 4096 ∧
    4096 < (withI 0xFFE lastPc).i.toNat + 3 ∧ lastPc.pc.toNat + 2 ≤ 0xFFF ∧ 0xFFF < pastPc.pc.toNat + 2 := by decide
theorem witness_SrStoresRegistersAndAdvancesI :
    (0xFF55 : Opcode) &&& 0xF0FF#16 = 0xF055#16 ∧ (withI 0xFF0 lastPc).i.toNat + (15 : RegIdx).toNat + 1 ≤ 4096 ∧
    4096 < (withI 0xFF1 lastPc).i.toNat + (15 : RegIdx).toNat + 1 ∧ lastPc.pc.toNat + 2 ≤ 0xFFF ∧
    0xFFF < pastPc.pc.toNat + 2 := by decide
theorem witness_LrLoadsRegistersAndAdvancesI :
    (0xFF65 : Opcode) &&& 0xF0FF#16 = 0xF065#16 ∧ (withI 0xFF0 lastPc).i.toNat + (15 : RegIdx).toNat + 1 ≤ 4096 ∧
    4096 < (withI 0xFF1 lastPc).i.toNat + (15 : RegIdx).toNat + 1 ∧ lastPc.pc.toNat + 2 ≤ 0xFFF ∧
    0xFFF < pastPc.pc.toNat + 2 := by decide
theorem witness_FontBytesFollowFontWrite :
    (withI 0xFFD lastPc).i.toNat + 3 ≤ 4096 ∧ (withI 0xFFD lastPc).pc.toNat + 2 ≤ 0xFFF ∧
    (withI 0xFF0 lastPc).i.toNat + (15 : RegIdx).toNat + 1 ≤ 4096 ∧
    runsUnder { Config.hardware with fontWrite := .ignore } 0xFF55 (withI 0x4E base) (fun _ => true) = true ∧
    runsUnder { Config.hardware with fontWrite := .ignore } 0xF033 (onPc 0xFFC (withI 0x4E base)) (fun _ => true) = true ∧
    runsUnder Config.hardware 0xF033 (onPc 0xFFC (withI 0x4E base)) (fun _ => true) = true ∧
    80 ≤ (withI 0x4E lastPc).i.toNat + 2 ∧ 80 ≤ (withI 0x4E lastPc).i.toNat + (2 : RegIdx).toNat := by decide
/-- BCD stores to the word that is fetched next: its digits 1 and 5 are the two bytes of that word (j = 0 and j = 1), and the
last digit, 6, is the high byte of the word two bytes on (j = 2). -/
theorem witness_FetchSeesStoredBytes_bcd :
    (withI 0x202 base).halted = false ∧
    runs 0xF033 ((withI 0x202 base).setV 0 156) (fun t => !t.halted && t.pc.toNat == 0x202 + 0 &&
      t.pc.toNat + 1 == 0x202 + 1 && (onPc 0x204 t).pc.toNat == 0x202 + 2 &&
      decide (t.fetch Config.hardware = .ok 0x0105) && decide ((onPc 0x204 t).fetch Config.hardware = .ok 0x0600)) =
        true := by decide
/-- SR stores to the word that is fetched next. -/
theorem witness_FetchSeesStoredBytes :
    (withI 0x202 base).halted = false ∧
    runs 0xF155 (((withI 0x202 base).setV 0 0x63).setV 1 0x42) (fun t => !t.halted && t.pc.toNat == 0x202 + (0 : RegIdx).toNat &&
      t.pc.toNat + 1 == 0x202 + (1 : RegIdx).toNat && decide (t.fetch Config.hardware = .ok 0x6342)) = true := by decide

/-! ### Keypad, timers, host transactions -/

theorem witness_KeySkipsReadTheSnapshot :
    (0xEF9E : Opcode) &&& 0xF0FF#16 = 0xE09E#16 ∧ (0xEFA1 : Opcode) &&& 0xF0FF#16 = 0xE0A1#16 ∧
    ((base.setV 0 15).getV 0).toNat = (15 : RegIdx).toNat ∧ (withKey 15 base).keyDown 15 = true ∧
    base.keyDown 15 = false ∧ 15 < ((base.setV 0 16).getV 0).toNat ∧ lastSkip.pc.toNat + 4 ≤ 0xFFF ∧
    lastPc.pc.toNat + 2 ≤ 0xFFF ∧ 0xFFF < pastSkip.pc.toNat + 4 ∧ 0xFFF < pastPc.pc.toNat + 2 ∧
    ({ Config.hardware with keyIndex := .mask } : Config).keyIndex = .mask ∧
    ((lastSkip.setV 0 0xFF).getV 0).toNat % 16 = (15 : RegIdx).toNat := by decide
theorem witness_LdkTakesAKeyOrWaits :
    (0xFF0A : Opcode) &&& 0xF0FF#16 = 0xF00A#16 ∧ (∀ k, base.keyDown k = false) ∧ (withKey 0 lastPc).keyDown 0 = true ∧
    (∀ k, (withKey 0 lastPc).keyDown k = true → (0 : RegIdx).toNat ≤ k.toNat) ∧ lastPc.pc.toNat + 2 ≤ 0xFFF ∧
    0xFFF < pastPc.pc.toNat + 2 ∧ (waitingAt 0xFFD).waitX = 3 := by decide
theorem witness_TimerMovesCopyTheByte :
    (0xFF07 : Opcode) &&& 0xF0FF#16 = 0xF007#16 ∧ (0xFF15 : Opcode) &&& 0xF0FF#16 = 0xF015#16 ∧
    (0xFF18 : Opcode) &&& 0xF0FF#16 = 0xF018#16 ∧ lastPc.pc.toNat + 2 ≤ 0xFFF ∧ 0xFFF < pastPc.pc.toNat + 2 := by decide
theorem witness_KeysAndPauseTransactions : (base.raise .decodeFailure).halted = true ∧ base.halted = false := by decide
theorem witness_ResetSetsEveryElement : (base.raise .decodeFailure).resetNow = State.reset := by decide
/-- An image of the greatest length, the empty one, and one a byte too long. -/
theorem witness_LoadCopiesTheImage :
    (List.replicate 3584 (0 : Byte)).length ≤ 3584 ∧ ([] : List Byte).length ≤ 3584 ∧
    3584 < (List.replicate 3585 (0 : Byte)).length := by
  rw [List.length_replicate, List.length_replicate]
  decide
theorem witness_StatusReportsRunState :
    (base.raise .decodeFailure).halted = true ∧ base.halted = false ∧ base.pause.halted = false ∧ base.pause.paused = true ∧
    base.paused = false ∧ (waitingAt 0x200).waiting = true ∧ base.waiting = false ∧ base.err = .none ∧
    (∀ e : Err, (base.raise e).err = e) := by
  refine ⟨by decide, by decide, by decide, by decide, by decide, by decide, by decide, by decide, fun _ => rfl⟩
theorem witness_OnlyResetAndLoadLeaveHalted :
    (base.raise .decodeFailure).halted = true ∧
    applyTransaction (base.raise .decodeFailure) .reset = .next State.reset ∧
    applyTransaction (base.raise .decodeFailure) .pause = .next (base.raise .decodeFailure) := ⟨rfl, rfl, rfl⟩

/-! ### Frames, whole-machine rules, invariants -/

theorem witness_OnlySixInstructionsSetTheFlag :
    setsFlag (.lbr 14 0) = false ∧ ¬ namesDest vf (.lbr 14 0) ∧ answers (.lbr 14 0) base = true ∧
    setsFlag (.add 15 0) = true ∧ base.halted = false ∧ runs 0x8F04 base (fun t => !t.halted) = true := by
  refine ⟨by decide, ?_, by decide, by decide, by decide, by decide⟩
  show ¬ vf = 14
  decide
theorem witness_OnlyFiveInstructionsWriteI :
    (∀ nnn, Instr.cls ≠ .ldi nnn) ∧ (∀ x, Instr.cls ≠ .addi x) ∧ (∀ x, Instr.cls ≠ .lds x) ∧ (∀ x, Instr.cls ≠ .sr x) ∧
    (∀ x, Instr.cls ≠ .lr x) ∧ answers .cls base = true := by
  refine ⟨?_, ?_, ?_, ?_, ?_, by decide⟩ <;> intro <;> nofun
theorem witness_FrameOfRegisterInstructions :
    ([.lbr 1 2, .abr 1 2, .lrr 1 2, .or 1 2, .and 1 2, .xor 1 2, .add 1 2, .sub 1 2, .shr 1, .subn 1 2, .shl 1, .rnd 1 2,
      .lddv 1].all (fun i => answers i base)) = true := by decide
theorem witness_FrameOfControlFlow :
    ([.jmp 0x300, .jpv0 0x300, .seqb 1 2, .sneqb 1 2, .srer 1 2, .sne 1 2, .skp 1, .sknp 1, .call 0x300, .ret].all
      (fun i => answers i { base with sp := 1 })) = true := by decide
theorem witness_FrameOfAddressRegisterInstructions :
    ([.ldi 0x300, .addi 1, .lds 1, .lr 1].all (fun i => answers i base)) = true := by decide
theorem witness_FrameOfStores : ([.bcd 1, .sr 1].all (fun i => answers i (withI 0xFFD base))) = true := by decide
theorem witness_FrameOfDisplayKeypadAndTimers :
    ([.cls, .drw 1 2 3, .ldk 1, .ldvd 1, .ldst 1].all (fun i => answers i base)) = true := by decide

/-- A running state and a waiting one that meet the invariant, each with a step that answers a next state. -/
theorem witness_StepKeepsInvariant :
    (onWord 0x2300 { base with sp := 15 }).Inv ∧ steps (onWord 0x2300 { base with sp := 15 }) (fun t => t.sp == 16) = true ∧
    (waitingAt 0xFFE).Inv ∧ steps (waitingAt 0xFFE) (fun t => t == waitingAt 0xFFE) = true := by
  refine ⟨⟨by decide, ?_, ?_, fun h => ?_⟩, by decide, ⟨by decide, ?_, ?_, fun _ => ⟨by decide, 0xF30A, by decide, by decide⟩⟩,
    by decide⟩
  · show (15 : BitVec 5).toNat ≤ 16; decide
  · show Err.none = Err.none ↔ false = false; decide
  · exact absurd (show false = true from h) (by decide)
  · show (0 : BitVec 5).toNat ≤ 16; decide
  · show Err.none = Err.none ↔ false = false; decide
theorem witness_InvariantStatesNeverStop : (waitingAt 0xFFE).Inv := witness_StepKeepsInvariant.2.2.1
theorem witness_EveryTransactionRunKeepsInvariant : (onWord 0x2300 { base with sp := 15 }).Inv := witness_StepKeepsInvariant.1
/-- Two states that differ in every hidden part: ST, BEEP, a popped entry, and WAIT_X outside a wait. -/
theorem witness_HiddenStateHasNoInfluence :
    agreeButHidden { base with sp := 1 } { base.setStack 1 0x300 with sp := 1, st := 1, beep := true, waitX := 3 } := by
  refine ⟨rfl, fun j hj => ?_, fun h => absurd (show false = true from h) (by decide)⟩
  have hj0 : j = 0 := by
    have : j < 1 := hj
    omega
  subst hj0
  rfl

end Sys2Proof.Tests
end

/-! The statements of 10_state.md: the frames of the instructions, the flag and I, HALTED, the invariant, and the hidden state. -/

namespace Sys2Proof.Machine

/-! ## The rules that branch: what they stage where they complete -/

section
variable {c : Config} {s : State} {x y : RegIdx} {n : BitVec 4} {nnn : Addr} {ws : List Write} {npc : Nat}

/-- There is no stack entry exactly from 16 on (R28). -/
theorem stackAt_eq_none {j : Nat} : s.stackAt j = none ↔ 16 ≤ j := by
  rw [← Option.not_isSome_iff_eq_none, State.stackAt_isSome, decide_eq_true_eq, Nat.not_lt]

/-- RET completes above SP = 0 only, and pops (R171). -/
theorem retEffect_done (h : retEffect s = .done ws npc) : s.sp ≠ 0#5 ∧ ws = [.sp (s.sp - 1#5)] := by
  unfold retEffect at h
  split at h
  · cases h
  · split at h <;> cases h
    exact ⟨‹_›, rfl⟩

/-- CALL completes below SP = 16 only, and pushes its own address (R173). -/
theorem callEffect_done (h : callEffect nnn s = .done ws npc) :
    s.sp.toNat < 16 ∧ ws = [.stack s.sp.toNat s.pc, .sp (s.sp + 1#5)] := by
  unfold callEffect at h
  split at h
  · cases h
  · split at h <;> cases h
    refine ⟨Nat.lt_of_not_le fun hle => ?_, rfl⟩
    simp_all [stackAt_eq_none.mpr hle]

/-- DRW flips the sprite's pixels, then writes the flag (R151). -/
theorem drwEffect_done (h : drwEffect c x y n s = .done ws npc) :
    ∃ ps, ps = spritePixels (s.getV x) (s.getV y) 0 (s.bytesAt c s.i.toNat n.toNat) ∧
      ws = s.xorWrites ps ++ [.v vf (s.collisionFlag ps)] := by
  rw [drwEffect, loadBytes_eq] at h
  split at h
  · cases h
  · rename_i rows hrows
    split at hrows <;> cases hrows
    cases h
    exact ⟨_, rfl, rfl⟩

/-- LDK takes the lowest pressed key, or starts the wait with PC unmoved (R272). -/
theorem ldkEffect_done (h : ldkEffect x s = .done ws npc) :
    (∃ b, ws = [.v x b]) ∨
    (s.lowestKey = none ∧ ws = [.waiting true, .waitX x] ∧ npc = s.pc.toNat) := by
  unfold ldkEffect at h
  split at h <;> cases h
  · exact .inl ⟨_, rfl⟩
  · exact .inr ⟨‹_›, rfl, rfl⟩

/-- BCD stores three digits from MEM[I] on (R243). -/
theorem bcdEffect_done (h : bcdEffect x s = .done ws npc) : ws = stores s.i.toNat (decimalDigits (s.getV x)) := by
  rw [bcdEffect, storeBytes_eq] at h
  split at h
  · cases h
  · rename_i hws
    split at hws <;> cases hws
    cases h
    rfl

/-- SR stores V0 to Vx from MEM[I] on, then writes I (R244). -/
theorem srEffect_done (h : srEffect x s = .done ws npc) :
    ∃ a, ws = stores s.i.toNat ((regsUpTo x).map s.getV) ++ [.i a] := by
  rw [srEffect, storeBytes_eq] at h
  split at h
  · cases h
  · rename_i hws
    split at hws <;> cases hws
    cases h
    exact ⟨_, rfl⟩

/-- LR writes V0 to Vx, then I (R245). -/
theorem lrEffect_done (h : lrEffect c x s = .done ws npc) :
    ∃ us a, ws = regWrites (regsUpTo x) us ++ [.i a] := by
  unfold lrEffect at h
  split at h <;> cases h
  exact ⟨_, _, rfl⟩

end

/-- The model's one fault needs an SP that R29 says does not occur (log entry 6). -/
theorem sp_of_stuck {c : Config} {i : Instr} {s : State} {f : Fault} (h : effectUnder c i s = .stuck f) :
    16 < s.sp.toNat := by
  cases i with
  | ret =>
    simp only [effectUnder, retEffect] at h
    split at h
    · cases h
    · split at h <;> cases h
      have := stackAt_eq_none.mp ‹s.stackAt (s.sp.toNat - 1) = none›
      omega
  | call nnn =>
    simp only [effectUnder, callEffect] at h
    split at h
    · cases h
    · rename_i hsp
      split at h <;> cases h
      have := stackAt_eq_none.mp ‹s.stackAt s.sp.toNat = none›
      have : s.sp.toNat ≠ 16 := fun e => hsp (BitVec.eq_of_toNat_eq e)
      omega
  | ldk x | addi x | drw x y n | lr x | bcd x | sr x | lds x | skp x | sknp x =>
    simp only [effectUnder, ldkEffect, addiEffect, drwEffect, lrEffect, bcdEffect, srEffect, ldsEffect, skpEffect,
      sknpEffect] at h
    split at h <;> cases h
  | _ => cases h

/-! ## Staged writes and the parts of the state -/

/-- The staged write goes to the part. -/
def Write.touches (w : Write) : Part → Prop
  | .reg z => ∃ b, w = .v z b
  | .addressReg => w.target = .i
  | .byte a => ∃ u, w = .mem a u
  | .pixel x y => w = .clear ∨ ∃ on, w = .pixel x y on
  | .stackPointer => w.target = .sp
  | .stackEntry j => ∃ a, w = .stack j a
  | .delayTimer => w.target = .dt
  | .soundTimer => w.target = .st
  | .waiting => w.target = .waiting
  | .waitX => w.target = .waitX
  | .draws => w.target = .draws
  | .key _ | .paused | .loaded | .beep => False

/-- A byte that no staged store names is as before. -/
theorem commit_readByte {c : Config} {s : State} {ws : List Write} {a : Nat} (h : ∀ u, Write.mem a u ∉ ws) :
    (commit c s ws).readByte c a = s.readByte c a :=
  commit_keeps (fun s => s.readByte c a) c ws (fun w hw s => by
    cases w with
    | mem b u =>
      have : a ≠ b := fun e => h u (e ▸ hw)
      simp [applyWrite, readByte_writeByte, this]
    | _ => exact State.readByte_of_mem_eq (by simp [applyWrite]) c a) s

/-- A stack entry that no staged write names is as before. -/
theorem commit_stackAt {c : Config} {s : State} {ws : List Write} {j : Nat} (h : ∀ a, Write.stack j a ∉ ws) :
    (commit c s ws).stackAt j = s.stackAt j :=
  commit_keeps (fun s => s.stackAt j) c ws (fun w hw s => by
    cases w with
    | stack k a =>
      have : j ≠ k := fun e => h a (e ▸ hw)
      simp [applyWrite, State.stackAt_setStack, this]
    | _ => exact State.stackAt_of_stack_eq (by simp [applyWrite]) j) s

/-- A part that no staged write goes to is as before. -/
theorem keeps_commit {s : State} {ws : List Write} {p : Part} (h : ∀ w ∈ ws, ¬ w.touches p) :
    keeps s (commit Config.hardware s ws) p := by
  cases p with
  | reg z => exact commit_getV fun b hb => h _ hb ⟨b, rfl⟩
  | addressReg => exact commit_i h
  | byte a => exact commit_readByte fun u hu => h _ hu ⟨u, rfl⟩
  | pixel x y => exact commit_pixel (fun on hw => h _ hw (.inr ⟨on, rfl⟩)) (fun hw => h _ hw (.inl rfl))
  | stackPointer => exact commit_sp h
  | stackEntry j => exact commit_stackAt fun a ha => h _ ha ⟨a, rfl⟩
  | delayTimer => exact commit_dt h
  | soundTimer => exact commit_st h
  | waiting => exact commit_waiting h
  | waitX => exact commit_waitX h
  | draws => exact commit_draws h
  | key k => simp [keeps, State.keyDown]
  | paused => exact commit_paused ..
  | loaded => exact commit_loaded ..
  | beep => exact commit_beep ..

/-- PC is none of the parts. -/
theorem keeps_pc {s t : State} {p : Part} (h : keeps s t p) (a : Addr) : keeps s { t with pc := a } p := by
  cases p <;> exact h

/-- An error changes none of the parts (R302). -/
theorem keeps_raise (s : State) (e : Err) (p : Part) : keeps s (s.raise e) p := by
  cases p <;> rfl

/-! ## Each instruction stages only what it may change (R23) -/

/-- Only BCD and SR store bytes (R64). -/
theorem mem_mem_targetsOf {i : Instr} (h : Target.mem ∈ targetsOf i) : (∃ x, i = .bcd x) ∨ ∃ x, i = .sr x := by
  cases i <;> simp [targetsOf] at h ⊢

/-- Only CLS and DRW write pixels (R150, R151). -/
theorem fb_mem_targetsOf {i : Instr} (h : Target.fb ∈ targetsOf i) : i = .cls ∨ ∃ x y n, i = .drw x y n := by
  cases i <;> simp [targetsOf] at h ⊢

/-- Only RET and CALL write SP (R171, R173). -/
theorem sp_mem_targetsOf {i : Instr} (h : Target.sp ∈ targetsOf i) : i = .ret ∨ ∃ nnn, i = .call nnn := by
  cases i <;> simp [targetsOf] at h ⊢

/-- Only CALL writes a stack entry (R173). -/
theorem stack_mem_targetsOf {i : Instr} (h : Target.stack ∈ targetsOf i) : ∃ nnn, i = .call nnn := by
  cases i <;> simp [targetsOf] at h ⊢

/-- Only LDK writes WAITING and WAIT_X (R272). -/
theorem wait_mem_targetsOf {i : Instr} (h : Target.waiting ∈ targetsOf i ∨ Target.waitX ∈ targetsOf i) :
    ∃ x, i = .ldk x := by
  cases i <;> simp [targetsOf] at h ⊢

section
variable {c : Config} {i : Instr} {s : State} {ws : List Write} {npc : Nat}

/-- A register write goes to the named destination, or it is a flag setter's flag (R22, R23). -/
theorem dest_of_staged_v (h : effectUnder c i s = .done ws npc) {z : RegIdx} {b : Byte} (hw : Write.v z b ∈ ws) :
    namesDest z i ∨ (setsFlag i = true ∧ z = vf) := by
  have ht : Target.v ∈ targetsOf i := target_mem_targetsOf h hw
  cases i with
  | drw x y n =>
    obtain ⟨ps, -, rfl⟩ := drwEffect_done h
    rcases List.mem_append.mp hw with hw | hw
    · cases target_of_mem_xorWrites hw
    · simp_all [setsFlag]
  | ldk x =>
    rcases ldkEffect_done h with ⟨k, rfl⟩ | ⟨-, rfl, -⟩ <;> simp_all [namesDest]
  | lr x =>
    obtain ⟨us, a, rfl⟩ := lrEffect_done h
    rcases List.mem_append.mp hw with hw | hw
    · exact .inl ((mem_regsUpTo x z).mp (index_of_mem_regWrites hw))
    · simp at hw
  | lbr x kk | abr x kk | lrr x y | or x y | and x y | xor x y | rnd x kk | lddv x =>
    cases h
    left
    simp_all [namesDest]
  | add x y | sub x y | shr x | subn x y | shl x =>
    cases h
    simp only [List.mem_cons, List.not_mem_nil, or_false, Write.v.injEq] at hw
    exact hw.imp And.left fun hz => ⟨rfl, hz.1⟩
  | _ => simp [targetsOf] at ht

/-- A run of stores names addresses of the run only. -/
theorem addr_of_mem_stores {a b : Nat} {u : Byte} {us : List Byte} (h : Write.mem b u ∈ stores a us) :
    a ≤ b ∧ b < a + us.length := by
  induction us generalizing a with
  | nil => cases h
  | cons u' us ih =>
    rcases List.mem_cons.mp h with h | h
    · cases h; simp
    · have := ih h
      simp only [List.length_cons]
      omega

/-- A store goes to the bytes from MEM[I] on (R64). -/
theorem addr_of_staged_mem (h : effectUnder c i s = .done ws npc) {a : Nat} {u : Byte} (hw : Write.mem a u ∈ ws) :
    s.i.toNat ≤ a ∧ a < s.i.toNat + storedLength i := by
  rcases mem_mem_targetsOf (target_mem_targetsOf h hw) with ⟨x, rfl⟩ | ⟨x, rfl⟩
  · cases bcdEffect_done h
    exact addr_of_mem_stores hw
  · obtain ⟨b, rfl⟩ := srEffect_done h
    rcases List.mem_append.mp hw with hw | hw
    · simpa [storedLength] using addr_of_mem_stores hw
    · simp at hw

/-- A pixel write is CLS's, or DRW's to a pixel the sprite covers (R150, R151). -/
theorem cover_of_staged_pixel (h : effectUnder Config.hardware i s = .done ws npc) {w : Write} (hw : w ∈ ws) {px : Fin 64}
    {py : Fin 32} (hp : w.touches (.pixel px py)) : mayChange i s (.pixel px py) := by
  have ht : w.target = .fb := by rcases hp with rfl | ⟨on, rfl⟩ <;> rfl
  rcases fb_mem_targetsOf (ht ▸ target_mem_targetsOf h hw) with rfl | ⟨x, y, n, rfl⟩
  · exact .inl rfl
  · obtain ⟨ps, rfl, rfl⟩ := drwEffect_done h
    refine .inr ⟨x, y, n, rfl, (spriteCovers_iff s x y n px py).mpr ?_⟩
    rcases List.mem_append.mp hw with hw | hw
    · obtain ⟨p, hps, rfl⟩ := List.mem_map.mp hw
      rcases hp with hp | ⟨on, hp⟩ <;> cases hp
      exact hps
    · cases List.mem_singleton.mp hw
      cases ht

/-- CALL's stack write goes to the entry at SP (R173). -/
theorem entry_of_staged_stack (h : effectUnder c i s = .done ws npc) {j : Nat} {a : Addr} (hw : Write.stack j a ∈ ws) :
    (∃ nnn, i = .call nnn) ∧ j = s.sp.toNat := by
  obtain ⟨nnn, rfl⟩ := stack_mem_targetsOf (target_mem_targetsOf h hw)
  obtain ⟨-, rfl⟩ := callEffect_done h
  exact ⟨⟨nnn, rfl⟩, by simp_all⟩

/-- LDK writes WAITING and WAIT_X only with no key pressed (R272). -/
theorem noKey_of_staged_wait (h : effectUnder c i s = .done ws npc) {w : Write} (hw : w ∈ ws)
    (ht : w.target = .waiting ∨ w.target = .waitX) : (∃ x, i = .ldk x) ∧ ∀ k, s.keyDown k = false := by
  obtain ⟨x, rfl⟩ := wait_mem_targetsOf (ht.imp (· ▸ target_mem_targetsOf h hw) (· ▸ target_mem_targetsOf h hw))
  refine ⟨⟨x, rfl⟩, ?_⟩
  rcases ldkEffect_done h with ⟨k, rfl⟩ | ⟨hkey, -, -⟩
  · cases List.mem_singleton.mp hw
    simp [Write.target] at ht
  · exact (lowestKey_eq_none s).mp hkey

/-- What an instruction stages a write to it may change. -/
theorem mayChange_of_touches (h : effectUnder Config.hardware i s = .done ws npc) {w : Write} (hw : w ∈ ws) {p : Part}
    (hp : w.touches p) : mayChange i s p := by
  have ht := target_mem_targetsOf h hw
  cases p with
  | reg z => obtain ⟨b, rfl⟩ := hp; exact dest_of_staged_v h hw
  | byte a => obtain ⟨u, rfl⟩ := hp; exact addr_of_staged_mem h hw
  | pixel x y => exact cover_of_staged_pixel h hw hp
  | stackEntry j => obtain ⟨a, rfl⟩ := hp; exact entry_of_staged_stack h hw
  | waiting => exact noKey_of_staged_wait h hw (.inl hp)
  | waitX => exact noKey_of_staged_wait h hw (.inr hp)
  | stackPointer => exact sp_mem_targetsOf (hp ▸ ht)
  | addressReg | delayTimer | soundTimer | draws =>
    rw [show w.target = _ from hp] at ht
    cases i <;> simp_all [targetsOf, mayChange, writesI]
  | key k | paused | loaded | beep => exact hp

end

/-- Every instruction keeps its frame (R23, R126, R302). -/
theorem frameHolds_all (i : Instr) : frameHolds i := by
  intro s t h
  rcases exec_next h with ⟨e, -, rfl⟩ | ⟨ws, npc, he, -, rfl⟩
  · exact ⟨fun p _ => keeps_raise s e p, .inr ⟨e, rfl⟩⟩
  · refine ⟨fun p hp => keeps_pc (keeps_commit fun w hw hwp => hp (mayChange_of_touches he hw hwp)) _, .inl ⟨?_, ?_⟩⟩
    · exact commit_halted ..
    · exact commit_err ..

/-! ## The frames of 10_state.md -/

/-- Settles O50: the frame of every instruction, at the register instructions. -/
theorem frameOfRegisterInstructions : Obligations.FrameOfRegisterInstructions := fun _ _ _ => by
  simp only [frameHolds_all, and_self]

/-- Settles O51: the frame of every instruction, at the jumps, the skips, CALL and RET. -/
theorem frameOfControlFlow : Obligations.FrameOfControlFlow := fun _ _ _ _ => by
  simp only [frameHolds_all, and_self]

/-- Settles O52: the frame of every instruction, at LDI, ADDI, LDS and LR. -/
theorem frameOfAddressRegisterInstructions : Obligations.FrameOfAddressRegisterInstructions := fun _ _ => by
  simp only [frameHolds_all, and_self]

/-- Settles O53: the frame of every instruction, at BCD and SR. -/
theorem frameOfStores : Obligations.FrameOfStores := fun _ => ⟨frameHolds_all _, frameHolds_all _⟩

/-- Settles O54: the frame of every instruction, at CLS, DRW, LDK, LDVD and LDST. -/
theorem frameOfDisplayKeypadAndTimers : Obligations.FrameOfDisplayKeypadAndTimers := fun _ _ _ => by
  simp only [frameHolds_all, and_self]

/-! ## The flag and I -/

/-- Settles O49: an instruction that is none of the five may not change I. -/
theorem onlyFiveInstructionsWriteI : Obligations.OnlyFiveInstructionsWriteI := by
  intro i s t hldi haddi hlds hsr hlr h
  refine (frameHolds_all i s t h).1 .addressReg fun hi => ?_
  cases i <;> simp_all [mayChange, writesI]

/-- A flag setter stages its flag last (R22, R127). -/
theorem flag_staged_last {c : Config} {i : Instr} {s : State} {ws : List Write} {npc : Nat} (hf : setsFlag i = true)
    (h : effectUnder c i s = .done ws npc) : ∃ ws' on, ws = ws' ++ [.v vf (flagByte on)] := by
  cases i with
  | add x y | sub x y | shr x | subn x y | shl x => cases h; exact ⟨[_], _, rfl⟩
  | drw x y n =>
    obtain ⟨ps, -, rfl⟩ := drwEffect_done h
    exact ⟨_, _, rfl⟩
  | _ => cases hf

/-- A register written last holds what was written. -/
theorem getV_commit_append_v (c : Config) (s : State) (ws : List Write) (x : RegIdx) (b : Byte) :
    (commit c s (ws ++ [.v x b])).getV x = b := by
  simp [commit_append, applyWrite]

/-- Settles O48: the other instructions by the frame, the six by the flag they stage last. -/
theorem onlySixInstructionsSetTheFlag : Obligations.OnlySixInstructionsSetTheFlag := by
  refine ⟨fun i s t hf hd h => (frameHolds_all i s t h).1 (.reg vf) ?_, fun i s t hf _ h ht => ?_⟩
  · rintro (hdest | ⟨hflag, -⟩)
    · exact hd hdest
    · simp [hf] at hflag
  · rcases exec_next h with ⟨e, -, rfl⟩ | ⟨ws, npc, he, -, rfl⟩
    · cases ht
    · obtain ⟨ws', on, rfl⟩ := flag_staged_last hf he
      rw [State.getV_pc, getV_commit_append_v]
      cases on
      · exact .inl rfl
      · exact .inr rfl

/-! ## Status, HALTED, and the reset state -/

/-- Settles O46: the run state by the control bits, the ERR code by its name (R40, R301). -/
theorem statusReportsRunState : Obligations.StatusReportsRunState := by
  intro s
  refine ⟨?_, ?_, ?_, ?_, ?_, ?_, ?_, ?_, ?_, ?_, ?_, ?_, ?_⟩
  · intro hh; simp [State.status, State.runState, RunState.code, hh]
  · intro hh hp; simp [State.status, State.runState, RunState.code, hh, hp]
  · intro hh hp hw; simp [State.status, State.runState, RunState.code, hh, hp, hw]
  · intro hh hp hw; simp [State.status, State.runState, RunState.code, hh, hp, hw]
  · intro hh hw; simp [State.pause, State.resume, State.runState, hh, hw]
  all_goals intro he; simp [State.status, Err.code, he]

/-- A gated step changes nothing (R120). -/
theorem step_of_gated {s : State} (h : s.gated = true) : step s = .next s := by simp [step, stepWith, h]

/-- A halted machine is gated (R120). -/
theorem gated_of_halted {s : State} (h : s.halted = true) : s.gated = true := by simp [State.gated, h]

/-- While HALTED, a transaction other than reset and load keeps HALTED and ERR; step changes nothing at all (R38, R316). -/
theorem halted_keeps_err {s t : State} {tr : Transaction} (hh : s.halted = true) (h : applyTransaction s tr = .next t)
    (hreset : tr ≠ .reset) (hload : ∀ image, tr ≠ .load image) :
    t.halted = true ∧ t.err = s.err ∧ (tr = .step → t = s) := by
  cases tr with
  | reset => exact absurd rfl hreset
  | load image => exact absurd rfl (hload image)
  | step =>
    rw [applyTransaction, step_of_gated (gated_of_halted hh)] at h
    cases h
    exact ⟨hh, rfl, fun _ => rfl⟩
  | advanceTimers | setKeys snapshot | framebuffer | soundActive | status =>
    cases h
    exact ⟨hh, rfl, nofun⟩
  | pause =>
    cases h
    simp [State.pause, hh]
  | resume =>
    cases h
    simp [State.resume, hh]

/-- Settles O47: reset and the two outcomes of load by R350 and R352, every other transaction keeps HALTED and ERR. -/
theorem onlyResetAndLoadLeaveHalted : Obligations.OnlyResetAndLoadLeaveHalted := by
  intro s t tr hh h
  cases tr with
  | reset =>
    cases h
    exact ⟨fun _ => .inl rfl, nofun, nofun⟩
  | load image =>
    cases h
    by_cases hlen : image.length ≤ 3584
    · rw [load_success _ _ hlen]
      exact ⟨fun _ => .inr ⟨image, rfl, hlen⟩, nofun, nofun⟩
    · have hlen := Nat.lt_of_not_le hlen
      rw [load_tooLarge _ _ hlen]
      exact ⟨nofun, fun _ => .inr ⟨rfl, image, rfl, hlen⟩, nofun⟩
  | _ =>
    obtain ⟨hhalt, herr, hstep⟩ := halted_keeps_err hh h (by simp) (by simp)
    exact ⟨fun hrun => by simp [hhalt] at hrun, fun _ => .inl herr, hstep⟩

/-- Settles O55: each clause by the reset values (R46). -/
theorem resetSatisfiesInvariant : Obligations.ResetSatisfiesInvariant :=
  ⟨Memory.wf_nil _, Nat.zero_le 16, by simp [State.errMatchesHalted, State.reset], nofun⟩

/-! ## The invariant -/

section
variable {c : Config} {i : Instr} {s : State} {ws : List Write} {npc : Nat}

/-- An instruction's commit keeps SP in [0, 16]: CALL completes below 16 only, RET above 0 only (R29, R171, R173). -/
theorem spLegal_commit (hs : s.spLegal) (h : effectUnder c i s = .done ws npc) : (commit c s ws).spLegal := by
  unfold State.spLegal at *
  by_cases hsp : Target.sp ∈ targetsOf i
  · rcases sp_mem_targetsOf hsp with rfl | ⟨nnn, rfl⟩
    · obtain ⟨hne, rfl⟩ := retEffect_done h
      simp only [commit_cons, commit_nil, applyWrite]
      bv_omega
    · obtain ⟨hlt, rfl⟩ := callEffect_done h
      simp only [commit_cons, commit_nil, applyWrite]
      bv_omega
  · rwa [commit_sp fun w hw e => hsp (e ▸ target_mem_targetsOf h hw)]

/-- An instruction's commit starts a wait only at the LDK it is: WAIT_X latches its register and PC stays there (R41, R272). -/
theorem waitsAtLdk_commit {op : Opcode} (hl : s.loaded = true) (hw : s.waiting = false)
    (hf : s.fetch Config.hardware = .ok op) (hd : decode op = .ok i) (h : effectUnder c i s = .done ws npc) :
    State.waitsAtLdk { commit c s ws with pc := BitVec.ofNat 12 npc } := by
  by_cases hi : ∃ x, i = .ldk x
  · obtain ⟨x, rfl⟩ := hi
    rcases ldkEffect_done h with ⟨b, rfl⟩ | ⟨-, rfl, rfl⟩
    · intro hwait
      simp [applyWrite, hw] at hwait
    · intro _
      refine ⟨hl, op, ?_, hd⟩
      have hpc : BitVec.ofNat 12 s.pc.toNat = s.pc := by simp
      rw [hpc, ← hf]
      rfl
  · intro hwait
    have hkeep : (commit c s ws).waiting = s.waiting :=
      commit_waiting fun w hw e => hi (wait_mem_targetsOf (.inl (e ▸ target_mem_targetsOf h hw)))
    simp [hkeep, hw] at hwait

end

/-- ERR and HALTED are none of the parts a commit reaches. -/
theorem errMatchesHalted_commit {c : Config} {s : State} {ws : List Write} (h : s.errMatchesHalted) :
    (commit c s ws).errMatchesHalted := by
  simpa [State.errMatchesHalted] using h

/-- An instruction fetched at PC keeps the invariant. -/
theorem inv_exec {s t : State} {op : Opcode} {i : Instr} (hs : s.Inv) (hl : s.loaded = true) (hw : s.waiting = false)
    (hf : s.fetch Config.hardware = .ok op) (hd : decode op = .ok i) (h : exec i s = .next t) : t.Inv := by
  rcases exec_next h with ⟨e, he, rfl⟩ | ⟨ws, npc, he, -, rfl⟩
  · exact inv_raise hs he
  · obtain ⟨hmem, hsp, herr, -⟩ := hs
    exact ⟨commit_wf hmem, spLegal_commit hsp he, errMatchesHalted_commit herr, waitsAtLdk_commit hl hw hf hd he⟩

/-- The key re-check keeps the invariant: with no key pressed nothing changes, else the wait ends (R122). -/
theorem inv_keyRecheck {s t : State} (hs : s.Inv) (h : complete Config.hardware s (keyRecheckEffect s) = .next t) : t.Inv := by
  unfold keyRecheckEffect at h
  cases hk : s.lowestKey with
  | none =>
    rw [hk, complete_done (by omega)] at h
    cases h
    simpa using hs
  | some k =>
    rw [hk] at h
    rcases complete_next h with ⟨e, rfl, he | ⟨rfl, -⟩⟩ | ⟨ws, npc, he, -, rfl⟩
    · cases he
    · exact inv_raise hs nofun
    · cases he
      obtain ⟨hmem, hsp, herr, -⟩ := hs
      exact ⟨hmem, hsp, herr, nofun⟩

/-- Settles O56: each of the things a step can be keeps the invariant. -/
theorem stepKeepsInvariant : Obligations.StepKeepsInvariant := by
  intro s t hs h
  rcases step_cases s with ⟨-, he⟩ | ⟨-, -, he⟩ | ⟨hg, hw, ⟨e, hf, he⟩ | ⟨op, r, -, -, he⟩ | ⟨op, i, hf, hd, he⟩⟩ <;>
    rw [he] at h
  · cases h; exact hs
  · exact inv_keyRecheck hs h
  · cases h; exact inv_raise hs (by simp [fetch_error hf])
  · cases h; exact inv_raise hs nofun
  · exact inv_exec hs ((gated_eq_false s).mp hg).2.2 hw hf hd h

/-- An effect that is not stuck completes in a next state. -/
theorem complete_isNext (c : Config) (s : State) {e : Effect} (h : ∀ f, e ≠ .stuck f) : ∃ t, complete c s e = .next t := by
  cases e with
  | done ws npc =>
    by_cases hn : npc ≤ 0xFFF
    · exact ⟨_, complete_done hn⟩
    · exact ⟨_, complete_pastEnd (Nat.lt_of_not_le hn)⟩
  | raise e => exact ⟨_, rfl⟩
  | stuck f => exact absurd rfl (h f)

/-- Settles O57: a step stops only where CALL or RET finds no stack entry, which needs an SP above 16. -/
theorem invariantStatesNeverStop : Obligations.InvariantStatesNeverStop := by
  rintro s ⟨-, hsp, -, -⟩
  rcases step_cases s with ⟨-, he⟩ | ⟨-, -, he⟩ | ⟨-, -, ⟨e, -, he⟩ | ⟨op, r, -, -, he⟩ | ⟨op, i, -, -, he⟩⟩ <;> rw [he]
  · exact ⟨_, rfl⟩
  · refine complete_isNext _ _ fun f hf => ?_
    unfold keyRecheckEffect at hf
    split at hf <;> cases hf
  · exact ⟨_, rfl⟩
  · exact ⟨_, rfl⟩
  · rw [exec_eq_complete]
    exact complete_isNext _ _ fun f hf => absurd hsp (Nat.not_le.mpr (sp_of_stuck hf))

/-! ## Hidden state (R45) -/

section
variable {c : Config} {s t : State}

/-- A run of bytes depends on the memory alone. -/
theorem bytesAt_of_mem_eq (h : t.mem = s.mem) (a len : Nat) : t.bytesAt c a len = s.bytesAt c a len := by
  induction len generalizing a with
  | zero => rfl
  | succ len ih => rw [State.bytesAt, State.bytesAt, ih, State.readByte_of_mem_eq h]

/-- A MemRead depends on the memory alone. -/
theorem loadBytes_of_mem_eq (h : t.mem = s.mem) (a len : Nat) : t.loadBytes c a len = s.loadBytes c a len := by
  rw [State.loadBytes, State.loadBytes, bytesAt_of_mem_eq h]

/-- No rule reads hidden state (R45). -/
theorem effectUnder_of_agree (h : agreeButHidden s t) (i : Instr) : effectUnder c i t = effectUnder c i s := by
  obtain ⟨ht, hstack, -⟩ := h
  cases i with
  | ret =>
    by_cases hsp : s.sp = 0#5
    · simp only [effectUnder, retEffect]
      rw [ht]
      simp [hsp]
    · have : t.stackAt (s.sp.toNat - 1) = s.stackAt (s.sp.toNat - 1) := hstack _ (by bv_omega)
      simp only [effectUnder, retEffect]
      rw [show t.sp = s.sp by rw [ht], this]
  | call nnn =>
    have hsp : t.sp = s.sp := by rw [ht]
    have hpc : t.pc = s.pc := by rw [ht]
    simp only [effectUnder, callEffect]
    rw [hsp, hpc]
    cases hs : s.stackAt s.sp.toNat with
    | none => rw [stackAt_eq_none.mpr (stackAt_eq_none.mp hs)]
    | some a =>
      cases ht' : t.stackAt s.sp.toNat with
      | none => simp [stackAt_eq_none.mpr (stackAt_eq_none.mp ht')] at hs
      | some b => rfl
  | drw x y n =>
    have hload := loadBytes_of_mem_eq (c := c) (show t.mem = s.mem by rw [ht]) s.i.toNat n.toNat
    simp only [effectUnder, drwEffect]
    rw [show t.i = s.i by rw [ht], hload, ht]
    rfl
  | lr x =>
    have hload := loadBytes_of_mem_eq (c := c) (show t.mem = s.mem by rw [ht]) s.i.toNat (x.toNat + 1)
    simp only [effectUnder, lrEffect]
    rw [show t.i = s.i by rw [ht], hload, ht]
    rfl
  | _ => rw [ht]; rfl

/-- The states differ at most in the four elements that hold hidden state: ST, BEEP, STACK and WAIT_X. -/
def visibleAgrees (s t : State) : Prop := t = { s with st := t.st, beep := t.beep, stack := t.stack, waitX := t.waitX }

/-- One write keeps the visible elements in agreement. -/
theorem visibleAgrees_applyWrite (h : visibleAgrees s t) (w : Write) :
    visibleAgrees (applyWrite c s w) (applyWrite c t w) := by
  unfold visibleAgrees at *
  cases w with
  | mem a u =>
    simp only [applyWrite, State.writeByte]
    split <;> rw [h]
  | _ => rw [h]; rfl

/-- Every commit keeps the visible elements in agreement. -/
theorem visibleAgrees_commit (h : visibleAgrees s t) (ws : List Write) : visibleAgrees (commit c s ws) (commit c t ws) := by
  induction ws generalizing s t with
  | nil => exact h
  | cons w ws ih => exact ih (visibleAgrees_applyWrite h w)

/-- The entries below SP agree after an instruction's commit: CALL pushes the same entry on both sides, RET only pops (R29). -/
theorem entriesAgree_commit (h : agreeButHidden s t) {i : Instr} {ws : List Write} {npc : Nat}
    (he : effectUnder c i s = .done ws npc) :
    ∀ j, j < (commit c s ws).sp.toNat → (commit c t ws).stackAt j = (commit c s ws).stackAt j := by
  obtain ⟨-, hstack, -⟩ := h
  by_cases hsp : Target.sp ∈ targetsOf i
  · rcases sp_mem_targetsOf hsp with rfl | ⟨nnn, rfl⟩
    · obtain ⟨hne, rfl⟩ := retEffect_done he
      intro j hj
      refine hstack j ?_
      simp only [commit_cons, commit_nil, applyWrite] at hj
      bv_omega
    · obtain ⟨hlt, rfl⟩ := callEffect_done he
      intro j hj
      have hj : j < s.sp.toNat + 1 := by
        simp only [commit_cons, commit_nil, applyWrite] at hj
        bv_omega
      show (t.setStack s.sp.toNat s.pc).stackAt j = (s.setStack s.sp.toNat s.pc).stackAt j
      rw [State.stackAt_setStack, State.stackAt_setStack]
      split
      · rfl
      · exact hstack j (by omega)
  · intro j hj
    have hno : ∀ a, Write.stack j a ∉ ws := fun a ha => by
      obtain ⟨⟨nnn, rfl⟩, -⟩ := entry_of_staged_stack he ha
      simp [targetsOf] at hsp
    rw [commit_sp fun w hw e => hsp (e ▸ target_mem_targetsOf he hw)] at hj
    rw [commit_stackAt hno, commit_stackAt hno]
    exact hstack j hj

/-- WAIT_X agrees where an instruction's commit leaves the machine waiting: LDK latches the same register on both sides (R41). -/
theorem waitXAgrees_commit (h : agreeButHidden s t) {i : Instr} {ws : List Write} {npc : Nat}
    (he : effectUnder c i s = .done ws npc) (hw : (commit c s ws).waiting = true) :
    (commit c t ws).waitX = (commit c s ws).waitX := by
  obtain ⟨-, -, hwait⟩ := h
  by_cases hi : ∃ x, i = .ldk x
  · obtain ⟨x, rfl⟩ := hi
    rcases ldkEffect_done he with ⟨b, rfl⟩ | ⟨-, rfl, -⟩
    · exact hwait hw
    · rfl
  · have hno : ∀ w ∈ ws, w.target ≠ .waiting ∧ w.target ≠ .waitX := fun w hw =>
      ⟨fun e => hi (wait_mem_targetsOf (.inl (e ▸ target_mem_targetsOf he hw))),
        fun e => hi (wait_mem_targetsOf (.inr (e ▸ target_mem_targetsOf he hw)))⟩
    rw [commit_waiting fun w hw => (hno w hw).1] at hw
    rw [commit_waitX fun w hw => (hno w hw).2, commit_waitX fun w hw => (hno w hw).2]
    exact hwait hw

/-- The same next PC on both sides keeps the agreement. -/
theorem agreeButHidden_pc (h : agreeButHidden s t) (a : Addr) : agreeButHidden { s with pc := a } { t with pc := a } := by
  obtain ⟨ht, hstack, hwait⟩ := h
  refine ⟨?_, hstack, hwait⟩
  rw [ht]

/-- One effect completes alike from two states if its commit keeps their agreement. -/
theorem resultsAgree_complete (h : agreeButHidden s t) {e : Effect}
    (hc : ∀ ws npc, e = .done ws npc → agreeButHidden (commit c s ws) (commit c t ws)) :
    resultsAgree (complete c s e) (complete c t e) := by
  cases e with
  | done ws npc =>
    by_cases hn : npc ≤ 0xFFF
    · rw [complete_done hn, complete_done hn]
      exact agreeButHidden_pc (hc ws npc rfl) _
    · have hn := Nat.lt_of_not_le hn
      rw [complete_pastEnd hn, complete_pastEnd hn]
      exact agreeButHidden_raise h _
  | raise err => exact agreeButHidden_raise h err
  | stuck f => exact rfl

/-- One instruction from two states that agree but for hidden state. -/
theorem resultsAgree_exec (h : agreeButHidden s t) (i : Instr) : resultsAgree (exec i s) (exec i t) := by
  rw [exec_eq_complete, exec_eq_complete, effectUnder_of_agree h]
  exact resultsAgree_complete h fun ws npc he =>
    ⟨visibleAgrees_commit h.1 ws, entriesAgree_commit h he, waitXAgrees_commit h he⟩

/-- The key re-check from two states that agree but for hidden state: both hold the same WAIT_X (R122). -/
theorem resultsAgree_keyRecheck (h : agreeButHidden s t) (hw : s.waiting = true) :
    resultsAgree (complete c s (keyRecheckEffect s)) (complete c t (keyRecheckEffect t)) := by
  obtain ⟨ht, hstack, hwait⟩ := h
  have heff : keyRecheckEffect t = keyRecheckEffect s := by
    have hkey : t.lowestKey = s.lowestKey := State.lowestKey_of_keys_eq (by rw [ht])
    have hpc : t.pc = s.pc := by rw [ht]
    rw [keyRecheckEffect, keyRecheckEffect, hkey, hwait hw, State.nextPc, State.nextPc, hpc]
  rw [heff]
  refine resultsAgree_complete ⟨ht, hstack, hwait⟩ fun ws npc he => ⟨visibleAgrees_commit ht ws, ?_⟩
  unfold keyRecheckEffect at he
  split at he <;> cases he
  · exact ⟨hstack, nofun⟩
  · exact ⟨hstack, hwait⟩

end

/-- Settles O59: both steps pass the same gate, fetch the same word, and run the same effect. -/
theorem hiddenStateHasNoInfluence : Obligations.HiddenStateHasNoInfluence := by
  intro s t h
  have ht := h.1
  have hgate : t.gated = s.gated := by rw [ht]; rfl
  have hwaiting : t.waiting = s.waiting := by rw [ht]
  have hfetch : t.fetch Config.hardware = s.fetch Config.hardware :=
    State.fetch_of_eq (by rw [ht]) (by rw [ht]) _
  simp only [step, stepWith, fetchDecodeExecute, hgate, hwaiting, hfetch]
  split
  · exact h
  · split
    · exact resultsAgree_keyRecheck h ‹_›
    · split
      · exact agreeButHidden_raise h _
      · split
        · exact agreeButHidden_raise h _
        · exact resultsAgree_exec h _

end Sys2Proof.Machine

/-! The statements of 20_memory.md: the fetch's checks and its byte order, stores to the font bytes, and stores that a later fetch
sees. -/

namespace Sys2Proof.Machine

/-! ## The fetch (R61, R63) -/

section
variable {c : Config} {s : State} {op : Opcode}

/-- Bit 0 of PC is set exactly at an odd PC. -/
theorem pc_bit0_iff_odd (s : State) : s.pc.getLsbD 0 = true ↔ s.pc.toNat % 2 = 1 := by
  simp [BitVec.getLsbD, Nat.testBit_zero]

/-- Under ODD_PC_POLICY = fault the fetch refuses an odd PC (R63). -/
theorem fetch_oddPc (hc : c.oddPc = .fault) (hodd : s.pc.toNat % 2 = 1) : s.fetch c = .error .addressOutOfRange := by
  rw [State.fetch, if_pos ⟨hc, (pc_bit0_iff_odd s).mpr hodd⟩]

/-- A word is loaded exactly if both its bytes exist (R10, R66). -/
theorem loadWord_eq (c : Config) (s : State) (a : Nat) :
    s.loadWord c a = if a + 2 ≤ 4096 then .ok (wordOfBytes (s.readByte c a) (s.readByte c (a + 1)))
      else .error .addressOutOfRange := by
  simp [State.loadWord, inRange_iff]

/-- Where ODD_PC_POLICY has no objection the fetch is the word at PC (R61, R63). -/
theorem fetch_eq_loadWord (h : c.oddPc = .fetch ∨ s.pc.toNat % 2 = 0) : s.fetch c = s.loadWord c s.pc.toNat := by
  rw [State.fetch, if_neg]
  rintro ⟨hc, hodd⟩
  have hodd := (pc_bit0_iff_odd s).mp hodd
  rcases h with h | h
  · simp [hc] at h
  · omega

/-- At PC = 0xFFF the fetch raises AddressOutOfRange, whichever of its two checks does (R63). -/
theorem fetch_lastByte (h : s.pc.toNat = 0xFFF) : s.fetch c = .error .addressOutOfRange := by
  cases hc : c.oddPc with
  | fault => exact fetch_oddPc hc (by omega)
  | fetch => rw [fetch_eq_loadWord (.inl hc), loadWord_eq, if_neg (by omega)]

/-- A word fetched is the byte at PC over the byte at PC + 1 (R61). -/
theorem bytes_of_fetch (h : s.fetch c = .ok op) :
    highByte op = s.readByte c s.pc.toNat ∧ lowByte op = s.readByte c (s.pc.toNat + 1) := by
  rw [State.fetch, loadWord_eq] at h
  split at h
  · cases h
  · split at h <;> cases h
    simp

end

/-- Settles O9: the range check at 0xFFF, the alignment check, and the word of two bytes where neither objects. -/
theorem fetchIsBigEndianAndChecked : Obligations.FetchIsBigEndianAndChecked := by
  refine fun c s => ⟨fetch_lastByte, fetch_oddPc, fun hpc hodd => ?_, rfl⟩
  have hf : s.fetch c = .ok (wordOfBytes (s.readByte c s.pc.toNat) (s.readByte c (s.pc.toNat + 1))) := by
    rw [fetch_eq_loadWord hodd, loadWord_eq, if_pos (by omega)]
  exact ⟨_, hf, bytes_of_fetch hf⟩

/-! ## BCD and SR as stores, under every setting of the parameters (R243, R244) -/

@[simp] theorem length_decimalDigits (b : Byte) : (decimalDigits b).length = 3 := rfl

@[simp] theorem length_map_getV_regsUpTo (s : State) (x : RegIdx) : ((regsUpTo x).map s.getV).length = x.toNat + 1 := by
  rw [List.length_map, length_regsUpTo]

/-- BCD stages three digits if their three addresses exist, else it raises AddressOutOfRange (R66, R243). -/
theorem bcdEffect_eq (x : RegIdx) (s : State) :
    bcdEffect x s = if s.i.toNat + 3 ≤ 4096 then .done (stores s.i.toNat (decimalDigits (s.getV x))) s.nextPc
      else .raise .addressOutOfRange := by
  rw [bcdEffect, storeBytes_eq, length_decimalDigits]
  by_cases hi : s.i.toNat + 3 ≤ 4096 <;> simp [hi]

/-- SR stages V0 to Vx and I if their x + 1 addresses exist, else it raises AddressOutOfRange (R66, R244). -/
theorem srEffect_eq (x : RegIdx) (s : State) :
    srEffect x s = if s.i.toNat + x.toNat + 1 ≤ 4096 then
        .done (stores s.i.toNat ((regsUpTo x).map s.getV) ++ [.i (BitVec.ofNat 16 (s.i.toNat + x.toNat + 1))]) s.nextPc
      else .raise .addressOutOfRange := by
  rw [srEffect, storeBytes_eq, length_map_getV_regsUpTo]
  by_cases hi : s.i.toNat + x.toNat + 1 ≤ 4096 <;> simp [hi, ← Nat.add_assoc]

/-- The j-th of a byte's three decimal digits, hundreds first (R243). -/
theorem toNat_getElem_decimalDigits (b : Byte) {j : Nat} (hj : j < (decimalDigits b).length) :
    (decimalDigits b)[j].toNat = b.toNat / 10 ^ (2 - j) % 10 := by
  have hb := b.isLt
  match j, hj with
  | 0, _ => simp [decimalDigits]; omega
  | 1, _ => simp [decimalDigits]; omega
  | 2, _ => simp [decimalDigits]; omega

section
variable {c : Config} {x : RegIdx} {s t : State}

/-- BCD completed: its stores are committed and PC advances (R243). -/
theorem execUnder_bcd (hi : s.i.toNat + 3 ≤ 4096) (hpc : s.pc.toNat + 2 ≤ 0xFFF) :
    execUnder c (.bcd x) s = .next { commit c s (stores s.i.toNat (decimalDigits (s.getV x))) with
      pc := BitVec.ofNat 12 s.nextPc } := by
  rw [execUnder, effectUnder, bcdEffect_eq, if_pos hi, complete_done (show s.nextPc ≤ 0xFFF from hpc)]

/-- SR completed: its stores are committed, and I and PC advance (R244). -/
theorem execUnder_sr (hi : s.i.toNat + x.toNat + 1 ≤ 4096) (hpc : s.pc.toNat + 2 ≤ 0xFFF) :
    execUnder c (.sr x) s = .next { commit c s (stores s.i.toNat ((regsUpTo x).map s.getV)) with
      i := BitVec.ofNat 16 (s.i.toNat + x.toNat + 1), pc := BitVec.ofNat 12 s.nextPc } := by
  rw [execUnder, effectUnder, srEffect_eq, if_pos hi, complete_done (show s.nextPc ≤ 0xFFF from hpc), commit_append]
  rfl

/-- An instruction that leaves the machine running committed its writes (R126, R302). -/
theorem done_of_running {i : Instr} (h : execUnder c i s = .next t) (ht : t.halted = false) :
    ∃ ws npc, effectUnder c i s = .done ws npc ∧ npc ≤ 0xFFF := by
  rcases complete_next h with ⟨e, rfl, -⟩ | ⟨ws, npc, he, hn, -⟩
  · cases ht
  · exact ⟨ws, npc, he, hn⟩

/-- A BCD that leaves the machine running passed its range checks. -/
theorem inRange_of_bcd_running (h : execUnder c (.bcd x) s = .next t) (ht : t.halted = false) :
    s.i.toNat + 3 ≤ 4096 ∧ s.pc.toNat + 2 ≤ 0xFFF := by
  obtain ⟨ws, npc, he, hn⟩ := done_of_running h ht
  rw [effectUnder, bcdEffect_eq] at he
  split at he <;> cases he
  exact ⟨‹_›, hn⟩

/-- An SR that leaves the machine running passed its range checks. -/
theorem inRange_of_sr_running (h : execUnder c (.sr x) s = .next t) (ht : t.halted = false) :
    s.i.toNat + x.toNat + 1 ≤ 4096 ∧ s.pc.toNat + 2 ≤ 0xFFF := by
  obtain ⟨ws, npc, he, hn⟩ := done_of_running h ht
  rw [effectUnder, srEffect_eq] at he
  split at he <;> cases he
  exact ⟨‹_›, hn⟩

/-- BCD's j-th digit stands at I + j, unless FONT_WRITE = ignore drops its store (R70, R243). -/
theorem readByte_of_bcd (hi : s.i.toNat + 3 ≤ 4096) (hpc : s.pc.toNat + 2 ≤ 0xFFF) (h : execUnder c (.bcd x) s = .next t)
    {j : Nat} (hj : j < 3) (hf : ¬ (c.fontWrite = .ignore ∧ s.i.toNat + j < 80)) :
    (t.readByte c (s.i.toNat + j)).toNat = (s.getV x).toNat / 10 ^ (2 - j) % 10 := by
  rw [execUnder_bcd hi hpc] at h
  cases h
  rw [State.readByte_pc, readByte_commit_stores_inside c (decimalDigits (s.getV x)) s _ j hj hi hf]
  exact toNat_getElem_decimalDigits _ hj

/-- SR's register Vk stands at I + k, unless FONT_WRITE = ignore drops its store (R70, R244). -/
theorem readByte_of_sr (hi : s.i.toNat + x.toNat + 1 ≤ 4096) (hpc : s.pc.toNat + 2 ≤ 0xFFF)
    (h : execUnder c (.sr x) s = .next t) {k : RegIdx} (hk : k.toNat ≤ x.toNat)
    (hf : ¬ (c.fontWrite = .ignore ∧ s.i.toNat + k.toNat < 80)) : t.readByte c (s.i.toNat + k.toNat) = s.getV k := by
  rw [execUnder_sr hi hpc] at h
  cases h
  refine (readByte_commit_stores_inside c ((regsUpTo x).map s.getV) s s.i.toNat k.toNat ?_ ?_ hf).trans ?_
  · rw [length_map_getV_regsUpTo]; omega
  · rwa [length_map_getV_regsUpTo]
  · simp

/-- Under FONT_WRITE = ignore no commit changes a font byte (R70). -/
theorem readByte_commit_font (hc : c.fontWrite = .ignore) {a : Nat} (ha : a < fontLen) (ws : List Write) :
    (commit c s ws).readByte c a = s.readByte c a :=
  commit_keeps (fun s => s.readByte c a) c ws (fun w _ s => by
    cases w with
    | mem b u =>
      refine (readByte_writeByte c s b a u).trans (if_neg ?_)
      rintro ⟨rfl, -, hf⟩
      exact hf ⟨hc, ha⟩
    | _ => exact State.readByte_of_mem_eq (by simp [applyWrite]) c a) s

/-- Under FONT_WRITE = ignore no instruction changes a font byte (R70). -/
theorem readByte_execUnder_font (hc : c.fontWrite = .ignore) {a : Nat} (ha : a < fontLen) {i : Instr}
    (h : execUnder c i s = .next t) : t.readByte c a = s.readByte c a := by
  rcases complete_next h with ⟨e, rfl, -⟩ | ⟨ws, npc, -, -, rfl⟩
  · rfl
  · exact readByte_commit_font hc ha ws

end

/-! ## The statements on stores -/

/-- Settles O37: font bytes are kept under ignore by any instruction; a store that is not dropped is read back. -/
theorem fontBytesFollowFontWrite : Obligations.FontBytesFollowFontWrite := by
  refine ⟨rfl, fun c x s t hi hpc h => ?_, fun c x s t hi hpc h => ?_⟩
  · have hread := fun j => readByte_of_bcd (j := j) hi hpc h
    have hhundreds : (s.getV x).toNat / 10 ^ 2 % 10 = (s.getV x).toNat / 100 := by
      have := (s.getV x).isLt
      omega
    refine ⟨fun hc => ⟨fun a ha => readByte_execUnder_font hc ha h, fun ha => ?_, fun ha => ?_, fun ha => ?_⟩,
      fun hc => ⟨?_, ?_, ?_⟩, ?_⟩
    · exact (hread 0 (by decide) (by omega)).trans hhundreds
    · simpa using hread 1 (by decide) (by omega)
    · simpa using hread 2 (by decide) (by omega)
    · exact (hread 0 (by decide) (by simp [hc])).trans hhundreds
    · simpa using hread 1 (by decide) (by simp [hc])
    · simpa using hread 2 (by decide) (by simp [hc])
    · rw [execUnder_bcd hi hpc] at h
      cases h
      exact toNat_ofNat_pc hpc
  · have hread := fun k => readByte_of_sr (k := k) hi hpc h
    refine ⟨fun hc => ⟨fun a ha => readByte_execUnder_font hc ha h, fun k hk ha => hread k hk (by omega)⟩,
      fun hc k hk => hread k hk (by simp [hc]), ?_⟩
    rw [execUnder_sr hi hpc] at h
    cases h
    refine ⟨?_, toNat_ofNat_pc hpc⟩
    simp only [BitVec.toNat_ofNat]
    omega

/-- Settles O38: the fetched halves are the bytes at PC and PC + 1, and SR and BCD left their stores there. -/
theorem fetchSeesStoredBytes : Obligations.FetchSeesStoredBytes := by
  intro x s t u op _ _ ht hmem hfetch
  obtain ⟨hhi, hlo⟩ := bytes_of_fetch hfetch
  rw [State.readByte_of_mem_eq hmem] at hhi hlo
  have hwrite : ∀ a, ¬ (Config.hardware.fontWrite = .ignore ∧ a < 80) := fun _ => nofun
  refine ⟨hhi, hlo, fun k h hk => ?_, fun j h hj => ?_⟩ <;> rw [← execUnder_hardware] at h
  · obtain ⟨hi, hpc⟩ := inRange_of_sr_running h ht
    have hread := readByte_of_sr hi hpc h hk (hwrite _)
    exact ⟨fun e => by rw [hhi, e, hread], fun e => by rw [hlo, e, hread]⟩
  · obtain ⟨hi, hpc⟩ := inRange_of_bcd_running h ht
    have hread := readByte_of_bcd hi hpc h hj (hwrite _)
    exact ⟨fun e => by rw [hhi, e, hread], fun e => by rw [hlo, e, hread]⟩

end Sys2Proof.Machine

/-! The statements of 30_encoding.md: the decoder, the opcode map and the encoder agree, and the illegal words. They rest on one
description of the decoder: a word decodes to `i` exactly if it matches the row of `i` and its fields are the operands
of `i`. -/

namespace Sys2Proof

/-! ## Fields of a word written as a number (R91) -/

@[simp] theorem family_ofNat (k : Nat) : family (BitVec.ofNat 16 k) = BitVec.ofNat 4 (k / 4096) := by
  apply BitVec.eq_of_toNat_eq
  simp [family, Nat.shiftRight_eq_div_pow]
  omega
@[simp] theorem fieldX_ofNat (k : Nat) : fieldX (BitVec.ofNat 16 k) = BitVec.ofNat 4 (k / 256) := by
  apply BitVec.eq_of_toNat_eq
  simp [fieldX, Nat.shiftRight_eq_div_pow]
  omega
@[simp] theorem fieldY_ofNat (k : Nat) : fieldY (BitVec.ofNat 16 k) = BitVec.ofNat 4 (k / 16) := by
  apply BitVec.eq_of_toNat_eq
  simp [fieldY, Nat.shiftRight_eq_div_pow]
  omega
@[simp] theorem fieldN_ofNat (k : Nat) : fieldN (BitVec.ofNat 16 k) = BitVec.ofNat 4 k := by
  apply BitVec.eq_of_toNat_eq
  simp [fieldN]
@[simp] theorem fieldKK_ofNat (k : Nat) : fieldKK (BitVec.ofNat 16 k) = BitVec.ofNat 8 k := by
  apply BitVec.eq_of_toNat_eq
  simp [fieldKK]

/-! ## What each mask of the opcode map examines (R95, R101) -/

section
variable {strict : Bool} {op p : Opcode} {name : String}

/-- `masked_eq_iff` with y and n read together as kk. -/
theorem masked_eq_iff_kk (op m p : Opcode) :
    op &&& m = p ↔ family op &&& family m = family p ∧ fieldX op &&& fieldX m = fieldX p ∧
      fieldKK op &&& fieldKK m = fieldKK p := by
  rw [← family_and, ← fieldX_and, ← fieldKK_and]
  constructor
  · rintro rfl; exact ⟨rfl, rfl, rfl⟩
  · rintro ⟨h1, h2, h3⟩
    rw [← wordXKK_fields (op &&& m), ← wordXKK_fields p, h1, h2, h3]

theorem and_F000_eq_iff (hp : p &&& 0xF000#16 = p) : op &&& 0xF000#16 = p ↔ family op = family p := by
  rw [← hp]
  simp [masked_eq_iff, family_and, fieldX_and, fieldY_and, fieldN_and, nibble_and_F]

theorem and_F00F_eq_iff (hp : p &&& 0xF00F#16 = p) :
    op &&& 0xF00F#16 = p ↔ family op = family p ∧ fieldN op = fieldN p := by
  rw [← hp]
  simp [masked_eq_iff, family_and, fieldX_and, fieldY_and, fieldN_and, nibble_and_F]

theorem and_F0FF_eq_iff (hp : p &&& 0xF0FF#16 = p) :
    op &&& 0xF0FF#16 = p ↔ family op = family p ∧ fieldKK op = fieldKK p := by
  rw [← hp]
  simp [masked_eq_iff_kk, family_and, fieldX_and, fieldKK_and, nibble_and_F, byte_and_FF]

/-- A row told by its family alone (R100). -/
theorem hits_family (hp : p &&& 0xF000#16 = p) :
    (OpcodeRow.mk name p 0xF000#16 0xF000#16).hits strict op = true ↔ family op = family p := by
  simp [hits_iff, OpcodeRow.maskUnder, and_F000_eq_iff hp]

/-- A row told by its family and n (R97). -/
theorem hits_familyN (hp : p &&& 0xF00F#16 = p) :
    (OpcodeRow.mk name p 0xF00F#16 0xF00F#16).hits strict op = true ↔ family op = family p ∧ fieldN op = fieldN p := by
  simp [hits_iff, OpcodeRow.maskUnder, and_F00F_eq_iff hp]

/-- A row told by its family and kk (R98, R99). -/
theorem hits_familyKK (hp : p &&& 0xF0FF#16 = p) :
    (OpcodeRow.mk name p 0xF0FF#16 0xF0FF#16).hits strict op = true ↔ family op = family p ∧ fieldKK op = fieldKK p := by
  simp [hits_iff, OpcodeRow.maskUnder, and_F0FF_eq_iff hp]

/-- The rows of SRER and SNE: the family, and under STRICT_DECODE n, which must be 0 (R100, R101). -/
theorem hits_family_strictN (hp : p &&& 0xF000#16 = p) :
    (OpcodeRow.mk name p 0xF000#16 0xF00F#16).hits strict op = true ↔
      family op = family p ∧ (strict = true → fieldN op = 0#4) := by
  have hn : fieldN p = 0#4 := by rw [← hp]; simp [fieldN_and]
  have hp' : p &&& 0xF00F#16 = p := by rw [← hp, BitVec.and_assoc]; rfl
  cases strict <;> simp [hits_iff, OpcodeRow.maskUnder, and_F000_eq_iff hp, and_F00F_eq_iff hp', hn]

/-- The rows of CLS and RET: the family and kk, and under STRICT_DECODE x, which must be 0 (R96, R101). -/
theorem hits_familyKK_strictX (hp : p &&& 0xF0FF#16 = p) :
    (OpcodeRow.mk name p 0xF0FF#16 0xFFFF#16).hits strict op = true ↔
      family op = family p ∧ fieldKK op = fieldKK p ∧ (strict = true → fieldX op = 0#4) := by
  have hx : fieldX p = 0#4 := by rw [← hp]; simp [fieldX_and]
  cases strict
  · simp [hits_iff, OpcodeRow.maskUnder, and_F0FF_eq_iff hp]
  · simp [hits_iff, OpcodeRow.maskUnder, masked_eq_iff_kk, nibble_and_F, byte_and_FF, hx, and_comm]

end

/-! ## The decoder, described by the opcode map (R93 to R101) -/

/-- The instruction of the same row with the operands that a word's fields give (R91). -/
@[simp] def Instr.withOperandsOf (op : Opcode) : Instr → Instr
  | .cls => .cls
  | .ret => .ret
  | .jmp _ => .jmp (fieldNNN op)
  | .call _ => .call (fieldNNN op)
  | .seqb _ _ => .seqb (fieldX op) (fieldKK op)
  | .sneqb _ _ => .sneqb (fieldX op) (fieldKK op)
  | .srer _ _ => .srer (fieldX op) (fieldY op)
  | .lbr _ _ => .lbr (fieldX op) (fieldKK op)
  | .abr _ _ => .abr (fieldX op) (fieldKK op)
  | .lrr _ _ => .lrr (fieldX op) (fieldY op)
  | .or _ _ => .or (fieldX op) (fieldY op)
  | .and _ _ => .and (fieldX op) (fieldY op)
  | .xor _ _ => .xor (fieldX op) (fieldY op)
  | .add _ _ => .add (fieldX op) (fieldY op)
  | .sub _ _ => .sub (fieldX op) (fieldY op)
  | .shr _ => .shr (fieldX op)
  | .subn _ _ => .subn (fieldX op) (fieldY op)
  | .shl _ => .shl (fieldX op)
  | .sne _ _ => .sne (fieldX op) (fieldY op)
  | .ldi _ => .ldi (fieldNNN op)
  | .jpv0 _ => .jpv0 (fieldNNN op)
  | .rnd _ _ => .rnd (fieldX op) (fieldKK op)
  | .drw _ _ _ => .drw (fieldX op) (fieldY op) (fieldN op)
  | .skp _ => .skp (fieldX op)
  | .sknp _ => .sknp (fieldX op)
  | .lddv _ => .lddv (fieldX op)
  | .ldk _ => .ldk (fieldX op)
  | .ldvd _ => .ldvd (fieldX op)
  | .ldst _ => .ldst (fieldX op)
  | .addi _ => .addi (fieldX op)
  | .lds _ => .lds (fieldX op)
  | .bcd _ => .bcd (fieldX op)
  | .sr _ => .sr (fieldX op)
  | .lr _ => .lr (fieldX op)

theorem rowOf_withOperandsOf (op : Opcode) (i : Instr) : rowOf (i.withOperandsOf op) = rowOf i := by cases i <;> rfl

section
variable {strict : Bool} {op : Opcode} {i : Instr}

theorem zeroNibble_eq_ok_iff {k : BitVec 4} {j : Instr} :
    zeroNibble strict k i = .ok j ↔ (strict = true → k = 0#4) ∧ i = j := by
  cases strict <;> by_cases hk : k = 0#4 <;> simp [zeroNibble, hk]

theorem zeroNibble_eq_ok {k : BitVec 4} (h : strict = true → k = 0#4) (i : Instr) : zeroNibble strict k i = .ok i :=
  zeroNibble_eq_ok_iff.mpr ⟨h, rfl⟩

/-- A word that matches a row of the opcode map decodes to that row's instruction, with the word's fields as operands
(R95, R101). -/
theorem decodeUnder_of_hits (h : (rowOf i).hits strict op = true) : decodeUnder strict op = .ok (i.withOperandsOf op) := by
  cases i with
  | jmp | call | seqb | sneqb | lbr | abr | ldi | jpv0 | rnd | drw =>
    have hrow := (hits_family rfl).mp h
    simp [decodeUnder, hrow]
  | srer | sne =>
    have hrow := (hits_family_strictN rfl).mp h
    simp [decodeUnder, hrow, zeroNibble_eq_ok hrow.2]
  | cls | ret =>
    have hrow := (hits_familyKK_strictX rfl).mp h
    simp [decodeUnder, decode0, hrow, zeroNibble_eq_ok hrow.2.2]
  | lrr | or | and | xor | add | sub | shr | subn | shl =>
    have hrow := (hits_familyN rfl).mp h
    simp [decodeUnder, decode8, hrow]
  | skp | sknp =>
    have hrow := (hits_familyKK rfl).mp h
    simp [decodeUnder, decodeE, hrow]
  | lddv | ldk | ldvd | ldst | addi | lds | bcd | sr | lr =>
    have hrow := (hits_familyKK rfl).mp h
    simp [decodeUnder, decodeF, hrow]

/-! The converse, one family with a subcode at a time. -/

theorem hits_of_decode0 (hf : family op = 0x0#4) (h : decode0 strict op = .ok i) :
    (rowOf i).hits strict op = true ∧ i.withOperandsOf op = i := by
  unfold decode0 at h
  split at h
  case h_1 hkk | h_2 hkk =>
    obtain ⟨hx, rfl⟩ := zeroNibble_eq_ok_iff.mp h
    exact ⟨(hits_familyKK_strictX rfl).mpr ⟨hf, hkk, hx⟩, rfl⟩
  case h_3 => cases h

theorem hits_of_decode8 (hf : family op = 0x8#4) (h : decode8 op = .ok i) :
    (rowOf i).hits strict op = true ∧ i.withOperandsOf op = i := by
  unfold decode8 at h
  split at h <;> cases h <;> exact ⟨(hits_familyN rfl).mpr ⟨hf, ‹_›⟩, rfl⟩

theorem hits_of_decodeE (hf : family op = 0xE#4) (h : decodeE op = .ok i) :
    (rowOf i).hits strict op = true ∧ i.withOperandsOf op = i := by
  unfold decodeE at h
  split at h <;> cases h <;> exact ⟨(hits_familyKK rfl).mpr ⟨hf, ‹_›⟩, rfl⟩

theorem hits_of_decodeF (hf : family op = 0xF#4) (h : decodeF op = .ok i) :
    (rowOf i).hits strict op = true ∧ i.withOperandsOf op = i := by
  unfold decodeF at h
  split at h <;> cases h <;> exact ⟨(hits_familyKK rfl).mpr ⟨hf, ‹_›⟩, rfl⟩

/-- A word that decodes matches the row of its instruction, whose operands are the word's fields (R95, R101). -/
theorem hits_of_decodeUnder (h : decodeUnder strict op = .ok i) :
    (rowOf i).hits strict op = true ∧ i.withOperandsOf op = i := by
  unfold decodeUnder at h
  split at h
  case h_1 hf => exact hits_of_decode0 hf h
  case h_9 hf => exact hits_of_decode8 hf h
  case h_15 hf => exact hits_of_decodeE hf h
  case h_16 =>
    exact hits_of_decodeF (nibble_eq_F ‹_› ‹_› ‹_› ‹_› ‹_› ‹_› ‹_› ‹_› ‹_› ‹_› ‹_› ‹_› ‹_› ‹_› ‹_›) h
  case h_6 hf | h_10 hf =>
    obtain ⟨hn, rfl⟩ := zeroNibble_eq_ok_iff.mp h
    exact ⟨(hits_family_strictN rfl).mpr ⟨hf, hn⟩, rfl⟩
  all_goals
    cases h
    exact ⟨(hits_family rfl).mpr ‹_›, rfl⟩

/-- The decoder described by the opcode map: the row, and the operands from the fields. -/
theorem decodeUnder_eq_ok_iff :
    decodeUnder strict op = .ok i ↔ (rowOf i).hits strict op = true ∧ i.withOperandsOf op = i := by
  refine ⟨hits_of_decodeUnder, fun ⟨h, hi⟩ => ?_⟩
  rw [decodeUnder_of_hits h, hi]

/-! ## The encoder against the decoder (R107) -/

/-- Every instruction's word lies in its own row. -/
theorem encodesInRow (i : Instr) : Laws.EncodesInRow.Statement i :=
  match i with
  | .cls => Laws.EncodesInRow.cls
  | .ret => Laws.EncodesInRow.ret
  | .jmp nnn => Laws.EncodesInRow.jmp nnn
  | .call nnn => Laws.EncodesInRow.call nnn
  | .seqb x kk => Laws.EncodesInRow.seqb x kk
  | .sneqb x kk => Laws.EncodesInRow.sneqb x kk
  | .srer x y => Laws.EncodesInRow.srer x y
  | .lbr x kk => Laws.EncodesInRow.lbr x kk
  | .abr x kk => Laws.EncodesInRow.abr x kk
  | .lrr x y => Laws.EncodesInRow.lrr x y
  | .or x y => Laws.EncodesInRow.or x y
  | .and x y => Laws.EncodesInRow.and x y
  | .xor x y => Laws.EncodesInRow.xor x y
  | .add x y => Laws.EncodesInRow.add x y
  | .sub x y => Laws.EncodesInRow.sub x y
  | .shr x => Laws.EncodesInRow.shr x
  | .subn x y => Laws.EncodesInRow.subn x y
  | .shl x => Laws.EncodesInRow.shl x
  | .sne x y => Laws.EncodesInRow.sne x y
  | .ldi nnn => Laws.EncodesInRow.ldi nnn
  | .jpv0 nnn => Laws.EncodesInRow.jpv0 nnn
  | .rnd x kk => Laws.EncodesInRow.rnd x kk
  | .drw x y n => Laws.EncodesInRow.drw x y n
  | .skp x => Laws.EncodesInRow.skp x
  | .sknp x => Laws.EncodesInRow.sknp x
  | .lddv x => Laws.EncodesInRow.lddv x
  | .ldk x => Laws.EncodesInRow.ldk x
  | .ldvd x => Laws.EncodesInRow.ldvd x
  | .ldst x => Laws.EncodesInRow.ldst x
  | .addi x => Laws.EncodesInRow.addi x
  | .lds x => Laws.EncodesInRow.lds x
  | .bcd x => Laws.EncodesInRow.bcd x
  | .sr x => Laws.EncodesInRow.sr x
  | .lr x => Laws.EncodesInRow.lr x

/-- The fields of an instruction's word are its operands. -/
theorem withOperandsOf_encode (i : Instr) : i.withOperandsOf (encode i) = i := by cases i <;> simp [encode]

theorem decodeUnder_encode (strict : Bool) (i : Instr) : decodeUnder strict (encode i) = .ok i :=
  decodeUnder_eq_ok_iff.mpr ⟨encodesInRow i strict, withOperandsOf_encode i⟩

/-- The bits of a word that the decoder examines or reads an operand from: all but the row's `?` nibble, which STRICT_DECODE
examines too but in the rows of SHR and SHL (R95, R101). -/
def usedBits (strict : Bool) : Instr → Opcode
  | .cls | .ret => if strict then 0xFFFF#16 else 0xF0FF#16
  | .srer _ _ | .sne _ _ => if strict then 0xFFFF#16 else 0xFFF0#16
  | .shr _ | .shl _ => 0xFF0F#16
  | _ => 0xFFFF#16

theorem and_FFFF (op : Opcode) : op &&& 0xFFFF#16 = op := by simpa using BitVec.and_allOnes (x := op)

theorem and_F0FF (op : Opcode) : op &&& 0xF0FF#16 = wordXKK (family op) 0#4 (fieldKK op) := by
  simpa only [wordXKK_fields] using wordXKK_and_F0FF (family op) (fieldX op) (fieldKK op)
theorem and_FFF0 (op : Opcode) : op &&& 0xFFF0#16 = wordXYN (family op) (fieldX op) (fieldY op) 0#4 := by
  simp [masked_eq_iff, nibble_and_F]
theorem and_FF0F (op : Opcode) : op &&& 0xFF0F#16 = wordXYN (family op) (fieldX op) 0#4 (fieldN op) := by
  simp [masked_eq_iff, nibble_and_F]

theorem usedBits_of_not_ignoresNibble (h : ignoresNibble i = false) : usedBits strict i = 0xFFFF#16 := by
  cases i with
  | cls | ret | srer | sne | shr | shl => cases h
  | _ => rfl

theorem usedBits_strict (hshr : ∀ x, i ≠ .shr x) (hshl : ∀ x, i ≠ .shl x) : usedBits true i = 0xFFFF#16 := by
  cases i with
  | shr x => exact absurd rfl (hshr x)
  | shl x => exact absurd rfl (hshl x)
  | _ => rfl

/-- The word of the instruction a word decodes to is that word with its unused nibble cleared. -/
theorem encode_of_decodeUnder (h : decodeUnder strict op = .ok i) : encode i = op &&& usedBits strict i := by
  obtain ⟨hrow, hi⟩ := hits_of_decodeUnder h
  rw [← hi]
  cases i with
  | jmp | call | ldi | jpv0 =>
    have hrow := (hits_family rfl).mp hrow
    simpa [encode, usedBits, and_FFFF, hrow] using wordNNN_fields op
  | seqb | sneqb | lbr | abr | rnd =>
    have hrow := (hits_family rfl).mp hrow
    simpa [encode, usedBits, and_FFFF, hrow] using wordXKK_fields op
  | drw =>
    have hrow := (hits_family rfl).mp hrow
    simpa [encode, usedBits, and_FFFF, hrow] using wordXYN_fields op
  | lrr | or | and | xor | add | sub | subn =>
    have hrow := (hits_familyN rfl).mp hrow
    simpa [encode, usedBits, and_FFFF, hrow] using wordXYN_fields op
  | skp | sknp | lddv | ldk | ldvd | ldst | addi | lds | bcd | sr | lr =>
    have hrow := (hits_familyKK rfl).mp hrow
    simpa [encode, usedBits, and_FFFF, hrow] using wordXKK_fields op
  | shr | shl =>
    have hrow := (hits_familyN rfl).mp hrow
    simp [encode, usedBits, and_FF0F, hrow]
  | srer | sne =>
    have hrow := (hits_family_strictN rfl).mp hrow
    obtain ⟨hf, hn⟩ := hrow
    cases strict
    · simp [encode, usedBits, and_FFF0, hf]
    · simpa [encode, usedBits, and_FFFF, hf, hn] using wordXYN_fields op
  | cls | ret =>
    have hrow := (hits_familyKK_strictX rfl).mp hrow
    obtain ⟨hf, hkk, hx⟩ := hrow
    cases strict
    · simp [encode, usedBits, and_F0FF, hf, hkk]
    · simpa [encode, usedBits, and_FFFF, hf, hkk, hx] using wordXKK_fields op

end

/-- The bytes of an instruction decode to it, whatever follows them (R61, R107). -/
theorem decodeBytes_encodeBytes (i : Instr) (rest : List Byte) : decodeBytes (encodeBytes i ++ rest) = .ok (i, rest) := by
  simp [encodeBytes, decodeBytes, wordOfBytes_highByte_lowByte, decode, decodeUnder_encode]

/-! ## The illegal words (R102) -/

section
variable {op : Opcode}

theorem decode0_error_iff : (∃ r, decode0 false op = .error r) ↔ fieldKK op ∉ [0xE0#8, 0xEE#8] := by
  unfold decode0
  split <;> simp_all [zeroNibble]

/-- The nibbles that are no subcode of family 0x8 (R97). -/
theorem not_family8_subcode_iff (n : BitVec 4) :
    n ∉ [0x0#4, 0x1#4, 0x2#4, 0x3#4, 0x4#4, 0x5#4, 0x6#4, 0x7#4, 0xE#4] ↔
      n ∈ [0x8#4, 0x9#4, 0xA#4, 0xB#4, 0xC#4, 0xD#4, 0xF#4] := by
  revert n
  decide

theorem decode8_error_iff :
    (∃ r, decode8 op = .error r) ↔ fieldN op ∈ [0x8#4, 0x9#4, 0xA#4, 0xB#4, 0xC#4, 0xD#4, 0xF#4] := by
  rw [← not_family8_subcode_iff]
  unfold decode8
  split <;> simp_all

theorem decodeE_error_iff : (∃ r, decodeE op = .error r) ↔ fieldKK op ∉ [0x9E#8, 0xA1#8] := by
  unfold decodeE
  split <;> simp_all

theorem decodeF_error_iff : (∃ r, decodeF op = .error r) ↔
    fieldKK op ∉ [0x07#8, 0x0A#8, 0x15#8, 0x18#8, 0x1E#8, 0x29#8, 0x33#8, 0x55#8, 0x65#8] := by
  unfold decodeF
  split <;> simp_all

/-- Only families 0x0, 0x8, 0xE and 0xF hold words that the default decoder rejects. -/
theorem decodeUnder_false_error_iff : (∃ r, decodeUnder false op = .error r) ↔
    (family op = 0x0#4 ∧ ∃ r, decode0 false op = .error r) ∨ (family op = 0x8#4 ∧ ∃ r, decode8 op = .error r) ∨
    (family op = 0xE#4 ∧ ∃ r, decodeE op = .error r) ∨ (family op = 0xF#4 ∧ ∃ r, decodeF op = .error r) := by
  unfold decodeUnder
  split
  case h_16 =>
    have hf : family op = 0xF#4 := nibble_eq_F ‹_› ‹_› ‹_› ‹_› ‹_› ‹_› ‹_› ‹_› ‹_› ‹_› ‹_› ‹_› ‹_› ‹_› ‹_›
    simp [hf]
  all_goals simp [zeroNibble, *]

end

/-- The step that fetches an illegal word halts with DecodeFailure (R102, R300). -/
theorem Machine.step_of_decode_error {s : Machine.State} {op : Opcode} {r : DecodeReject} (hgate : s.gated = false)
    (hwait : s.waiting = false) (hfetch : s.fetch Config.hardware = .ok op) (hdec : decode op = .error r) :
    Machine.step s = .next (s.raise .decodeFailure) := by
  obtain ⟨hg, -⟩ | ⟨-, hw, -⟩ | ⟨-, -, ⟨e, he, -⟩ | ⟨-, -, -, -, hs⟩ | ⟨op', i, hf, hd, -⟩⟩ :=
    Machine.step_cases s
  · simp [hgate] at hg
  · simp [hwait] at hw
  · simp [hfetch] at he
  · exact hs
  · cases hfetch.symm.trans hf
    cases hdec.symm.trans hd

/-! ## The statements -/

/-- Settles O1: the word of an instruction lies in the instruction's row, and its fields are the operands. -/
theorem decodeOfEncodeIsIdentity : Obligations.DecodeOfEncodeIsIdentity := decodeUnder_encode

/-- Settles O2: the decoder is the opcode map, and two rows that one word matches are both the row of what it decodes to. -/
theorem wordsMatchExactlyTheRowTheyDecodeTo : Obligations.WordsMatchExactlyTheRowTheyDecodeTo := by
  intro strict op
  have hdec : ∀ r, r ∈ opcodeTable → r.hits strict op = true → ∃ i, decodeUnder strict op = .ok i ∧ rowOf i = r := by
    intro r hr hhit
    obtain ⟨i, -, rfl⟩ := List.mem_map.mp hr
    exact ⟨_, decodeUnder_of_hits hhit, rowOf_withOperandsOf op i⟩
  refine ⟨fun i h => (hits_of_decodeUnder h).1, hdec, fun r r' hr hr' hhit hhit' => ?_⟩
  obtain ⟨i, hi, rfl⟩ := hdec r hr hhit
  obtain ⟨i', hi', rfl⟩ := hdec r' hr' hhit'
  rw [Except.ok.inj (hi.symm.trans hi')]

/-- Settles O3: `encode i` is the word with its unused nibble cleared, and each mask keeps only bits in use. -/
theorem encodeOfDecodeKeepsOperandsAndPattern : Obligations.EncodeOfDecodeKeepsOperandsAndPattern := by
  intro strict op i h
  have henc := encode_of_decodeUnder h
  refine ⟨decodeUnder_encode strict i, fun hi => ?_, fun hi => ?_, fun x y hi => ?_, fun x hi => ?_, fun hs hshr hshl => ?_⟩
  · rw [henc, usedBits_of_not_ignoresNibble hi, and_FFFF]
  · rw [henc, BitVec.and_assoc]
    rcases hi with rfl | rfl <;> cases strict <;> simp [usedBits]
  · rw [henc, BitVec.and_assoc]
    rcases hi with rfl | rfl <;> cases strict <;> simp [usedBits]
  · rw [henc, BitVec.and_assoc]
    rcases hi with rfl | rfl <;> simp [usedBits]
  · subst hs
    rw [henc, usedBits_strict hshr hshl, and_FFFF]

/-- Settles O4: each family's words that its decoder rejects, and the step that fetches a rejected word. -/
theorem illegalWordsHaltWithDecodeFailure : Obligations.IllegalWordsHaltWithDecodeFailure := by
  refine ⟨fun op => ?_, fun s op r => Machine.step_of_decode_error⟩
  rw [← decode0_error_iff, ← decode8_error_iff, ← decodeE_error_iff, ← decodeF_error_iff]
  exact decodeUnder_false_error_iff

/-- Settles O5: each pair is the bytes of its instruction. -/
theorem writtenOutWordsDecode : Obligations.WrittenOutWordsDecode :=
  ⟨decodeBytes_encodeBytes (.jmp 0x204#12) [], decodeBytes_encodeBytes (.add 0#4 1#4) [],
    decodeBytes_encodeBytes (.drw 1#4 2#4 5#4) [], decodeBytes_encodeBytes (.lr 2#4) [],
    decodeBytes_encodeBytes (.shr 3#4) [], decodeBytes_encodeBytes .cls [], decodeBytes_encodeBytes (.skp 1#4) []⟩

end Sys2Proof

/-! The statements of 40_engine.md: the gate, the instruction a step runs, the key re-check, the precise halt, and runs of the
host's transactions. -/

namespace Sys2Proof.Machine

/-! ## Runs of transactions (R131) -/

section
variable {s : State}

/-- A load keeps the invariant: too long an image only halts, an accepted one starts from reset, its bytes in canonical form
(R352; log entry 7). -/
theorem inv_load (hs : s.Inv) (image : List Byte) : (s.load Config.hardware image).Inv := by
  by_cases hlen : image.length ≤ 3584
  · rw [load_success _ _ hlen]
    obtain ⟨-, hsp, herr, -⟩ := resetSatisfiesInvariant
    exact ⟨Memory.wf_writeList _ _ _ _ (Memory.wf_nil _), hsp, herr, nofun⟩
  · rw [load_tooLarge _ _ (Nat.lt_of_not_le hlen)]
    exact inv_raise hs nofun

/-- The invariant does not mention PAUSED, which is all that pause can change (R316). -/
theorem inv_pause (hs : s.Inv) : s.pause.Inv := by
  unfold State.pause
  split <;> exact hs

/-- The invariant does not mention PAUSED, which is all that resume can change (R316). -/
theorem inv_resume (hs : s.Inv) : s.resume.Inv := by
  unfold State.resume
  split <;> exact hs

/-- From a state that meets the invariant every transaction answers a state that meets it; only step could stop (R320). -/
theorem applyTransaction_inv (hs : s.Inv) (tr : Transaction) : ∃ t, applyTransaction s tr = .next t ∧ t.Inv := by
  cases tr with
  | load image => exact ⟨_, rfl, inv_load hs image⟩
  | reset => exact ⟨_, rfl, resetSatisfiesInvariant⟩
  | step =>
    obtain ⟨t, ht⟩ := invariantStatesNeverStop s hs
    exact ⟨t, ht, stepKeepsInvariant s t hs ht⟩
  | pause => exact ⟨_, rfl, inv_pause hs⟩
  | resume => exact ⟨_, rfl, inv_resume hs⟩
  | advanceTimers | setKeys snapshot | framebuffer | soundActive | status => exact ⟨_, rfl, hs⟩

/-- A run whose first transaction answers `t` goes on from `t` (R131). -/
theorem runTransactions_cons {t : State} {tr : Transaction} (h : applyTransaction s tr = .next t) (ts : List Transaction) :
    runTransactions s (tr :: ts) = runTransactions t ts := by
  rw [runTransactions, h]

end

/-- Settles O58, by induction on the transactions, for every start state at once. -/
theorem everyTransactionRunKeepsInvariant : Obligations.EveryTransactionRunKeepsInvariant := by
  intro s ts hs
  induction ts generalizing s with
  | nil => exact ⟨s, rfl, hs⟩
  | cons tr ts ih =>
    obtain ⟨t, ht, hinv⟩ := applyTransaction_inv hs tr
    rw [runTransactions_cons ht]
    exact ih t hinv

/-! ## The effect of the key re-check (R122) -/

/-- The key re-check with no key pressed stages nothing and stays at PC (R122). -/
theorem keyRecheckEffect_of_lowestKey_none {s : State} (h : s.lowestKey = none) :
    keyRecheckEffect s = .done [] s.pc.toNat := by
  simp [keyRecheckEffect, h]

/-- The key re-check with `k` the lowest pressed key takes it and ends the wait (R122). -/
theorem keyRecheckEffect_of_lowestKey_some {s : State} {k : RegIdx} (h : s.lowestKey = some k) :
    keyRecheckEffect s = .done [.v s.waitX (k.setWidth 8), .waiting false] s.nextPc := by
  simp [keyRecheckEffect, h]

/-- The key re-check has no error of its own; only its next PC can be out of range (R122). -/
theorem keyRecheckEffect_ne_raise (s : State) (e : Err) : keyRecheckEffect s ≠ .raise e := by
  cases hk : s.lowestKey with
  | none => simp [keyRecheckEffect_of_lowestKey_none hk]
  | some k => simp [keyRecheckEffect_of_lowestKey_some hk]

/-! ## The precise halt (R126, R302) -/

/-- The end of a step halts a running machine by an error alone, and then discards the staged writes (R126). -/
theorem raise_of_complete_halted {c : Config} {s t : State} {e : Effect} (hrun : s.halted = false)
    (he : ∀ err, e = .raise err → err ≠ .none) (h : complete c s e = .next t) (hhalt : t.halted = true) :
    ∃ err, err ≠ Err.none ∧ t = s.raise err := by
  rcases complete_next h with ⟨err, ht, hraise | ⟨rfl, -⟩⟩ | ⟨ws, npc, -, -, rfl⟩
  · exact ⟨err, he err hraise, ht⟩
  · exact ⟨.addressOutOfRange, nofun, ht⟩
  · simp [hrun] at hhalt

/-- Settles O10: each of the things a step can be halts a running machine by a named error only. -/
theorem haltingStepCommitsNothing : Obligations.HaltingStepCommitsNothing := by
  intro s t hrun h hhalt
  rcases step_cases s with ⟨-, he⟩ | ⟨-, -, he⟩ | ⟨-, -, ⟨e, hf, he⟩ | ⟨op, r, -, -, he⟩ | ⟨op, i, -, -, he⟩⟩ <;>
    rw [he] at h
  · cases h
    simp [hrun] at hhalt
  · exact raise_of_complete_halted hrun (fun err hraise => absurd hraise (keyRecheckEffect_ne_raise s err)) h hhalt
  · cases h
    exact ⟨e, by simp [fetch_error hf], rfl⟩
  · cases h
    exact ⟨.decodeFailure, nofun, rfl⟩
  · rw [exec_eq_complete] at h
    exact raise_of_complete_halted hrun (fun _ => raise_ne_none) h hhalt

/-! ## The gate and the instruction a step runs (R120, R121) -/

/-- Settles O6: each of the three conditions closes the gate. -/
theorem gatedStepChangesNothing : Obligations.GatedStepChangesNothing := by
  intro s h
  refine step_of_gated ?_
  rcases h with h | h | h <;> simp [State.gated, h]

/-- Settles O7: past the gate, and with no wait, the fetch and the decode leave one case of a step. -/
theorem stepRunsDecodedInstruction : Obligations.StepRunsDecodedInstruction := by
  intro s op i hhalted hpaused hloaded hwaiting hfetch hdecode _
  have hgate := (gated_eq_false s).mpr ⟨hhalted, hpaused, hloaded⟩
  rcases step_cases s with ⟨hg, -⟩ | ⟨-, hw, -⟩ | ⟨-, -, ⟨e, hf, -⟩ | ⟨op', r, hf, hd, -⟩ | ⟨op', i', hf, hd, he⟩⟩
  · simp [hgate] at hg
  · simp [hwaiting] at hw
  · cases hfetch.symm.trans hf
  · cases hfetch.symm.trans hf
    cases hdecode.symm.trans hd
  · cases hfetch.symm.trans hf
    cases hdecode.symm.trans hd
    exact he

/-! ## The key re-check (R122) -/

/-- A step taken while WAITING is the key re-check, whatever stands at PC (R122). -/
theorem step_of_waiting {s : State} (hgate : s.gated = false) (hwaiting : s.waiting = true) :
    step s = complete Config.hardware s (keyRecheckEffect s) := by
  simp [step, stepWith, hgate, hwaiting]

/-- A key number, widened to a byte, is itself. -/
theorem toNat_keyByte (k : RegIdx) : (k.setWidth 8).toNat = k.toNat := by
  rw [BitVec.toNat_setWidth]
  omega

/-- Settles O8: the lowest pressed key decides the effect, and PC + 2 decides whether it is committed. -/
theorem keyRecheckTakesTheLowestPressedKey : Obligations.KeyRecheckTakesTheLowestPressedKey := by
  intro s hhalted hpaused hloaded hwaiting
  rw [step_of_waiting ((gated_eq_false s).mpr ⟨hhalted, hpaused, hloaded⟩) hwaiting]
  refine ⟨fun hnone => ?_, fun k0 hdown hlow => ?_⟩
  · rw [keyRecheckEffect_of_lowestKey_none ((lowestKey_eq_none s).mpr hnone), complete_done (by omega)]
    simp
  · rw [keyRecheckEffect_of_lowestKey_some ((lowestKey_eq_some s k0).mpr ⟨hdown, hlow⟩)]
    refine ⟨fun hpc => ?_, fun hpc => complete_pastEnd hpc⟩
    refine ⟨_, complete_done hpc, ?_, fun z hz => ?_, toNat_ofNat_pc hpc, rfl⟩
    · calc _ = (k0.setWidth 8).toNat := congrArg BitVec.toNat (State.getV_setV_same s s.waitX _)
        _ = k0.toNat := toNat_keyByte k0
    · rw [State.getV_pc]
      exact commit_getV (by simp [hz])

end Sys2Proof.Machine

/-! The statements of 41_display.md: CLS, the pixels and the flag of DRW, and the laws of drawing. -/

namespace Sys2Proof.Machine

/-! ## CLS (R150) -/

/-- CLS completed: the screen is clear and PC advances (R150). -/
theorem exec_cls {s : State} (hpc : s.pc.toNat + 2 ≤ 0xFFF) :
    exec .cls s = .next { s.clearScreen with pc := BitVec.ofNat 12 s.nextPc } :=
  complete_done (ws := [.clear]) hpc

/-- Under STRICT_DECODE one word decodes to CLS (R101, R150). -/
theorem decodeUnder_strict_cls_iff (op : Opcode) : decodeUnder true op = .ok .cls ↔ op = 0x00E0#16 := by
  rw [decodeUnder_eq_ok_iff, hits_iff]
  simp [rowOf, OpcodeRow.maskUnder, and_FFFF]

/-- Settles O13: the two decoders by the row of CLS, the two steps by PC + 2. -/
theorem clsTurnsEveryPixelOff : Obligations.ClsTurnsEveryPixelOff := by
  refine ⟨fun op hop => ?_, decodeUnder_strict_cls_iff, fun s => ⟨fun hpc => ?_, fun hpc => ?_⟩⟩
  · exact decodeUnder_of_hits (i := .cls) ((hits_iff _ _ _).mpr hop)
  · exact ⟨_, exec_cls hpc, State.pixel_clearScreen s, toNat_ofNat_pc hpc, rfl⟩
  · exact complete_pastEnd hpc

/-! ## DRW (R151, R152) -/

/-- Every word Dxyn decodes to DRW, by default and under STRICT_DECODE. -/
theorem decodeUnder_drw (strict : Bool) {op : Opcode} (h : op &&& 0xF000#16 = 0xD000#16) :
    decodeUnder strict op = .ok (.drw (fieldX op) (fieldY op) (fieldN op)) :=
  decodeUnder_of_hits (i := .drw 0#4 0#4 0#4) ((hits_iff _ _ _).mpr (by cases strict <;> exact h))

/-- The positions of the 1 bits of the sprite at MEM[I], drawn at column Vx and row Vy; `mem_spritePositions` ties them to
`spriteCovers`. -/
def State.spritePositions (s : State) (x y : RegIdx) (n : BitVec 4) : List (Fin 64 × Fin 32) :=
  spritePixels (s.getV x) (s.getV y) 0 (s.bytesAt Config.hardware s.i.toNat n.toNat)

/-- The next state of a DRW that completes (`exec_drw_eq`). -/
def State.drawn (s : State) (x y : RegIdx) (n : BitVec 4) : State :=
  { (commit Config.hardware s (s.xorWrites (s.spritePositions x y n))).setV vf (s.collisionFlag (s.spritePositions x y n)) with
    pc := BitVec.ofNat 12 s.nextPc }

section
variable {s t u : State} {x y x' y' : RegIdx} {n : BitVec 4} {px : Fin 64} {py : Fin 32}

theorem mem_spritePositions : (px, py) ∈ s.spritePositions x y n ↔ spriteCovers s x y n px py :=
  (spriteCovers_iff s x y n px py).symm

/-- Some position of the sprite is on exactly if some covered pixel is. -/
theorem exists_spritePosition_on_iff : (∃ p ∈ s.spritePositions x y n, s.pixel p.1 p.2 = true) ↔
    ∃ px py, spriteCovers s x y n px py ∧ s.pixel px py = true := by
  simp only [Prod.exists, mem_spritePositions]

/-- DRW stages its flips and its flag if every row's address exists, else it raises AddressOutOfRange (R66, R151). -/
theorem drwEffect_eq (x y : RegIdx) (n : BitVec 4) (s : State) :
    drwEffect Config.hardware x y n s = if n.toNat = 0 ∨ s.i.toNat + n.toNat ≤ 4096 then
        .done (s.xorWrites (s.spritePositions x y n) ++ [.v vf (s.collisionFlag (s.spritePositions x y n))]) s.nextPc
      else .raise .addressOutOfRange := by
  rw [drwEffect, loadBytes_eq]
  by_cases hi : n.toNat = 0 ∨ s.i.toNat + n.toNat ≤ 4096
  · rw [if_pos hi, if_pos hi]; rfl
  · rw [if_neg hi, if_neg hi]

/-- The meaning of DRW, by its two range checks: that of the sprite's rows first, that of the next PC second (R125, R151). -/
theorem exec_drw_eq (x y : RegIdx) (n : BitVec 4) (s : State) :
    exec (.drw x y n) s = if (n.toNat = 0 ∨ s.i.toNat + n.toNat ≤ 4096) ∧ s.pc.toNat + 2 ≤ 0xFFF then .next (s.drawn x y n)
      else .next (s.raise .addressOutOfRange) := by
  rw [exec_eq_complete, effectUnder, drwEffect_eq, nextPc_eq]
  by_cases hi : n.toNat = 0 ∨ s.i.toNat + n.toNat ≤ 4096
  · by_cases hpc : s.pc.toNat + 2 ≤ 0xFFF
    · rw [if_pos hi, if_pos ⟨hi, hpc⟩, complete_done hpc, commit_append]; rfl
    · rw [if_pos hi, if_neg (fun h => hpc h.2), complete_pastEnd (Nat.lt_of_not_le hpc)]
  · rw [if_neg hi, if_neg (fun h => hi h.1), complete_raise]

/-- A DRW that leaves the machine running completed (R126, R302). -/
theorem eq_drawn_of_running (h : exec (.drw x y n) s = .next t) (ht : t.halted = false) : t = s.drawn x y n := by
  rw [exec_drw_eq] at h
  split at h <;> cases h
  · rfl
  · cases ht

/-- DRW flips the covered pixels and keeps the others (R151). -/
theorem pixel_drawn (s : State) (x y : RegIdx) (n : BitVec 4) (px : Fin 64) (py : Fin 32) :
    (s.drawn x y n).pixel px py = if (px, py) ∈ s.spritePositions x y n then !s.pixel px py else s.pixel px py := by
  simp only [State.drawn, State.pixel_pc, State.pixel_setV, pixel_commit_xorWrites]

theorem pixel_drawn_of_covers (h : spriteCovers s x y n px py) : (s.drawn x y n).pixel px py = !s.pixel px py := by
  rw [pixel_drawn, if_pos (mem_spritePositions.mpr h)]

theorem pixel_drawn_of_not_covers (h : ¬ spriteCovers s x y n px py) : (s.drawn x y n).pixel px py = s.pixel px py := by
  rw [pixel_drawn, if_neg (mt mem_spritePositions.mp h)]

theorem getV_vf_drawn (s : State) (x y : RegIdx) (n : BitVec 4) :
    (s.drawn x y n).getV vf = s.collisionFlag (s.spritePositions x y n) :=
  State.getV_setV_same ..

/-- DRW sets VF = 1 exactly if a covered pixel was on (R151). -/
theorem getV_vf_drawn_eq_one_iff :
    (s.drawn x y n).getV vf = 1#8 ↔ ∃ px py, spriteCovers s x y n px py ∧ s.pixel px py = true := by
  rw [getV_vf_drawn, collisionFlag_eq_one, exists_spritePosition_on_iff]

/-- DRW sets VF = 0 exactly if no covered pixel was on (R151). -/
theorem getV_vf_drawn_eq_zero_iff :
    (s.drawn x y n).getV vf = 0#8 ↔ ¬ ∃ px py, spriteCovers s x y n px py ∧ s.pixel px py = true := by
  rw [getV_vf_drawn, collisionFlag_eq_zero, exists_spritePosition_on_iff]

/-- DRW changes no register but VF (R22, R23). -/
theorem getV_drawn {z : RegIdx} (hz : z ≠ vf) : (s.drawn x y n).getV z = s.getV z := by
  rw [State.drawn, State.getV_pc, State.getV_setV, if_neg hz, commit_xorWrites]
  rfl

/-- DRW changes V, FB and PC and nothing else (R23, R151). -/
theorem drawn_frame (s : State) (x y : RegIdx) (n : BitVec 4) :
    s.drawn x y n = { s with v := (s.drawn x y n).v, fb := (s.drawn x y n).fb, pc := (s.drawn x y n).pc } := by
  rw [State.drawn, commit_xorWrites]
  rfl

end

/-- Settles O14: `exec_drw_eq` decides between the drawn state and the error. -/
theorem drwFlipsCoveredPixels : Obligations.DrwFlipsCoveredPixels := by
  refine ⟨fun strict op => decodeUnder_drw strict, fun x y n s => ?_⟩
  rw [exec_drw_eq]
  refine ⟨fun hi hpc => ⟨s.drawn x y n, if_pos ⟨hi, hpc⟩, fun _ _ => pixel_drawn_of_covers,
    fun _ _ => pixel_drawn_of_not_covers, getV_vf_drawn_eq_one_iff.mpr, getV_vf_drawn_eq_zero_iff.mpr, fun _ => getV_drawn,
    toNat_ofNat_pc hpc, drawn_frame s x y n⟩, fun _ hpc => if_neg (by omega), fun hn hi => if_neg (by omega)⟩

/-! ## The laws of drawing (R153) -/

/-- Fewer than 64 columns and fewer than 32 rows do not wrap onto themselves: two pairs of one sprite fall on two pixels. -/
theorem spritePosition_ne {xs ys r c r' c' : Nat} (hr : r < 15) (hr' : r' < 15) (hc : c < 8) (hc' : c' < 8)
    (h : r ≠ r' ∨ c ≠ c') : ((xs + c) % 64, (ys + r) % 32) ≠ ((xs + c') % 64, (ys + r') % 32) := by
  rw [Ne, Prod.mk.injEq]
  omega

section
variable {s u : State} {x y x' y' : RegIdx} {n : BitVec 4} {px : Fin 64} {py : Fin 32}

/-- A sprite's coverage depends on memory, I, Vx and Vy alone, not on the framebuffer (R151). -/
theorem spriteCovers_congr (hmem : u.mem = s.mem) (hi : u.i = s.i) (hx : u.getV x' = s.getV x) (hy : u.getV y' = s.getV y) :
    spriteCovers u x' y' n px py ↔ spriteCovers s x y n px py := by
  simp only [spriteCovers, State.readByte_of_mem_eq hmem, hi, hx, hy]

/-- Before the second of two draws of one sprite, a covered pixel is the opposite of what it was before the first. -/
theorem pixel_of_covers_drawn (hfb : u.fb = (s.drawn x y n).fb) (h : spriteCovers s x y n px py) :
    u.pixel px py = !s.pixel px py :=
  (State.pixel_of_fb_eq hfb px py).trans (pixel_drawn_of_covers h)

section
variable (hfb : u.fb = (s.drawn x y n).fb) (hcov : ∀ px py, spriteCovers u x' y' n px py ↔ spriteCovers s x y n px py)
include hfb hcov

/-- A second draw of the same sprite undoes the first: a covered pixel is flipped twice, any other never (R153). -/
theorem pixel_drawn_twice (px : Fin 64) (py : Fin 32) : (u.drawn x' y' n).pixel px py = s.pixel px py := by
  by_cases h : spriteCovers s x y n px py
  · rw [pixel_drawn_of_covers ((hcov px py).mpr h), pixel_of_covers_drawn hfb h, Bool.not_not]
  · rw [pixel_drawn_of_not_covers (mt (hcov px py).mp h), State.pixel_of_fb_eq hfb, pixel_drawn_of_not_covers h]

/-- The second draw of a sprite finds a covered pixel on exactly if one was off before the first (R153). -/
theorem collision_of_drawn_twice : (∃ px py, spriteCovers u x' y' n px py ∧ u.pixel px py = true) ↔
    ∃ px py, spriteCovers s x y n px py ∧ s.pixel px py = false := by
  refine exists_congr fun px => exists_congr fun py => ?_
  rw [hcov]
  refine and_congr_right fun h => ?_
  rw [pixel_of_covers_drawn hfb h, Bool.not_eq_true']

end

end

/-- Settles O15: the second draw sees every covered pixel flipped, so it restores the screen and meets what was off. -/
theorem drawingTwiceRestoresTheScreen : Obligations.DrawingTwiceRestoresTheScreen := by
  refine ⟨fun xs ys r c r' c' hr hr' hc hc' => spritePosition_ne hr hr' hc hc', ?_, ?_⟩
  · intro x y x' y' n s t u w _ ht htrun _ hw hwrun hfb hmem hi hx hy
    obtain rfl := eq_drawn_of_running ht htrun
    obtain rfl := eq_drawn_of_running hw hwrun
    have hcov : ∀ px py, spriteCovers u x' y' n px py ↔ spriteCovers s x y n px py :=
      fun _ _ => spriteCovers_congr hmem hi hx hy
    rw [getV_vf_drawn_eq_one_iff, getV_vf_drawn_eq_zero_iff, collision_of_drawn_twice hfb hcov]
    exact ⟨pixel_drawn_twice hfb hcov, id, id⟩
  · intro x y n s t _ hclear ht htrun
    obtain rfl := eq_drawn_of_running ht htrun
    rw [getV_vf_drawn_eq_zero_iff]
    rintro ⟨px, py, -, hon⟩
    simp [hclear] at hon

end Sys2Proof.Machine

/-! The statements of 42_control_flow.md: the jumps, the call stack, and the skips that compare registers. -/

namespace Sys2Proof.Machine

/-! ## Decoding (R95, R101) -/

/-- A word matching a row that STRICT_DECODE does not narrow decodes to that row's instruction under both settings (R95, R101). -/
theorem decodeUnder_of_masked {i : Instr} {strict : Bool} {op : Opcode} (hmask : (rowOf i).strictMask = (rowOf i).mask)
    (h : op &&& (rowOf i).mask = (rowOf i).pattern) : decodeUnder strict op = .ok (i.withOperandsOf op) :=
  decodeUnder_of_hits ((hits_iff _ _ _).mpr (by rw [OpcodeRow.maskUnder, hmask, ite_self, h]))

/-- Under STRICT_DECODE one word decodes to RET (R101, R171). -/
theorem decodeUnder_strict_ret_iff (op : Opcode) : decodeUnder true op = .ok .ret ↔ op = 0x00EE#16 := by
  rw [decodeUnder_eq_ok_iff, hits_iff]
  simp [rowOf, OpcodeRow.maskUnder, and_FFFF]

/-- Family 0x5 is SRER, whose last nibble STRICT_DECODE requires to be 0 (R100, R101). -/
theorem decodeUnder_family5 {strict : Bool} {op : Opcode} (h : family op = 0x5#4) :
    decodeUnder strict op = zeroNibble strict (fieldN op) (.srer (fieldX op) (fieldY op)) := by simp [decodeUnder, h]

/-- Family 0x9 is SNE, whose last nibble STRICT_DECODE requires to be 0 (R100, R101). -/
theorem decodeUnder_family9 {strict : Bool} {op : Opcode} (h : family op = 0x9#4) :
    decodeUnder strict op = zeroNibble strict (fieldN op) (.sne (fieldX op) (fieldY op)) := by simp [decodeUnder, h]

/-- STRICT_DECODE refuses the instruction exactly at a nibble that is not 0, and the default never does (R101). -/
theorem zeroNibble_spec (k : BitVec 4) (i : Instr) :
    zeroNibble false k i = .ok i ∧ (k = 0#4 → zeroNibble true k i = .ok i) ∧
    (k ≠ 0#4 → ∃ r, zeroNibble true k i = .error r) := by
  refine ⟨rfl, fun hk => zeroNibble_eq_ok (fun _ => hk) i, fun hk => ?_⟩
  simp [zeroNibble, hk]

/-! ## An instruction that stages nothing but its next PC (R124, R125) -/

/-- The instruction completes at `npc` and changes nothing but PC. -/
def onlyMovesPc (i : Instr) (s : State) (npc : Nat) : Prop :=
  ∃ t, exec i s = .next t ∧ t.pc.toNat = npc ∧ t = { s with pc := t.pc }

section
variable {i : Instr} {s : State} {npc : Nat}

theorem onlyMovesPc_of_effect (heff : effectUnder Config.hardware i s = .done [] npc) (hpc : npc ≤ 0xFFF) :
    onlyMovesPc i s npc := by
  refine ⟨{ s with pc := BitVec.ofNat 12 npc }, ?_, toNat_ofNat_pc hpc, rfl⟩
  rw [exec_eq_complete, heff, complete_done hpc, commit_nil]

theorem exec_pastEnd {ws : List Write} (heff : effectUnder Config.hardware i s = .done ws npc) (hpc : 0xFFF < npc) :
    exec i s = .next (s.raise .addressOutOfRange) := by
  rw [exec_eq_complete, heff, complete_pastEnd hpc]

/-- A skip on the condition `p`, where `q` says that `p` fails: PC + 4 or PC + 2, each checked at full width (R124, R125). -/
theorem exec_skip {p q : Prop} [Decidable p] (hq : q → ¬ p)
    (heff : effectUnder Config.hardware i s = .done [] (s.skipPc (decide p))) :
    (p → s.pc.toNat + 4 ≤ 0xFFF → onlyMovesPc i s (s.pc.toNat + 4)) ∧
    (p → 0xFFF < s.pc.toNat + 4 → exec i s = .next (s.raise .addressOutOfRange)) ∧
    (q → s.pc.toNat + 2 ≤ 0xFFF → onlyMovesPc i s (s.pc.toNat + 2)) ∧
    (q → 0xFFF < s.pc.toNat + 2 → exec i s = .next (s.raise .addressOutOfRange)) := by
  have htaken (hp : p) : effectUnder Config.hardware i s = .done [] (s.pc.toNat + 4) := by
    rw [heff, decide_eq_true hp, skipPc_true]
  have hnot (h : q) : effectUnder Config.hardware i s = .done [] (s.pc.toNat + 2) := by
    rw [heff, decide_eq_false (hq h), skipPc_false]
  exact ⟨fun hp => onlyMovesPc_of_effect (htaken hp), fun hp => exec_pastEnd (htaken hp),
    fun h => onlyMovesPc_of_effect (hnot h), fun h => exec_pastEnd (hnot h)⟩

end

/-! ## The call stack (R171, R173) -/

section
variable {s : State} {a nnn : Addr}

/-- CALL below SP = 16 pushes its own address and jumps, whatever its PC (R173). -/
theorem exec_call (hsp : s.sp.toNat < 16) :
    exec (.call nnn) s = .next { s.setStack s.sp.toNat s.pc with sp := s.sp + 1#5, pc := nnn } := by
  have hne : s.sp ≠ 16#5 := fun h => by simp [h] at hsp
  obtain ⟨b, hb⟩ : ∃ b, s.stackAt s.sp.toNat = some b := by
    rw [← Option.isSome_iff_exists, State.stackAt_isSome, decide_eq_true hsp]
  have heff : effectUnder Config.hardware (.call nnn) s = .done [.stack s.sp.toNat s.pc, .sp (s.sp + 1#5)] nnn.toNat := by
    simp [effectUnder, callEffect, hne, hb]
  rw [exec_eq_complete, heff, complete_done (by omega), BitVec.ofNat_toNat, BitVec.setWidth_eq]
  rfl

/-- CALL at SP = 16 raises StackOverflow (R173). -/
theorem exec_call_full (hsp : s.sp = 16#5) : exec (.call nnn) s = .next (s.raise .stackOverflow) := by
  simp [exec_eq_complete, effectUnder, callEffect, hsp]

/-- RET at SP = 0 raises StackUnderflow (R171). -/
theorem exec_ret_empty (hsp : s.sp = 0#5) : exec .ret s = .next (s.raise .stackUnderflow) := by
  simp [exec_eq_complete, effectUnder, retEffect, hsp]

/-- RET above SP = 0 stages the pop and goes to its top entry + 2 (R171). -/
theorem retEffect_of_entry (hsp : 0 < s.sp.toNat) (ha : s.stackAt (s.sp.toNat - 1) = some a) :
    effectUnder Config.hardware .ret s = .done [.sp (s.sp - 1#5)] (a.toNat + 2) := by
  have hne : s.sp ≠ 0#5 := fun h => by simp [h] at hsp
  simp [effectUnder, retEffect, hne, ha]

/-- RET pops its top entry and resumes 2 past it, if that is an address (R171). -/
theorem exec_ret (hsp : 0 < s.sp.toNat) (ha : s.stackAt (s.sp.toNat - 1) = some a) (hpc : a.toNat + 2 ≤ 0xFFF) :
    exec .ret s = .next { s with sp := s.sp - 1#5, pc := BitVec.ofNat 12 (a.toNat + 2) } := by
  rw [exec_eq_complete, retEffect_of_entry hsp ha, complete_done hpc]
  rfl

/-- A push below 16 does not wrap SP (R29). -/
theorem toNat_sp_push (hsp : s.sp.toNat < 16) : (s.sp + 1#5).toNat = s.sp.toNat + 1 := by bv_omega

/-- A pop above 0 does not wrap SP (R29). -/
theorem toNat_sp_pop (hsp : 0 < s.sp.toNat) : (s.sp - 1#5).toNat = s.sp.toNat - 1 := by bv_omega

end

/-- Settles O19: CALL leaves its address as the top entry at the depth SP + 1, which is the entry that RET pops. -/
theorem callThenRetReturnsAfterTheCall : Obligations.CallThenRetReturnsAfterTheCall := by
  intro nnn s t u _ hsp hpc hcall husp hentry
  rw [exec_call hsp] at hcall
  cases hcall
  replace husp : u.sp = s.sp + 1#5 := husp
  have hdepth : u.sp.toNat = s.sp.toNat + 1 := by rw [husp, toNat_sp_push hsp]
  have htop : u.stackAt (u.sp.toNat - 1) = some s.pc := by
    rw [hdepth, Nat.add_sub_cancel, hentry]
    exact (State.stackAt_setStack ..).trans (if_pos ⟨rfl, hsp⟩)
  refine ⟨_, exec_ret (by omega) htop hpc, toNat_ofNat_pc hpc, ?_⟩
  calc u.sp - 1#5 = s.sp + 1#5 - 1#5 := by rw [husp]
    _ = s.sp := BitVec.add_sub_cancel ..

/-- Settles O16: the two decoders by the row of RET, the step by SP and the range of the top entry + 2. -/
theorem retResumesAfterTheCall : Obligations.RetResumesAfterTheCall := by
  refine ⟨fun op hop => decodeUnder_of_hits (i := .ret) ((hits_iff _ _ _).mpr hop), decodeUnder_strict_ret_iff,
    fun s => ⟨exec_ret_empty, fun a hsp ha => ⟨fun hpc => ?_, exec_pastEnd (retEffect_of_entry hsp ha)⟩⟩⟩
  exact ⟨_, exec_ret hsp ha hpc, toNat_ofNat_pc hpc, toNat_sp_pop hsp, rfl⟩

/-- Settles O18: the pushed state of `exec_call` below SP = 16, the error at 16. -/
theorem callPushesItsOwnAddress : Obligations.CallPushesItsOwnAddress := by
  refine ⟨fun strict op => decodeUnder_of_masked (i := .call 0#12) rfl,
    fun nnn s => ⟨fun hsp => ⟨_, exec_call hsp, ?_, fun j hj => ?_, toNat_sp_push hsp, rfl, rfl⟩, exec_call_full⟩⟩
  · exact (State.stackAt_setStack ..).trans (if_pos ⟨rfl, hsp⟩)
  · exact (State.stackAt_setStack ..).trans (if_neg fun h => hj h.1)

/-! ## The jumps (R172, R178) -/

/-- Settles O17: nnn is an address, so the next-PC check passes. -/
theorem jmpSetsPc : Obligations.JmpSetsPc := by
  refine ⟨fun strict op => decodeUnder_of_masked (i := .jmp 0#12) rfl, fun nnn s => ?_⟩
  have hpc : nnn.toNat ≤ 0xFFF := by omega
  calc exec (.jmp nnn) s = .next { s with pc := BitVec.ofNat 12 nnn.toNat } := complete_done hpc
    _ = .next { s with pc := nnn } := by rw [BitVec.ofNat_toNat, BitVec.setWidth_eq]

/-- Settles O22: the sum is the next PC at full width, so the next-PC check decides. -/
theorem jpv0AddsV0WithoutWrap : Obligations.Jpv0AddsV0WithoutWrap :=
  ⟨fun _ _ => decodeUnder_of_masked (i := .jpv0 0#12) rfl,
    fun _ _ => ⟨onlyMovesPc_of_effect rfl, exec_pastEnd (ws := []) rfl⟩⟩

/-! ## The skips that compare registers (R174 to R177) -/

/-- Settles O20: SEQB skips on Vx = kk and SNEQB on its negation. -/
theorem byteSkipsCompareVxWithKk : Obligations.ByteSkipsCompareVxWithKk := by
  refine ⟨fun strict op => decodeUnder_of_masked (i := .seqb 0#4 0#8) rfl,
    fun strict op => decodeUnder_of_masked (i := .sneqb 0#4 0#8) rfl, fun x kk s => ?_⟩
  obtain ⟨heqSkips, heqTraps, hneGoesOn, hneTraps⟩ :=
    exec_skip (i := .seqb x kk) (s := s) (p := s.getV x = kk) (q := s.getV x ≠ kk) id rfl
  exact ⟨heqSkips, heqTraps, hneGoesOn, hneTraps, exec_skip (i := .sneqb x kk) not_not_intro rfl⟩

/-- Settles O21: SRER skips on Vx = Vy and SNE on its negation; their decoders differ from the default in `zeroNibble` alone. -/
theorem registerSkipsCompareVxWithVy : Obligations.RegisterSkipsCompareVxWithVy := by
  refine ⟨fun op hop => ?_, fun op hop => ?_, fun x y s => ?_⟩
  · simp only [decodeUnder_family5 ((and_F000_eq_iff rfl).mp hop)]
    exact zeroNibble_spec ..
  · simp only [decodeUnder_family9 ((and_F000_eq_iff rfl).mp hop)]
    exact zeroNibble_spec ..
  · obtain ⟨heqSkips, heqTraps, hneGoesOn, hneTraps⟩ :=
      exec_skip (i := .srer x y) (s := s) (p := s.getV x = s.getV y) (q := s.getV x ≠ s.getV y) id rfl
    exact ⟨heqSkips, heqTraps, hneGoesOn, hneTraps, exec_skip (i := .sne x y) not_not_intro rfl⟩

end Sys2Proof.Machine

/-! The statements of 43_alu.md: each instruction writes one register; five write the flag after it, and RND counts its draw. -/

namespace Sys2Proof.Machine

/-! ## An instruction that writes one register, and one that writes VF after it (R124 to R127) -/

section
variable {i : Instr} {s : State} {ws : List Write} {npc : Nat} {x : RegIdx} {b f : Byte}

/-- The counterpart of `exec_pastEnd`: an instruction whose next PC is an address commits its writes, and PC last (R125, R126). -/
theorem exec_done (heff : effectUnder Config.hardware i s = .done ws npc) (hpc : npc ≤ 0xFFF) :
    exec i s = .next { commit Config.hardware s ws with pc := BitVec.ofNat 12 npc } := by
  rw [exec_eq_complete, heff, complete_done hpc]

/-- One staged register write: that register, PC, and nothing else. -/
theorem exec_writesV (heff : effectUnder Config.hardware i s = .done [.v x b] s.nextPc) (hpc : s.pc.toNat + 2 ≤ 0xFFF) :
    ∃ t, exec i s = .next t ∧ t.getV x = b ∧ (∀ z, z ≠ x → t.getV z = s.getV z) ∧
      t.pc.toNat = s.pc.toNat + 2 ∧ t = { s with v := t.v, pc := t.pc } := by
  refine ⟨_, exec_done heff hpc, State.getV_setV_same s x b, fun z hz => ?_, toNat_ofNat_pc hpc, rfl⟩
  exact (State.getV_setV ..).trans (if_neg hz)

/-- A register write and then the flag's: of two writes to VF the flag's, the later, wins (R126). -/
theorem exec_writesV_flag (heff : effectUnder Config.hardware i s = .done [.v x b, .v vf f] s.nextPc)
    (hpc : s.pc.toNat + 2 ≤ 0xFFF) :
    ∃ t, exec i s = .next t ∧ t.getV vf = f ∧ (x ≠ vf → t.getV x = b) ∧
      (∀ z, z ≠ x → z ≠ vf → t.getV z = s.getV z) ∧
      t.pc.toNat = s.pc.toNat + 2 ∧ t = { s with v := t.v, pc := t.pc } := by
  have hread (z : RegIdx) : ((s.setV x b).setV vf f).getV z = if z = vf then f else if z = x then b else s.getV z := by
    rw [State.getV_setV, State.getV_setV]
  refine ⟨_, exec_done heff hpc, (hread vf).trans (if_pos rfl), fun hx => ?_, fun z hzx hzf => ?_,
    toNat_ofNat_pc hpc, rfl⟩
  · exact (hread x).trans (by rw [if_neg hx, if_pos rfl])
  · exact (hread z).trans (by rw [if_neg hzf, if_neg hzx])

end

/-! ## The flags and the difference as numbers -/

/-- The carry of R207. -/
theorem carryFlag_toNat (a b : Byte) : (carryFlag a b).toNat = if 255 < a.toNat + b.toNat then 1 else 0 := by
  simp [carryFlag, flagByte_toNat]

/-- The not-borrow of R208 and R210. -/
theorem notBorrowFlag_toNat (a b : Byte) : (notBorrowFlag a b).toNat = if b.toNat ≤ a.toNat then 1 else 0 := by
  simp [notBorrowFlag, flagByte_toNat]

/-- Bit 0 is the remainder that halving drops (R209). -/
theorem shiftedOutLow_toNat (a : Byte) : (shiftedOutLow a).toNat = a.toNat % 2 := by
  rw [shiftedOutLow, flagByte_toNat, BitVec.getLsbD, Nat.testBit_zero]
  simp only [decide_eq_true_eq]
  split <;> omega

/-- Bit 7 is what doubling carries past the byte (R211). -/
theorem shiftedOutHigh_toNat (a : Byte) : (shiftedOutHigh a).toNat = a.toNat / 128 := by
  have ha : a.toNat < 256 := a.isLt
  rw [shiftedOutHigh, flagByte_toNat, BitVec.getLsbD, Nat.testBit_eq_decide_div_mod_eq]
  simp only [decide_eq_true_eq]
  split <;> omega

/-- A difference is taken mod 256 (R8, R208). -/
theorem byte_sub_toNat (a b : Byte) : (a - b).toNat = (a.toNat + 256 - b.toNat) % 256 := by
  rw [BitVec.toNat_sub]
  omega

/-- A shift left by one doubles mod 256 (R211). -/
theorem byte_shl_one_toNat (a : Byte) : (a <<< 1).toNat = a.toNat * 2 % 256 := by
  rw [BitVec.toNat_shiftLeft, Nat.shiftLeft_eq, pow_one]

/-- A logical shift right by one halves (R209). -/
theorem byte_shr_one_toNat (a : Byte) : (a >>> 1).toNat = a.toNat / 2 := by
  rw [BitVec.toNat_ushiftRight, Nat.shiftRight_eq_div_pow, pow_one]

/-! ## Loads, the flagless sum, and the logical instructions (R201 to R206) -/

/-- Settles O23: both rules stage one register write. -/
theorem loadsWriteTheRegister : Obligations.LoadsWriteTheRegister :=
  ⟨fun _ _ => decodeUnder_of_masked (i := .lbr 0#4 0#8) rfl, fun _ _ => decodeUnder_of_masked (i := .lrr 0#4 0#4) rfl,
    fun _ _ _ _ => ⟨fun hpc => ⟨exec_writesV rfl hpc, exec_writesV rfl hpc⟩,
      fun hpc => ⟨exec_pastEnd rfl hpc, exec_pastEnd rfl hpc⟩⟩⟩

/-- Settles O24: the rule stages one register write, the sum of two bytes. -/
theorem abrAddsModulo256WithoutFlag : Obligations.AbrAddsModulo256WithoutFlag := by
  refine ⟨fun _ _ => decodeUnder_of_masked (i := .abr 0#4 0#8) rfl, fun x kk s => ⟨fun hpc => ?_, exec_pastEnd rfl⟩⟩
  obtain ⟨t, hexec, hx, hrest⟩ := exec_writesV (i := .abr x kk) rfl hpc
  exact ⟨t, hexec, by rw [hx, BitVec.toNat_add], hrest⟩

/-- Settles O25: each rule stages one register write, which Lean's bitwise operation of that name gives bit by bit. -/
theorem logicActsBitByBit : Obligations.LogicActsBitByBit := by
  refine ⟨fun _ _ => decodeUnder_of_masked (i := .or 0#4 0#4) rfl, fun _ _ => decodeUnder_of_masked (i := .and 0#4 0#4) rfl,
    fun _ _ => decodeUnder_of_masked (i := .xor 0#4 0#4) rfl,
    fun x y s => ⟨fun hpc => ⟨?_, ?_, ?_⟩, fun hpc => ⟨exec_pastEnd rfl hpc, exec_pastEnd rfl hpc, exec_pastEnd rfl hpc⟩⟩⟩
  · obtain ⟨t, hexec, hx, hrest⟩ := exec_writesV (i := .or x y) rfl hpc
    exact ⟨t, hexec, fun b => by rw [hx, BitVec.getLsbD_or], hrest⟩
  · obtain ⟨t, hexec, hx, hrest⟩ := exec_writesV (i := .and x y) rfl hpc
    exact ⟨t, hexec, fun b => by rw [hx, BitVec.getLsbD_and], hrest⟩
  · obtain ⟨t, hexec, hx, hrest⟩ := exec_writesV (i := .xor x y) rfl hpc
    exact ⟨t, hexec, fun b => by rw [hx, BitVec.getLsbD_xor], hrest⟩

/-! ## The instructions that set the flag (R207 to R211) -/

/-- Settles O26: the sum, then the carry. -/
theorem addWritesSumThenCarry : Obligations.AddWritesSumThenCarry := by
  refine ⟨fun _ _ => decodeUnder_of_masked (i := .add 0#4 0#4) rfl, fun x y s => ⟨fun hpc => ?_, exec_pastEnd rfl⟩⟩
  obtain ⟨t, hexec, hflag, hx, hrest⟩ := exec_writesV_flag (i := .add x y) rfl hpc
  exact ⟨t, hexec, by rw [hflag, carryFlag_toNat], fun hne => by rw [hx hne, BitVec.toNat_add], hrest⟩

/-- Settles O27: the difference to Vx, then not-borrow. -/
theorem subWritesDifferenceThenNotBorrow : Obligations.SubWritesDifferenceThenNotBorrow := by
  refine ⟨fun _ _ => decodeUnder_of_masked (i := .sub 0#4 0#4) rfl, fun x y s => ⟨fun hpc => ?_, exec_pastEnd rfl⟩⟩
  obtain ⟨t, hexec, hflag, hx, hrest⟩ := exec_writesV_flag (i := .sub x y) rfl hpc
  exact ⟨t, hexec, by rw [hflag, notBorrowFlag_toNat], fun hne => by rw [hx hne, byte_sub_toNat], hrest⟩

/-- Settles O28: the difference to Vy, then not-borrow. -/
theorem subnWritesVyThenNotBorrow : Obligations.SubnWritesVyThenNotBorrow := by
  refine ⟨fun _ _ => decodeUnder_of_masked (i := .subn 0#4 0#4) rfl, fun x y s => ⟨fun hpc => ?_, exec_pastEnd rfl⟩⟩
  obtain ⟨t, hexec, hflag, hy, hrest⟩ := exec_writesV_flag (i := .subn x y) rfl hpc
  exact ⟨t, hexec, by rw [hflag, notBorrowFlag_toNat], fun hne => by rw [hy hne, byte_sub_toNat], hrest⟩

/-- Settles O29: the shifted byte, then the bit shifted out; the rows of SHR and SHL examine no y nibble. -/
theorem shiftsWriteTheBitShiftedOut : Obligations.ShiftsWriteTheBitShiftedOut := by
  refine ⟨fun _ _ => decodeUnder_of_masked (i := .shr 0#4) rfl, fun _ _ => decodeUnder_of_masked (i := .shl 0#4) rfl,
    fun x s => ⟨fun hpc => ⟨?_, ?_⟩, fun hpc => ⟨exec_pastEnd rfl hpc, exec_pastEnd rfl hpc⟩⟩⟩
  · obtain ⟨t, hexec, hflag, hx, hrest⟩ := exec_writesV_flag (i := .shr x) rfl hpc
    exact ⟨t, hexec, by rw [hflag, shiftedOutLow_toNat], fun hne => by rw [hx hne, byte_shr_one_toNat], hrest⟩
  · obtain ⟨t, hexec, hflag, hx, hrest⟩ := exec_writesV_flag (i := .shl x) rfl hpc
    exact ⟨t, hexec, by rw [hflag, shiftedOutHigh_toNat], fun hne => by rw [hx hne, byte_shl_one_toNat], hrest⟩

/-! ## RND (R212) -/

/-- RND completed: the masked byte in Vx, and the draw counted (R212; log entry 4). -/
theorem exec_rnd {x : RegIdx} {kk : Byte} {s : State} (hpc : s.pc.toNat + 2 ≤ 0xFFF) :
    exec (.rnd x kk) s =
      .next { s.setV x (Config.rndIn s.draws &&& kk) with pc := BitVec.ofNat 12 s.nextPc, draws := s.draws + 1 } :=
  exec_done (i := .rnd x kk) rfl hpc

/-- Settles O30: the byte is the free `Config.rndIn` at the draw count, so its bits are only masked. -/
theorem rndMasksAFreeByte : Obligations.RndMasksAFreeByte := by
  refine ⟨fun _ _ => decodeUnder_of_masked (i := .rnd 0#4 0#8) rfl, fun x kk s => ⟨fun hpc => ?_, exec_pastEnd rfl⟩⟩
  refine ⟨_, exec_rnd hpc, fun b => ?_, fun z hz => ?_, toNat_ofNat_pc hpc, rfl, rfl⟩
  · show ((s.setV x (Config.rndIn s.draws &&& kk)).getV x).getLsbD b = _
    rw [State.getV_setV_same, BitVec.getLsbD_and]
  · exact (State.getV_setV ..).trans (if_neg hz)

end Sys2Proof.Machine

/-! The statements of 44_index_memory.md: three instructions that write I alone, the two stores, and the register load. -/

namespace Sys2Proof.Machine

/-- A number of 16 bits is held whole by I (R26). -/
theorem toNat_ofNat_i {n : Nat} (h : n ≤ 0xFFFF) : (BitVec.ofNat 16 n).toNat = n := by
  rw [BitVec.toNat_ofNat, Nat.mod_eq_of_lt (by omega)]

/-! ## An instruction that writes I alone, and one that raises an error of its own (R11, R124 to R126) -/

section
variable {c : Config} {i : Instr} {s : State} {a : BitVec 16} {n : Nat} {e : Err}

/-- One staged write to I: that register, PC, and nothing else. -/
theorem execUnder_writesI (heff : effectUnder c i s = .done [.i a] s.nextPc) (ha : a.toNat = n)
    (hpc : s.pc.toNat + 2 ≤ 0xFFF) :
    ∃ t, execUnder c i s = .next t ∧ t.i.toNat = n ∧ t.pc.toNat = s.pc.toNat + 2 ∧ t = { s with i := t.i, pc := t.pc } := by
  refine ⟨{ s with i := a, pc := BitVec.ofNat 12 s.nextPc }, ?_, ha, toNat_ofNat_pc hpc, rfl⟩
  rw [execUnder, heff, complete_done (show s.nextPc ≤ 0xFFF from hpc)]
  rfl

/-- `execUnder_writesI` on this hardware. -/
theorem exec_writesI (heff : effectUnder .hardware i s = .done [.i a] s.nextPc) (ha : a.toNat = n)
    (hpc : s.pc.toNat + 2 ≤ 0xFFF) :
    ∃ t, exec i s = .next t ∧ t.i.toNat = n ∧ t.pc.toNat = s.pc.toNat + 2 ∧ t = { s with i := t.i, pc := t.pc } := by
  rw [← execUnder_hardware]
  exact execUnder_writesI heff ha hpc

/-- An instruction whose rule raises an error halts with it, whatever its PC (R300, R303). -/
theorem execUnder_raises (heff : effectUnder c i s = .raise e) : execUnder c i s = .next (s.raise e) := by
  rw [execUnder, heff, complete_raise]

/-- `execUnder_raises` on this hardware. -/
theorem exec_raises (heff : effectUnder .hardware i s = .raise e) : exec i s = .next (s.raise e) := by
  rw [← execUnder_hardware, execUnder_raises heff]

end

/-! ## LDI, ADDI and LDS (R240 to R242) -/

/-- Settles O31: the rule stages nnn in the low 12 bits of I, and checks nothing. -/
theorem ldiLoadsTheAddress : Obligations.LdiLoadsTheAddress := by
  refine ⟨fun _ _ => decodeUnder_of_masked (i := .ldi 0#12) rfl, fun nnn s => ⟨fun hpc => ?_, exec_pastEnd (ws := [_]) rfl⟩⟩
  have hwidth : (nnn.setWidth 16).toNat = nnn.toNat := BitVec.toNat_setWidth_of_le (by decide)
  exact exec_writesI rfl hwidth hpc

/-- ADDI raises AddressOutOfRange at a sum that does not fit I, else it stages the sum (R241). -/
theorem addiEffect_eq (x : RegIdx) (s : State) :
    addiEffect x s = if 0xFFFF < s.i.toNat + (s.getV x).toNat then .raise .addressOutOfRange
      else .done [.i (BitVec.ofNat 16 (s.i.toNat + (s.getV x).toNat))] s.nextPc := rfl

/-- Settles O32: the sum is checked against the 16 bits of I, and against nothing else. -/
theorem addiFaultsOnlyPast16Bits : Obligations.AddiFaultsOnlyPast16Bits := by
  refine ⟨fun _ _ => decodeUnder_of_masked (i := .addi 0#4) rfl, fun x s => ⟨fun hsum hpc => ?_, fun hsum => ?_, fun hsum => ?_⟩⟩
  · exact exec_writesI ((addiEffect_eq x s).trans (if_neg (Nat.not_lt.mpr hsum))) (toNat_ofNat_i hsum) hpc
  · exact exec_raises ((addiEffect_eq x s).trans (if_pos hsum))
  · exact exec_pastEnd ((addiEffect_eq x s).trans (if_neg (Nat.not_lt.mpr hsum)))

section
variable {c : Config} {x : RegIdx} {s : State}

/-- LDS raises InvalidSpriteIndex at a digit above 15 where LDS_CHECK checks it, else it stages the glyph's address (R242). -/
theorem ldsEffect_eq (c : Config) (x : RegIdx) (s : State) :
    ldsEffect c x s = if 15 < (s.getV x).toNat ∧ c.ldsCheck = .fault then .raise .invalidSpriteIndex
      else .done [.i (BitVec.ofNat 16 ((s.getV x).toNat * 5))] s.nextPc := by
  rw [ldsEffect, glyphAddress_eq]
  by_cases h : 15 < (s.getV x).toNat ∧ c.ldsCheck = .fault
  · rw [if_pos h, if_pos h]
  · rw [if_neg h, if_neg h]

/-- A digit that LDS_CHECK accepts: the product is below 2^16, so I holds it whole (R242). -/
theorem execUnder_lds (h : ¬ (15 < (s.getV x).toNat ∧ c.ldsCheck = .fault)) (hpc : s.pc.toNat + 2 ≤ 0xFFF) :
    ∃ t, execUnder c (.lds x) s = .next t ∧ t.i.toNat = (s.getV x).toNat * 5 ∧ t.pc.toNat = s.pc.toNat + 2 ∧
      t = { s with i := t.i, pc := t.pc } :=
  execUnder_writesI ((ldsEffect_eq c x s).trans (if_neg h)) (toNat_ofNat_i (by omega)) hpc

/-- A digit that LDS_CHECK refuses (R242). -/
theorem execUnder_lds_refused (hc : c.ldsCheck = .fault) (h : 15 < (s.getV x).toNat) :
    execUnder c (.lds x) s = .next (s.raise .invalidSpriteIndex) :=
  execUnder_raises ((ldsEffect_eq c x s).trans (if_pos ⟨h, hc⟩))

end

/-- Settles O33: this hardware's LDS is the one under LDS_CHECK = fault. -/
theorem ldsPointsAtTheGlyph : Obligations.LdsPointsAtTheGlyph := by
  refine ⟨fun _ _ => decodeUnder_of_masked (i := .lds 0#4) rfl, fun x s => ?_,
    fun c x s hpc => ⟨fun hc => execUnder_lds (by simp [hc]) hpc, execUnder_lds_refused⟩⟩
  have hdigit (h : (s.getV x).toNat ≤ 15) : ¬ (15 < (s.getV x).toNat ∧ Config.hardware.ldsCheck = .fault) :=
    fun ⟨hgt, _⟩ => Nat.not_lt.mpr h hgt
  refine ⟨fun h hpc => ?_, fun h => exec_pastEnd ((ldsEffect_eq _ x s).trans (if_neg (hdigit h))), fun h => ?_⟩ <;>
    rw [← execUnder_hardware]
  · exact execUnder_lds (hdigit h) hpc
  · exact execUnder_lds_refused rfl h

/-! ## The stores BCD and SR (R243, R244) -/

/-- No store of this hardware is dropped (R70). -/
theorem hardware_drops_no_store (a : Nat) : ¬ (Config.hardware.fontWrite = .ignore ∧ a < fontLen) := nofun

/-- Settles O34: the three digits by `readByte_of_bcd`; the other bytes are outside the run of stores. -/
theorem bcdStoresDecimalDigits : Obligations.BcdStoresDecimalDigits := by
  refine ⟨fun _ _ => decodeUnder_of_masked (i := .bcd 0#4) rfl, fun x s => ⟨fun hi hpc => ?_, fun hi => ?_, fun hi => ?_⟩⟩
  · have hexec := execUnder_bcd (c := .hardware) (x := x) hi hpc
    have hdigit {j : Nat} (hj : j < 3) := readByte_of_bcd hi hpc hexec hj (hardware_drops_no_store _)
    rw [execUnder_hardware] at hexec
    refine ⟨_, hexec, ?_, ?_, ?_, fun a ha => ?_, toNat_ofNat_pc hpc, ?_⟩
    · have hbyte := (s.getV x).isLt
      exact (hdigit (j := 0) (by decide)).trans (by omega)
    · simpa using hdigit (j := 1) (by decide)
    · simpa using hdigit (j := 2) (by decide)
    · exact readByte_commit_stores_outside _ _ s _ a (ha.imp_right .inl)
    · rw [commit_stores _ rfl]
  · exact exec_raises ((bcdEffect_eq x s).trans (if_neg (Nat.not_le.mpr hi)))
  · exact exec_pastEnd ((bcdEffect_eq x s).trans (if_pos hi))

/-- Settles O35: the registers by `readByte_of_sr`; the other bytes are outside the run of stores. -/
theorem srStoresRegistersAndAdvancesI : Obligations.SrStoresRegistersAndAdvancesI := by
  refine ⟨fun _ _ => decodeUnder_of_masked (i := .sr 0#4) rfl, fun x s => ⟨fun hi hpc => ?_, fun hi => ?_, fun hi => ?_⟩⟩
  · have hexec := execUnder_sr (c := .hardware) hi hpc
    have hreg (k : RegIdx) (hk : k.toNat ≤ x.toNat) := readByte_of_sr hi hpc hexec hk (hardware_drops_no_store _)
    rw [execUnder_hardware] at hexec
    refine ⟨_, hexec, hreg, fun a ha => ?_, toNat_ofNat_i (by omega), toNat_ofNat_pc hpc, ?_⟩
    · exact readByte_commit_stores_outside _ _ s _ a (ha.imp_right fun h => .inl (by rwa [length_map_getV_regsUpTo]))
    · rw [commit_stores _ rfl]
  · exact exec_raises ((srEffect_eq x s).trans (if_neg (Nat.not_le.mpr hi)))
  · exact exec_pastEnd ((srEffect_eq x s).trans (if_pos hi))

/-! ## The register load LR (R245) -/

/-- The bytes from `a` on, written to V0 to Vx: each of these registers holds its byte, and those above x are as before. -/
theorem getV_commit_load (c : Config) (s : State) (x k : RegIdx) (a : Nat) :
    (commit c s (regWrites (regsUpTo x) (s.bytesAt c a (x.toNat + 1)))).getV k =
      if k.toNat ≤ x.toNat then s.readByte c (a + k.toNat) else s.getV k := by
  split
  case isTrue hk =>
    have hread := getV_commit_regWrites c (regsUpTo x) (s.bytesAt c a (x.toNat + 1)) (nodup_regsUpTo x) s k.toNat
      (by rw [length_regsUpTo]; omega) (by rw [length_bytesAt]; omega)
    simpa [getElem_bytesAt] using hread
  case isFalse hk => exact commit_getV fun b hb => hk ((mem_regsUpTo x k).mp (index_of_mem_regWrites hb))

/-- LR stages V0 to Vx and I if the x + 1 addresses exist, else it raises AddressOutOfRange (R66, R245). -/
theorem lrEffect_eq (c : Config) (x : RegIdx) (s : State) :
    lrEffect c x s = if s.i.toNat + x.toNat + 1 ≤ 4096 then
        .done (regWrites (regsUpTo x) (s.bytesAt c s.i.toNat (x.toNat + 1)) ++
          [.i (BitVec.ofNat 16 (s.i.toNat + x.toNat + 1))]) s.nextPc
      else .raise .addressOutOfRange := by
  rw [lrEffect, loadBytes_eq]
  by_cases hi : s.i.toNat + x.toNat + 1 ≤ 4096 <;> simp [hi, ← Nat.add_assoc]

/-- LR completed: the registers are loaded, and I and PC advance (R245). -/
theorem exec_lr {x : RegIdx} {s : State} (hi : s.i.toNat + x.toNat + 1 ≤ 4096) (hpc : s.pc.toNat + 2 ≤ 0xFFF) :
    exec (.lr x) s = .next
      { commit .hardware s (regWrites (regsUpTo x) (s.bytesAt .hardware s.i.toNat (x.toNat + 1))) with
        i := BitVec.ofNat 16 (s.i.toNat + x.toNat + 1), pc := BitVec.ofNat 12 s.nextPc } := by
  rw [exec_done (i := .lr x) ((lrEffect_eq _ x s).trans (if_pos hi)) hpc, commit_append]
  rfl

/-- Settles O36: the registers by `getV_commit_load`; register writes change V alone. -/
theorem lrLoadsRegistersAndAdvancesI : Obligations.LrLoadsRegistersAndAdvancesI := by
  refine ⟨fun _ _ => decodeUnder_of_masked (i := .lr 0#4) rfl, fun x s => ⟨fun hi hpc => ?_, fun hi => ?_, fun hi => ?_⟩⟩
  · refine ⟨_, exec_lr hi hpc, fun k hk => ?_, fun k hk => ?_, toNat_ofNat_i (by omega), toNat_ofNat_pc hpc, ?_⟩
    · exact (getV_commit_load _ s x k _).trans (if_pos hk)
    · exact (getV_commit_load _ s x k _).trans (if_neg (Nat.not_le.mpr hk))
    · rw [commit_regWrites]
  · exact exec_raises ((lrEffect_eq _ x s).trans (if_neg (Nat.not_le.mpr hi)))
  · exact exec_pastEnd ((lrEffect_eq _ x s).trans (if_pos hi))

end Sys2Proof.Machine

/-! The statements of 45_keys_timers.md: the skips on a key, the key wait, and the timer moves. -/

namespace Sys2Proof.Machine

/-! ## The key skips SKP and SKNP (R270, R271) -/

/-- A byte that is a key number names that key under either policy (R270). -/
theorem keyIndex_eq_ok (p : KeyIndexPolicy) {b : Byte} {k : RegIdx} (h : b.toNat = k.toNat) : keyIndex p b = .ok k := by
  rw [keyIndex_of_le p (by omega), h, BitVec.ofNat_toNat, BitVec.setWidth_eq]

/-- Under KEY_INDEX_POLICY = mask every byte names the key of its value mod 16 (R270). -/
theorem keyIndex_mask {b : Byte} {k : RegIdx} (h : b.toNat % 16 = k.toNat) : keyIndex .mask b = .ok k := by
  by_cases hb : b.toNat ≤ 15
  · exact keyIndex_eq_ok .mask (by omega)
  · simp [keyIndex_of_gt .mask (Nat.lt_of_not_le hb), h]

section
variable {c : Config} {i : Instr} {s : State} {x k : RegIdx}

theorem skpEffect_of_key (h : keyIndex c.keyIndex (s.getV x) = .ok k) :
    skpEffect c x s = .done [] (s.skipPc (s.keyDown k)) := by simp [skpEffect, h]

theorem sknpEffect_of_key (h : keyIndex c.keyIndex (s.getV x) = .ok k) :
    sknpEffect c x s = .done [] (s.skipPc (!s.keyDown k)) := by simp [sknpEffect, h]

/-- On this hardware an index above 15 is refused by both skips (R270, R271). -/
theorem keySkipEffects_refused (h : 15 < (s.getV x).toNat) :
    skpEffect .hardware x s = .raise .invalidKeyIndex ∧ sknpEffect .hardware x s = .raise .invalidKeyIndex := by
  have hkey : keyIndex Config.hardware.keyIndex (s.getV x) = .error .invalidKeyIndex := keyIndex_of_gt .fault h
  constructor
  · simp [skpEffect, hkey]
  · simp [sknpEffect, hkey]

/-- A skip where PC + 4 is an address completes whether it is taken or not (R124, R125). -/
theorem execUnder_skip {taken : Bool} (heff : effectUnder c i s = .done [] (s.skipPc taken)) (hpc : s.pc.toNat + 4 ≤ 0xFFF) :
    ∃ t, execUnder c i s = .next t ∧ t = { s with pc := t.pc } ∧ t.pc.toNat = s.skipPc taken := by
  have hnpc : s.skipPc taken ≤ 0xFFF := by
    cases taken with
    | false => rw [skipPc_false]; omega
    | true => exact hpc
  refine ⟨{ s with pc := BitVec.ofNat 12 (s.skipPc taken) }, ?_, rfl, toNat_ofNat_pc hnpc⟩
  rw [execUnder, heff, complete_done hnpc, commit_nil]

end

/-- Settles O39: the key that Vx names, then a skip on that key's being pressed, or on its being released. -/
theorem keySkipsReadTheSnapshot : Obligations.KeySkipsReadTheSnapshot := by
  refine ⟨fun _ _ => decodeUnder_of_masked (i := .skp 0#4) rfl, fun _ _ => decodeUnder_of_masked (i := .sknp 0#4) rfl,
    fun x s => ⟨fun k hk => ?_, fun h => ?_⟩, fun c x s k hc hk hpc => ?_⟩
  · have hkey := keyIndex_eq_ok Config.hardware.keyIndex hk
    obtain ⟨skips, skipTraps, goesOn, traps⟩ :=
      exec_skip (i := .skp x) (p := s.keyDown k = true) (q := s.keyDown k = false) (by simp)
        (by rw [Bool.decide_eq_true]; exact skpEffect_of_key hkey)
    obtain ⟨skips', skipTraps', goesOn', traps'⟩ :=
      exec_skip (i := .sknp x) (p := s.keyDown k = false) (q := s.keyDown k = true) (by simp)
        (by rw [Bool.decide_eq_false]; exact sknpEffect_of_key hkey)
    exact ⟨skips, goesOn, skips', goesOn', skipTraps, traps, skipTraps', traps'⟩
  · obtain ⟨hskp, hsknp⟩ := keySkipEffects_refused h
    exact ⟨exec_raises hskp, exec_raises hsknp⟩
  · have hkey : keyIndex c.keyIndex (s.getV x) = .ok k := hc ▸ keyIndex_mask hk
    have hskp := execUnder_skip (i := .skp x) (skpEffect_of_key hkey) hpc
    have hsknp := execUnder_skip (i := .sknp x) (sknpEffect_of_key hkey) hpc
    cases hdown : s.keyDown k <;> rw [hdown] at hskp hsknp <;> exact ⟨hskp, hsknp⟩

/-! ## The key wait LDK (R272) -/

section
variable {s : State} {x k : RegIdx}

theorem ldkEffect_of_lowestKey_none (h : s.lowestKey = none) :
    ldkEffect x s = .done [.waiting true, .waitX x] s.pc.toNat := by simp [ldkEffect, h]

theorem ldkEffect_of_lowestKey_some (h : s.lowestKey = some k) :
    ldkEffect x s = .done [.v x (k.setWidth 8)] s.nextPc := by simp [ldkEffect, h]

/-- LDK with no key pressed enters the wait, whatever its PC (R272). -/
theorem exec_ldk_waits (h : s.lowestKey = none) : exec (.ldk x) s = .next { s with waiting := true, waitX := x } := by
  rw [exec_done (i := .ldk x) (ldkEffect_of_lowestKey_none h) (by omega), BitVec.ofNat_toNat, BitVec.setWidth_eq]
  rfl

end

/-- Settles O40: the lowest pressed key decides the effect of LDK; the later steps are the key re-check of O8. -/
theorem ldkTakesAKeyOrWaits : Obligations.LdkTakesAKeyOrWaits := by
  refine ⟨fun _ _ => decodeUnder_of_masked (i := .ldk 0#4) rfl, fun x s => ⟨fun hnone => ?_, fun k0 hdown hlow => ?_,
    fun hhalted hpaused hloaded hwaiting hx => ?_⟩⟩
  · exact exec_ldk_waits ((lowestKey_eq_none s).mpr hnone)
  · have heff := ldkEffect_of_lowestKey_some (x := x) ((lowestKey_eq_some s k0).mpr ⟨hdown, hlow⟩)
    refine ⟨fun hpc => ?_, exec_pastEnd heff⟩
    obtain ⟨t, hexec, hkey, hrest⟩ := exec_writesV (i := .ldk x) heff hpc
    exact ⟨t, hexec, by rw [hkey, toNat_keyByte], hrest⟩
  · subst hx
    obtain ⟨hstays, htakes⟩ := keyRecheckTakesTheLowestPressedKey s hhalted hpaused hloaded hwaiting
    refine ⟨hstays, fun k0 hdown hlow => ?_⟩
    obtain ⟨hdone, htraps⟩ := htakes k0 hdown hlow
    refine ⟨fun hpc => ?_, htraps⟩
    obtain ⟨t, hstep, hkey, -, htpc, ht⟩ := hdone hpc
    exact ⟨t, hstep, hkey, congrArg State.waiting ht, htpc⟩

/-! ## The timer moves LDDV, LDVD and LDST (R273 to R275) -/

/-- Settles O41: each rule stages one write, of a register or of a timer. -/
theorem timerMovesCopyTheByte : Obligations.TimerMovesCopyTheByte := by
  refine ⟨fun _ _ => decodeUnder_of_masked (i := .lddv 0#4) rfl, fun _ _ => decodeUnder_of_masked (i := .ldvd 0#4) rfl,
    fun _ _ => decodeUnder_of_masked (i := .ldst 0#4) rfl, fun x s => ⟨fun hpc => ⟨exec_writesV rfl hpc, ?_, ?_⟩,
      fun hpc => ⟨exec_pastEnd rfl hpc, exec_pastEnd rfl hpc, exec_pastEnd rfl hpc⟩⟩⟩
  · exact ⟨_, exec_done rfl hpc, rfl, toNat_ofNat_pc hpc, rfl⟩
  · exact ⟨_, exec_done rfl hpc, rfl, toNat_ofNat_pc hpc, rfl⟩

end Sys2Proof.Machine

/-! The statements of 60_exceptions.md: the order of a step's errors, the tick, and the transactions on KEYS and PAUSED. -/

namespace Sys2Proof.Machine

/-! ## A step past the gate, under any setting of the parameters (R120, R121, R123) -/

section
variable {c : Config} {s : State} {op : Opcode}

/-- Past the gate, and with no wait, a step is one fetch, decode and execute (R120, R121). -/
theorem stepUnder_eq_fetchDecodeExecute (hgate : s.gated = false) (hwaiting : s.waiting = false) :
    stepUnder c s = fetchDecodeExecute c (execUnder c) s := by
  simp [stepUnder, stepWith, hgate, hwaiting]

/-- A fetch error ends the step before anything else (R303). -/
theorem fetchDecodeExecute_of_fetch_error {ex : Instr → State → Result} {e : Err} (hfetch : s.fetch c = .error e) :
    fetchDecodeExecute c ex s = .next (s.raise .addressOutOfRange) := by
  rw [fetchDecodeExecute, hfetch, ← fetch_error hfetch]
  rfl

/-- A word fetched that does not decode ends the step with DecodeFailure (R102, R303). -/
theorem fetchDecodeExecute_of_decode_error {ex : Instr → State → Result} {r : DecodeReject} (hfetch : s.fetch c = .ok op)
    (hdecode : decodeUnder c.strictDecode op = .error r) :
    fetchDecodeExecute c ex s = .next (s.raise .decodeFailure) := by
  simp [fetchDecodeExecute, hfetch, hdecode]

/-- A word fetched and decoded is executed (R123). -/
theorem fetchDecodeExecute_of_decode_ok {ex : Instr → State → Result} {i : Instr} (hfetch : s.fetch c = .ok op)
    (hdecode : decodeUnder c.strictDecode op = .ok i) : fetchDecodeExecute c ex s = ex i s := by
  simp [fetchDecodeExecute, hfetch, hdecode]

end

/-! ## The instructions' own checks, under any setting of the parameters (R303) -/

section
variable {c : Config} {s : State} {x : RegIdx}

/-- Under KEY_INDEX_POLICY = fault both skips refuse an index above 15 (R270, R271). -/
theorem keySkipEffects_refused_of_fault (hc : c.keyIndex = .fault) (h : 15 < (s.getV x).toNat) :
    skpEffect c x s = .raise .invalidKeyIndex ∧ sknpEffect c x s = .raise .invalidKeyIndex := by
  have hkey : keyIndex c.keyIndex (s.getV x) = .error .invalidKeyIndex := by rw [keyIndex_of_gt _ h, hc]
  constructor
  · rw [skpEffect, hkey]
  · rw [sknpEffect, hkey]

/-- DRW raises AddressOutOfRange at a sprite row whose address does not exist (R66, R151). -/
theorem drwEffect_of_outOfRange {y : RegIdx} {n : BitVec 4} (hn : 0 < n.toNat) (h : 4096 < s.i.toNat + n.toNat) :
    drwEffect c x y n s = .raise .addressOutOfRange := by
  rw [drwEffect, loadBytes_eq, if_neg (by omega)]

end

/-- Settles O11: the order by what one fetch, decode and execute can end with; each own check by its rule, which reads no PC. -/
theorem firstRaisedErrorIsReported : Obligations.FirstRaisedErrorIsReported := by
  intro c s hgate hwaiting
  rw [stepUnder_eq_fetchDecodeExecute hgate hwaiting]
  refine ⟨fun e => fetchDecodeExecute_of_fetch_error, fun op r => fetchDecodeExecute_of_decode_error,
    fun op i e hfetch hdecode heff => ?raises, fun op i ws npc hfetch hdecode heff hpc => ?pastEnd,
    fun hsp => if_pos hsp, fun nnn hsp => if_pos hsp, fun x h hc => keySkipEffects_refused_of_fault hc h,
    fun x h hc => (ldsEffect_eq c x s).trans (if_pos ⟨h, hc⟩), fun x h => (bcdEffect_eq x s).trans (if_neg (Nat.not_le.mpr h)),
    fun x h => ⟨(srEffect_eq x s).trans (if_neg (Nat.not_le.mpr h)), (lrEffect_eq c x s).trans (if_neg (Nat.not_le.mpr h))⟩,
    fun x y n => drwEffect_of_outOfRange, fun x h => (addiEffect_eq x s).trans (if_pos h)⟩
  case raises => exact (fetchDecodeExecute_of_decode_ok hfetch hdecode).trans (execUnder_raises heff)
  case pastEnd => rw [fetchDecodeExecute_of_decode_ok hfetch hdecode, execUnder, heff, complete_pastEnd hpc]

/-! ## The tick (R311, R313) -/

/-- A counter goes down by 1 and stops at 0, as subtraction of natural numbers does (R30, R311). -/
theorem toNat_countDown (b : Byte) : (countDown b).toNat = b.toNat - 1 := by
  unfold countDown
  split
  case isTrue h => bv_omega
  case isFalse h => omega

/-- Settles O42: both timers by `toNat_countDown`, BEEP by the test of ST before the tick. -/
theorem tickCountsDown : Obligations.TickCountsDown :=
  fun s => ⟨toNat_countDown s.dt, toNat_countDown s.st, decide_eq_true_iff, rfl⟩

/-! ## set_keys, pause and resume (R314, R316) -/

section
variable {s : State}

/-- A halted machine ignores pause and resume (R316). -/
theorem pause_resume_of_halted (h : s.halted = true) : s.pause = s ∧ s.resume = s := ⟨if_pos h, if_pos h⟩

/-- pause and resume of a machine not halted write PAUSED alone (R316). -/
theorem pause_resume_of_not_halted (h : s.halted = false) :
    s.pause = { s with paused := true } ∧ s.resume = { s with paused := false } := by
  constructor
  · simp [State.pause, h]
  · simp [State.resume, h]

end

/-- Settles O43: set_keys is the replacement of KEYS; pause and resume by HALTED. -/
theorem keysAndPauseTransactions : Obligations.KeysAndPauseTransactions :=
  fun _ _ => ⟨⟨fun _ => rfl, rfl⟩, pause_resume_of_halted, pause_resume_of_not_halted⟩

end Sys2Proof.Machine

/-! The statements of 70_reset_and_hazards.md: the end of memory, the reset state, and the load of an image. -/

namespace Sys2Proof.Machine

/-! ## The end of memory (R125, R360) -/

/-- Where an instruction completes, its next PC is PC + 2 or a skip's PC + 4, unless it is a transfer or an LDK that starts to
wait (R124). -/
theorem skipPc_or_transfer_of_done {c : Config} {i : Instr} {s : State} {ws : List Write} {npc : Nat}
    (h : effectUnder c i s = .done ws npc) :
    (∃ taken, npc = s.skipPc taken) ∨ i = .ret ∨ (∃ nnn, i = .jmp nnn ∨ i = .call nnn ∨ i = .jpv0 nnn) ∨
      ∃ x, i = .ldk x ∧ s.lowestKey = none := by
  cases i with
  | ret => exact .inr (.inl rfl)
  | jmp nnn => exact .inr (.inr (.inl ⟨nnn, .inl rfl⟩))
  | call nnn => exact .inr (.inr (.inl ⟨nnn, .inr (.inl rfl)⟩))
  | jpv0 nnn => exact .inr (.inr (.inl ⟨nnn, .inr (.inr rfl)⟩))
  | ldk x =>
    cases hkey : s.lowestKey with
    | none => exact .inr (.inr (.inr ⟨x, rfl, rfl⟩))
    | some k =>
      rw [effectUnder, ldkEffect_of_lowestKey_some hkey] at h
      cases h
      exact .inl ⟨false, rfl⟩
  | seqb x kk | sneqb x kk | srer x y | sne x y =>
    cases h
    exact .inl ⟨_, rfl⟩
  | skp x | sknp x =>
    simp only [effectUnder, skpEffect, sknpEffect] at h
    split at h <;> cases h
    exact .inl ⟨_, rfl⟩
  | drw x y n | addi x | lds x | bcd x | sr x | lr x =>
    simp only [effectUnder, drwEffect, addiEffect, ldsEffect, bcdEffect, srEffect, lrEffect] at h
    split at h <;> cases h
    exact .inl ⟨false, rfl⟩
  | _ =>
    cases h
    exact .inl ⟨false, rfl⟩

/-- The next PC of a skip is PC + 2 at least, taken or not (R124). -/
theorem pc_add_two_le_skipPc (s : State) (taken : Bool) : s.pc.toNat + 2 ≤ s.skipPc taken := by
  cases taken <;> simp

/-- A skip whose condition holds raises AddressOutOfRange where PC + 4 is no address (R124, R125). -/
theorem exec_takenSkip_pastEnd {i : Instr} {s : State} {p : Prop} [Decidable p]
    (heff : effectUnder Config.hardware i s = .done [] (s.skipPc (decide p))) (hpc : 0xFFF < s.pc.toNat + 4) (hp : p) :
    exec i s = .next (s.raise .addressOutOfRange) := by
  obtain ⟨-, htraps, -, -⟩ := exec_skip (q := ¬ p) id heff
  exact htraps hp hpc

/-- Settles O12: an instruction that does not transfer or wait completes at PC + 2 or more, which is no address from 0xFFE on. -/
theorem endOfMemoryHalts : Obligations.EndOfMemoryHalts := by
  refine ⟨fun i s t hpc hexec hjmp hcall hret hjpv0 hldk => ?_, fun s hpc => ?_⟩
  · obtain ⟨e, -, ht⟩ | ⟨ws, npc, heff, hnpc, -⟩ := exec_next hexec
    · exact ⟨e, ht⟩
    · exfalso
      obtain ⟨taken, rfl⟩ | h | ⟨nnn, h | h | h⟩ | ⟨x, h, hkey⟩ := skipPc_or_transfer_of_done heff
      · have := pc_add_two_le_skipPc s taken
        omega
      · exact hret h
      · exact hjmp nnn h
      · exact hcall nnn h
      · exact hjpv0 nnn h
      · obtain ⟨k, hdown⟩ := hldk x h
        simp [(lowestKey_eq_none s).mp hkey k] at hdown
  · have hend : 0xFFF < s.pc.toNat + 4 := by omega
    refine ⟨fun x kk => exec_takenSkip_pastEnd rfl hend, fun x kk => exec_takenSkip_pastEnd rfl hend,
      fun x y => exec_takenSkip_pastEnd rfl hend, fun x y => exec_takenSkip_pastEnd rfl hend,
      fun x k hk => exec_takenSkip_pastEnd ?_ hend, fun x k hk => exec_takenSkip_pastEnd ?_ hend⟩
    · rw [Bool.decide_eq_true]
      exact skpEffect_of_key (keyIndex_eq_ok _ hk)
    · rw [Bool.decide_eq_false]
      exact sknpEffect_of_key (keyIndex_eq_ok _ hk)

/-! ## The reset state (R46, R350) -/

/-- Below 80 the reset contents are the font (R33, R46). -/
theorem resetByte_font {a : Nat} (h : a < 80) : resetByte Config.hardware a = fontTable[a] := by
  simp [resetByte, Config.hardware, h]

/-- From 80 on the reset contents are 0 (R46). -/
theorem resetByte_of_ge (c : Config) {a : Nat} (h : 80 ≤ a) : resetByte c a = 0#8 := by
  simp [resetByte, h]

section
variable (s : State)

@[simp] theorem getV_resetNow (x : RegIdx) : s.resetNow.getV x = 0#8 := by simp [State.resetNow, State.reset, State.getV]

@[simp] theorem pixel_resetNow (x : Fin 64) (y : Fin 32) : s.resetNow.pixel x y = false := by
  simp [State.resetNow, State.reset, State.pixel]

@[simp] theorem keyDown_resetNow (k : RegIdx) : s.resetNow.keyDown k = false := by
  simp [State.resetNow, State.reset, State.keyDown]

theorem stackAt_resetNow {j : Nat} (h : j < 16) : s.resetNow.stackAt j = some 0#12 := by
  simp [State.resetNow, State.reset, State.stackAt, h]

/-- After a reset every address reads as its reset contents (R46, R350). -/
theorem readByte_resetNow (c : Config) (a : Nat) : s.resetNow.readByte c a = resetByte c a := rfl

end

/-- Settles O44: each element by its reset value, the memory by its reset contents. -/
theorem resetSetsEveryElement : Obligations.ResetSetsEveryElement := by
  rintro s _ rfl
  refine ⟨getV_resetNow s, rfl, rfl, rfl, fun j => stackAt_resetNow s, rfl, rfl, pixel_resetNow s, keyDown_resetNow s,
    rfl, rfl, rfl, rfl, rfl, rfl, rfl, fun a hfont => ?_, fun a hfont _ => ?_⟩
  · rw [readByte_resetNow, resetByte_font hfont]
  · rw [readByte_resetNow, resetByte_of_ge _ hfont]

/-! ## The load of an image (R72, R352) -/

/-- Settles O45: an accepted image is a run of consecutive writes into the reset memory, inside and outside of which the laws of
`Memory.writeList` say what is read; a refused one is an error and nothing else. -/
theorem loadCopiesTheImage : Obligations.LoadCopiesTheImage := by
  refine fun s image => ⟨?_, fun hlen => ?_⟩
  · rintro hlen _ rfl
    rw [load_success _ _ hlen]
    refine ⟨?_, fun j hj => ?_, fun a ha => ?_, rfl, rfl⟩
    · rw [loadReply_eq, if_neg (Nat.not_lt.mpr hlen)]
    · exact Memory.read_writeList_inside _ image [] progBase j hj (Nat.add_le_add_left hlen progBase)
    · exact Memory.read_writeList_outside _ image [] progBase a ha
  · exact ⟨by rw [loadReply_eq, if_pos hlen], load_tooLarge _ s hlen⟩

end Sys2Proof.Machine
